-- ==== Sys2Proof/Word.lean ====
section
/-! DEFINITION. The value types the block's registers and step words are made of: bytes, the 3-bit sensor and
commutation codes, the 6-bit drive pattern, the binary32 value and the lead value (30_encoding.md R63 to R70). -/

namespace Sys2Proof

/-- HB and every byte of a step word (30_encoding.md R63, R70). -/
abbrev Byte := BitVec 8

/-- RSV, the raw rotor-sensor vector: bit 0 is s1, bit 1 is s2, bit 2 is s3 (R64). -/
abbrev Rsv := BitVec 3

/-- CSC, a CommutationState code: 0 to 5 valid, 6 and 7 invalid readings (R65). -/
abbrev Csc := BitVec 3

/-- DPAT, a DrivePattern: bit i asserts output i (R66). -/
abbrev Dpat := BitVec 6

/-- F32, the content of a real-valued register: the 32 bits of a binary32 value, stored as given (00_scope.md R12;
R63, R69). -/
structure F32 where word ::
  bits : BitVec 32
  deriving DecidableEq, Repr, Inhabited

/-- A LEAD value, the type of PhaseLead and DirectionFlag: +1, 0 or -2 (R67). -/
inductive Lead where
  | forward
  | stopped
  | backward
  deriving DecidableEq, Repr, Inhabited

/-- +0.0 (R69). -/
abbrev F32.posZero : F32 := .word 0x00000000#32
/-- -0.0 (R69). -/
abbrev F32.negZero : F32 := .word 0x80000000#32
/-- 0.5 (R69). -/
abbrev F32.half : F32 := .word 0x3F000000#32
/-- 1.0 (R69). -/
abbrev F32.one : F32 := .word 0x3F800000#32
/-- +inf (R69). -/
abbrev F32.posInf : F32 := .word 0x7F800000#32

/-- The arithmetic operations on F32 (00_scope.md R12). -/
inductive FloatOp where
  | add
  | sub
  | mul
  | div
  deriving DecidableEq, Repr

end Sys2Proof
end

