-- ==== Sys2Proof/Config.lean ====
section
/-! DEFINITION. The implementation parameters of 00_scope.md R7. They are fixed for a run (10_state.md R47).
The model takes them as a value of this type, so a statement holds for every well-formed configuration.
Besides, the free values: the reading of a CTRL_DONE whose operand no environment draws, and the bits of a NaN that an
arithmetic operation gives. -/

namespace Sys2Proof

/-- The parameters of R7, under their own names.
`SETTLE_TIME`, `PWM_PERIOD` and `TIMER_RES` are read by no rule (R7); their type F32 is the model's (entry 7).
`NUM` is binary32, the value R7 gives it; `SENTINEL` is not a parameter of its own but `STATE_MAP[0]` (R84). -/
structure Config where
  TICKS : Nat
  KP : F32
  KI : F32
  KD : F32
  TAF : F32
  STATE_MAP : Vector Csc 8
  DRIVE_TABLE : Vector Dpat 8
  SETTLE_TIME : F32
  SYNC_DUTY : F32
  DUTY_RESET : F32
  PWM_PERIOD : F32
  TIMER_RES : F32
  BUF_CAP : Nat
  deriving DecidableEq, Repr

/-- The default STATE_MAP (40_rotor_commutator.md R84). -/
def Config.defaultStateMap : Vector Csc 8 := #v[7, 5, 3, 4, 1, 0, 2, 7]

/-- The default DRIVE_TABLE (40_rotor_commutator.md R86). -/
def Config.defaultDriveTable : Vector Dpat 8 := #v[0x12, 0x18, 0x09, 0x21, 0x24, 0x06, 0x00, 0x00]

/-- The configuration of `State.reset`: the source's values and the spec's defaults where R7 gives them, and for
the OPEN ones (KP, TAF, SYNC_DUTY, DUTY_RESET) the test choices of 95_test_vectors.md part 1.
DESIGN CHOICE (entry 7), unsafe: no statement rests on the OPEN values. -/
def Config.ofTestVectors : Config where
  TICKS := 120
  KP := .half
  KI := .posZero
  KD := .posZero
  TAF := .one
  STATE_MAP := Config.defaultStateMap
  DRIVE_TABLE := Config.defaultDriveTable
  SETTLE_TIME := .posZero
  SYNC_DUTY := .one
  DUTY_RESET := .half
  PWM_PERIOD := .posZero
  TIMER_RES := .posZero
  BUF_CAP := 16

/-- The free readings (entry 5, DESIGN CHOICE): bits 31:0 of the reading of each CTRL_DONE whose operand breaks the draw
of 42_speed_controller.md R111, counted by `State.freeCount`.
R111 bounds a reading (finite, no NaN, sign bit 0), and the binary32 words below 0x7F800000 are exactly those; nothing
else is known of it. -/
opaque Config.freeReading : Nat → Fin 0x7F800000

/-- The free bits of a NaN (entry 10, DESIGN CHOICE): its sign, and its fraction less one, for an operation on two operands.
Binary32 bounds them (00_scope.md R12; 30_encoding.md R69): a NaN is any exponent field of ones with a fraction that is
not zero; the spec states no more. -/
opaque Config.freeNaN : FloatOp → F32 → F32 → Bool × Fin 0x7FFFFF

end Sys2Proof
end

