-- ==== Sys2Proof/Machine/Float.lean ====
section
/-! DEFINITION. The binary32 arithmetic of 00_scope.md R12: each operation is computed exactly on integers and
rounded once, to nearest, ties to even, with subnormals kept.
The finite values are counted in units of 2^-149, the smallest subnormal, so every one of them is an integer.
What R12 leaves to IEEE 754 itself (the sign of an exact zero sum, the overflow threshold, the operations on
infinities) is PRESUMED from the standard (entry 15). -/

namespace Sys2Proof.Machine

/-- What a binary32 value is: a NaN, an infinity, or a sign with a magnitude in units of 2^-149. -/
inductive F32Class where
  | nan
  | inf (neg : Bool)
  | fin (neg : Bool) (units : Nat)
  deriving DecidableEq, Repr

/-- The sign bit (R69). -/
def signBit (w : BitVec 32) : Bool := w.getLsbD 31

/-- The exponent and fraction fields, bits 30:0, as one number (R69). -/
def magBits (w : BitVec 32) : Nat := w.toNat &&& 0x7FFFFFFF

/-- The magnitude of a finite value whose bits 30:0 are `mag`, in units of 2^-149: the fraction for a subnormal,
the fraction with its hidden bit shifted by the exponent otherwise (R69). -/
def magUnits (mag : Nat) : Nat :=
  let expo := mag / 2 ^ 23
  let frac := mag % 2 ^ 23
  if expo = 0 then frac else (2 ^ 23 + frac) * 2 ^ (expo - 1)

/-- Bits 30:0 of +inf (R69). -/
def infBits : Nat := 0x7F800000

/-- The class of a value (R69). -/
def classify (a : F32) : F32Class :=
  if infBits < magBits a.bits then .nan
  else if magBits a.bits = infBits then .inf (signBit a.bits)
  else .fin (signBit a.bits) (magUnits (magBits a.bits))

/-- The value with this sign and these bits 30:0. -/
def ofSignMag (neg : Bool) (mag : Nat) : F32 :=
  .word (BitVec.ofNat 32 (if neg then 2 ^ 31 + mag else mag))

/-- An infinity. -/
def infOf (neg : Bool) : F32 := ofSignMag neg infBits

/-- The NaN an operation gives where its exact result is no number: a word of binary32 with an exponent field of ones and
a fraction that is not zero, of which the spec states no more (entry 10, DESIGN CHOICE). -/
def nanOf (op : FloatOp) (a b : F32) : F32 :=
  ofSignMag (Config.freeNaN op a b).1 (infBits + 1 + (Config.freeNaN op a b).2.val)

/-- `num / den` rounded to the nearest integer, ties to even. -/
def divNearestEven (num den : Nat) : Nat :=
  let q := num / den
  let r := num % den
  if den < 2 * r ∨ (2 * r = den ∧ q % 2 = 1) then q + 1 else q

/-- Bits 30:0 of the binary32 nearest to `num / den` units: the quotient keeps 24 significant bits, or is a whole
number of units where it has fewer, and what is at or past the overflow threshold becomes infinity.
The exponent is added to the rounded significand, so a carry out of the significand steps the exponent. -/
def roundMag (num den : Nat) : Nat :=
  let k := Nat.log2 (num / den) - 23
  min (k * 2 ^ 23 + divNearestEven num (den * 2 ^ k)) infBits

/-- A magnitude with its sign, as an integer. -/
def signedUnits (neg : Bool) (units : Nat) : Int := if neg then -(units : Int) else units

/-- `isnan(a)` (R12). -/
def isnan (a : F32) : Bool :=
  match classify a with
  | .nan => true
  | .inf _ => false
  | .fin _ _ => false

/-- The value is finite: neither a NaN nor an infinity. -/
def isFinite (a : F32) : Bool :=
  match classify a with
  | .nan => false
  | .inf _ => false
  | .fin _ _ => true

/-- A finite value in units of 2^-149 (0 for the others). -/
def unitsOf (a : F32) : Int :=
  match classify a with
  | .nan => 0
  | .inf _ => 0
  | .fin s u => signedUnits s u

/-- Negation: the sign bit is inverted. -/
def fneg (a : F32) : F32 := .word (a.bits ^^^ 0x80000000#32)

/-- `fabs(a)` clears the sign bit (R12). -/
def fabs (a : F32) : F32 := .word (a.bits &&& 0x7FFFFFFF#32)

/-- The sum of two finite values: exact, then rounded once. An exact zero is +0.0 unless both terms are
negative zeros. -/
def addFinite (s : Bool) (m : Nat) (t : Bool) (n : Nat) : F32 :=
  let z := signedUnits s m + signedUnits t n
  if z = 0 then ofSignMag (s && t) 0
  else ofSignMag (decide (z < 0)) (roundMag z.natAbs 1)

/-- The sum of two values, or the given NaN where it is no number. -/
def sumOr (nan a b : F32) : F32 :=
  match classify a, classify b with
  | .nan, _ => nan
  | _, .nan => nan
  | .inf s, .inf t => if s = t then infOf s else nan
  | .inf s, .fin _ _ => infOf s
  | .fin _ _, .inf t => infOf t
  | .fin s m, .fin t n => addFinite s m t n

/-- `fadd(a, b)` (R12). -/
def fadd (a b : F32) : F32 := sumOr (nanOf .add a b) a b

/-- `fsub(a, b)` (R12): the sum with the negated second operand. -/
def fsub (a b : F32) : F32 := sumOr (nanOf .sub a b) a (fneg b)

/-- `fmul(a, b)` (R12). -/
def fmul (a b : F32) : F32 :=
  match classify a, classify b with
  | .nan, _ => nanOf .mul a b
  | _, .nan => nanOf .mul a b
  | .inf s, .inf t => infOf (s ^^ t)
  | .inf s, .fin t n => if n = 0 then nanOf .mul a b else infOf (s ^^ t)
  | .fin s m, .inf t => if m = 0 then nanOf .mul a b else infOf (s ^^ t)
  | .fin s m, .fin t n => ofSignMag (s ^^ t) (roundMag (m * n) (2 ^ 149))

/-- `fdiv(a, b)` (R12). -/
def fdiv (a b : F32) : F32 :=
  match classify a, classify b with
  | .nan, _ => nanOf .div a b
  | _, .nan => nanOf .div a b
  | .inf _, .inf _ => nanOf .div a b
  | .inf s, .fin t _ => infOf (s ^^ t)
  | .fin s _, .inf t => ofSignMag (s ^^ t) 0
  | .fin s m, .fin t n =>
    if n = 0 then (if m = 0 then nanOf .div a b else infOf (s ^^ t))
    else ofSignMag (s ^^ t) (roundMag (m * 2 ^ 149) n)

/-- The place of a value that is not a NaN in the order of binary32: its bits 30:0 with its sign, so -0.0 and
+0.0 have the same place (R12). -/
def orderKey (w : BitVec 32) : Int := signedUnits (signBit w) (magBits w)

/-- The IEEE ordered comparison: false if either operand is a NaN (R12). -/
def ordered (rel : Int → Int → Bool) (a b : F32) : Bool :=
  !isnan a && !isnan b && rel (orderKey a.bits) (orderKey b.bits)

/-- `flt(a, b)` (R12). -/
def flt (a b : F32) : Bool := ordered (fun x y => decide (x < y)) a b

/-- `fgt(a, b)` (R12). -/
def fgt (a b : F32) : Bool := ordered (fun x y => decide (y < x)) a b

/-- `fge(a, b)` (R12). -/
def fge (a b : F32) : Bool := ordered (fun x y => decide (y ≤ x)) a b

/-- A value in [0, 1], not a NaN and not -0.0: what R8 asks of SYNC_DUTY and DUTY_RESET and R29 says of DUTY. -/
def inUnitInterval (a : F32) : Bool := decide (a.bits.toNat ≤ 0x3F800000)

end Sys2Proof.Machine
end

