-- ==== Sys2Proof/Syntax.lean ====
section
/-! DEFINITION. The operations of the block: one constructor per row of spec/opcode_table.json
(30_encoding.md R73), with the operand its format carries (R72). -/

namespace Sys2Proof

/-- The agents of 00_scope.md R6. -/
inductive Agent where
  | env
  | qdec
  | poll
  | spd
  | host
  | boot
  deriving DecidableEq, Repr

/-- One operation. A 32-bit operand is the F32 word of formats SF and SM, a byte operand is the byte of SL or SB,
each as it stands in the step word (R72, R74). -/
inductive Instr where
  /-- ENV_SENSE raw (R82) -/
  | envSense (raw : Rsv)
  /-- QA_FALL (R102) -/
  | qaFall
  /-- QA_RISE (R101) -/
  | qaRise
  /-- QB_FALL (R104) -/
  | qbFall
  /-- QB_RISE (R103) -/
  | qbRise
  /-- POLL (R150) -/
  | poll
  /-- APPLY, internal (R88, R76) -/
  | apply
  /-- ROTOR_READ, internal (R83, R76) -/
  | rotorRead
  /-- CTRL_TOP (R112) -/
  | ctrlTop
  /-- CTRL_DONE m (R114) -/
  | ctrlDone (m : BitVec 32)
  /-- CP_WRITE_TARGET t (R123) -/
  | cpWriteTarget (t : BitVec 32)
  /-- CP_STOP (R124) -/
  | cpStop
  /-- CP_WRITE_LEAD l (R125) -/
  | cpWriteLead (l : Byte)
  /-- CP_ZERO_DUTY (R126) -/
  | cpZeroDuty
  /-- CP_START l (R127) -/
  | cpStart (l : Byte)
  /-- RESET (R177) -/
  | reset
  /-- SYNC_DRIVE (R92) -/
  | syncDrive
  /-- SYNC_SAMPLE (R93) -/
  | syncSample
  /-- HOST_RX b (R134) -/
  | hostRx (b : Byte)
  /-- HOST_ISSUE (R136) -/
  | hostIssue
  deriving DecidableEq, Repr

/-- The agent a step belongs to: the column "agent" of R73. ROTOR_READ is listed there for POLL and BOOT; as an
internal function it belongs to its caller, and the first of the two stands here. -/
def Instr.agent : Instr → Agent
  | .envSense _ => .env
  | .qaFall | .qaRise | .qbFall | .qbRise => .qdec
  | .poll | .apply | .rotorRead => .poll
  | .ctrlTop | .ctrlDone _ => .spd
  | .cpWriteTarget _ | .cpStop | .cpWriteLead _ | .cpZeroDuty | .cpStart _ | .hostRx _ | .hostIssue => .host
  | .reset | .syncDrive | .syncSample => .boot

end Sys2Proof
end

