-- ==== Sys2Proof/Machine/Operands.lean ====
section
/-! DEFINITION. The operand forms of the step words (30_encoding.md R72, R74), the LEAD values (R67), and the checks
of the parameters (00_scope.md R8, 40_rotor_commutator.md R84, R86). -/

namespace Sys2Proof.Machine

/-- The value of a LEAD: +1, 0 or -2 (R67). -/
def leadValue : Lead → Int
  | .forward => 1
  | .stopped => 0
  | .backward => -2

/-- The 3-bit storage code of a LEAD value (R67). -/
def leadCode : Lead → BitVec 3
  | .forward => 0b001#3
  | .stopped => 0b000#3
  | .backward => 0b110#3

/-- The LEAD value of a 3-bit code; the other five codes are reserved (R67). -/
def leadOfCode (c : BitVec 3) : Option Lead :=
  if c = 0b001#3 then some .forward
  else if c = 0b000#3 then some .stopped
  else if c = 0b110#3 then some .backward
  else none

/-- The operand byte L of format SL: L[7:3] must be 0 and L[2:0] must be a LEAD code (R74, R75 (2)). -/
def leadOfByte (L : Byte) : Option Lead :=
  if L.extractLsb' 3 5 = 0#5 then leadOfCode (L.extractLsb' 0 3) else none

/-- The operand byte L of CP_START: besides, l = 0 is not allowed (43_command_port.md R127). -/
def startLeadOfByte (L : Byte) : Option Lead :=
  match leadOfByte L with
  | none => none
  | some .stopped => none
  | some .forward => some .forward
  | some .backward => some .backward

/-- The readings the environment can draw: finite, not a NaN, sign bit 0 (42_speed_controller.md R111). -/
def isReading (m : BitVec 32) : Bool := isFinite (.word m) && !signBit m

/-- A DPAT is legal if no phase has both its bits set (R66). -/
def legalPattern (p : Dpat) : Bool :=
  !(p.getLsbD 0 && p.getLsbD 1) && !(p.getLsbD 2 && p.getLsbD 3) && !(p.getLsbD 4 && p.getLsbD 5)

/-- STATE_MAP sends raw 0 and 7 to an invalid code and raw 1 to 6 onto the valid codes (R84). -/
def stateMapOk (t : Vector Csc 8) : Bool :=
  decide (6 ≤ t[0].toNat) && decide (6 ≤ t[7].toNat) &&
  [t[1], t[2], t[3], t[4], t[5], t[6]].all (fun c => decide (c.toNat < 6)) &&
  decide ([t[1], t[2], t[3], t[4], t[5], t[6]].Nodup)

/-- Every entry of DRIVE_TABLE is legal and entries 6 and 7 are all-off (R86). -/
def driveTableOk (t : Vector Dpat 8) : Bool :=
  [t[0], t[1], t[2], t[3], t[4], t[5], t[6], t[7]].all legalPattern &&
  decide (t[6] = 0#6) && decide (t[7] = 0#6)

/-- The checks of R8 on the parameters. -/
def paramsOk (c : Config) : Bool :=
  decide (1 ≤ c.TICKS) && isFinite c.KP && isFinite c.KI && isFinite c.KD &&
  isFinite c.TAF && fgt c.TAF .posZero &&
  inUnitInterval c.SYNC_DUTY && inUnitInterval c.DUTY_RESET &&
  decide (1 ≤ c.BUF_CAP) && stateMapOk c.STATE_MAP && driveTableOk c.DRIVE_TABLE

end Sys2Proof.Machine
end

