-- ==== Sys2Proof/WellFormed.lean ====
section
/-! DEFINITION. Which operations a program may contain with an effect of their own: the checks on operands that
30_encoding.md R75 and R76, 42_speed_controller.md R111 and 43_command_port.md R127 state.
What an operation does that breaks a check is said by its meaning (a refusal of R160, or a free reading, entry 5). -/

namespace Sys2Proof

/-- The operand checks of each operation. -/
def Instr.wf : Instr → Bool
  | .envSense _ => true
  | .qaFall => true
  | .qaRise => true
  | .qbFall => true
  | .qbRise => true
  | .poll => true
  | .apply => false
  | .rotorRead => false
  | .ctrlTop => true
  | .ctrlDone m => Machine.isReading m
  | .cpWriteTarget _ => true
  | .cpStop => true
  | .cpWriteLead l => (Machine.leadOfByte l).isSome
  | .cpZeroDuty => true
  | .cpStart l => (Machine.startLeadOfByte l).isSome
  | .reset => true
  | .syncDrive => true
  | .syncSample => true
  | .hostRx _ => true
  | .hostIssue => true

/-- A configuration that passes the checks of 00_scope.md R8. -/
def Config.wf (c : Config) : Bool := Machine.paramsOk c

end Sys2Proof
end

