-- ==== Sys2Proof/Decode.lean ====
section
/-! DEFINITION. The step words: the OPID map of 30_encoding.md R73 as a table of rows, a decoder that is total on
any list of bytes and rejects by name, and the encoder written from the same rules (R72 to R77). -/

namespace Sys2Proof

/-- The step-word formats (R72). -/
inductive Format where
  | s0
  | si3
  | sl
  | sf
  | sm
  | sb
  deriving DecidableEq, Repr

/-- How many operand bytes follow the OPID (R72, R77). -/
def Format.operandBytes : Format → Nat
  | .s0 => 0
  | .si3 => 0
  | .sl => 1
  | .sf => 4
  | .sm => 4
  | .sb => 1

/-- One row of the OPID map: the OPIDs `op` with `op AND mask = pattern`, and the operation they name, given the
OPID and the operand. -/
structure OpRow where
  mask : Byte
  pattern : Byte
  format : Format
  build : Byte → BitVec 32 → Instr

/-- The OPID map (R73), row by row. -/
def opRows : List OpRow :=
  [ ⟨0xF8, 0x00, .si3, fun op _ => .envSense (op.extractLsb' 0 3)⟩,
    ⟨0xFF, 0x10, .s0, fun _ _ => .qaFall⟩,
    ⟨0xFF, 0x11, .s0, fun _ _ => .qaRise⟩,
    ⟨0xFF, 0x12, .s0, fun _ _ => .qbFall⟩,
    ⟨0xFF, 0x13, .s0, fun _ _ => .qbRise⟩,
    ⟨0xFF, 0x20, .s0, fun _ _ => .poll⟩,
    ⟨0xFF, 0x21, .s0, fun _ _ => .apply⟩,
    ⟨0xFF, 0x22, .s0, fun _ _ => .rotorRead⟩,
    ⟨0xFF, 0x30, .s0, fun _ _ => .ctrlTop⟩,
    ⟨0xFF, 0x31, .sm, fun _ x => .ctrlDone x⟩ ] ++
  [ ⟨0xFF, 0x40, .sf, fun _ x => .cpWriteTarget x⟩,
    ⟨0xFF, 0x41, .s0, fun _ _ => .cpStop⟩,
    ⟨0xFF, 0x42, .sl, fun _ x => .cpWriteLead (x.setWidth 8)⟩,
    ⟨0xFF, 0x43, .s0, fun _ _ => .cpZeroDuty⟩,
    ⟨0xFF, 0x44, .sl, fun _ x => .cpStart (x.setWidth 8)⟩,
    ⟨0xFF, 0x50, .s0, fun _ _ => .reset⟩,
    ⟨0xFF, 0x51, .s0, fun _ _ => .syncDrive⟩,
    ⟨0xFF, 0x52, .s0, fun _ _ => .syncSample⟩,
    ⟨0xFF, 0x60, .sb, fun _ x => .hostRx (x.setWidth 8)⟩,
    ⟨0xFF, 0x61, .s0, fun _ _ => .hostIssue⟩ ]

/-- The row an OPID belongs to, if any. -/
def rowOf (op : Byte) : Option OpRow := opRows.find? (fun r => op &&& r.mask == r.pattern)

/-- The operand of the bytes that follow an OPID: most significant byte first (R72). -/
def operandOf (bytes : List Byte) : BitVec 32 :=
  bytes.foldl (fun acc b => (acc <<< 8) ||| b.setWidth 32) 0#32

/-- Why a list of bytes gives no operation. -/
inductive DecodeError where
  /-- there is no byte -/
  | noWord
  /-- the OPID is reserved (R75 (1)) -/
  | badOpid
  /-- the OPID's operand bytes are not all there -/
  | truncated
  deriving DecidableEq, Repr

/-- The first operation of a listing and the bytes after it, or the reason there is none. -/
def decode : List Byte → Except DecodeError (Instr × List Byte)
  | [] => .error .noWord
  | op :: rest =>
    match rowOf op with
    | none => .error .badOpid
    | some r =>
      if rest.length < r.format.operandBytes then .error .truncated
      else .ok (r.build op (operandOf (rest.take r.format.operandBytes)), rest.drop r.format.operandBytes)

/-- The OPID of an operation (R73). -/
def opid : Instr → Byte
  | .envSense raw => raw.setWidth 8
  | .qaFall => 0x10
  | .qaRise => 0x11
  | .qbFall => 0x12
  | .qbRise => 0x13
  | .poll => 0x20
  | .apply => 0x21
  | .rotorRead => 0x22
  | .ctrlTop => 0x30
  | .ctrlDone _ => 0x31
  | .cpWriteTarget _ => 0x40
  | .cpStop => 0x41
  | .cpWriteLead _ => 0x42
  | .cpZeroDuty => 0x43
  | .cpStart _ => 0x44
  | .reset => 0x50
  | .syncDrive => 0x51
  | .syncSample => 0x52
  | .hostRx _ => 0x60
  | .hostIssue => 0x61

/-- The four bytes of an F32 operand, most significant first (R72). -/
def wordBytes (x : BitVec 32) : List Byte :=
  [x.extractLsb' 24 8, x.extractLsb' 16 8, x.extractLsb' 8 8, x.extractLsb' 0 8]

/-- The operand bytes of an operation (R72). -/
def operandBytesOf : Instr → List Byte
  | .ctrlDone m => wordBytes m
  | .cpWriteTarget t => wordBytes t
  | .cpWriteLead l => [l]
  | .cpStart l => [l]
  | .hostRx b => [b]
  | .envSense _ | .qaFall | .qaRise | .qbFall | .qbRise | .poll | .apply | .rotorRead | .ctrlTop | .cpStop
  | .cpZeroDuty | .reset | .syncDrive | .syncSample | .hostIssue => []

/-- The step word of an operation (R72, R73). -/
def encode (i : Instr) : List Byte := opid i :: operandBytesOf i

/-- How many bytes the step word of an operation has (R77). -/
def wordLength (i : Instr) : Nat := (encode i).length

/-- The longest step word has five bytes (R77). -/
def longestWord : Nat := 5

/-- How many bytes the word with this OPID takes: its OPID alone fixes it (R77). A reserved OPID has no operand, so
it takes the one byte it is (entry 3, DESIGN CHOICE). -/
def lengthByOpid (op : Byte) : Nat :=
  match rowOf op with
  | none => 1
  | some r => 1 + r.format.operandBytes

/-- The bytes of an instruction numbered as spec/opcode_table.json numbers its bits: bits 7:0 are the first byte,
bits 15:8 the second, and every bit at or above `nbits` is 0. -/
def tableBytes (nbits w : Nat) : List Byte :=
  (List.range longestWord).map (fun k => BitVec.ofNat 8 ((w % 2 ^ nbits) / 2 ^ (8 * k)))

/-- The operation the decoder reads from an instruction of the opcode table. -/
def decodeTableWord (nbits w : Nat) : Option Instr :=
  match decode (tableBytes nbits w) with
  | .ok (i, _) => some i
  | .error _ => none

end Sys2Proof
end

