-- ==== Sys2Proof/Machine/State.lean ====
section
/-! DEFINITION. The state of the block and its host: every element S0 to S24 of 10_state.md R20 under its own name, and
four fields of the model's own (`cfg`, `sched`, `refusedFor`, `freeCount`). Plain data. -/

namespace Sys2Proof.Machine

/-- The rotor-sensor inputs (R22). -/
structure Sens where
  s1 : Bool
  s2 : Bool
  s3 : Bool
  deriving DecidableEq, Repr

/-- CTRL_RUN (R32). -/
inductive CtrlRun where
  | stopped
  | running
  deriving DecidableEq, Repr

/-- CTRL_PHASE (R34). -/
inductive CtrlPhase where
  | top
  | wait
  deriving DecidableEq, Repr

/-- WAIT_DIR (R35). -/
inductive WaitDir where
  | fwd
  | bwd
  deriving DecidableEq, Repr

/-- MODE (R40). -/
inductive Mode where
  | syncDrive
  | syncSettle
  | run
  deriving DecidableEq, Repr

/-- CMD_STATE (R42). -/
structure CmdState where
  speedTarget : F32
  rotations : F32
  infRotate : Bool
  maxSpeed : Bool
  deriving DecidableEq, Repr

/-- A command-port operation, as HOST_PENDING holds it (R43; 43_command_port.md R123 to R127). -/
inductive CpOp where
  | writeTarget (t : F32)
  | stop
  | writeLead (l : Lead)
  | zeroDuty
  | start (l : Lead)
  deriving DecidableEq, Repr

/-- An observable event (R44; 60_exceptions.md R173). -/
inductive Event where
  | pwm (i : Fin 6) (v : F32)
  | echo (b : Byte)
  deriving DecidableEq, Repr

/-- One entry of a listing: a byte of a step word, or the pseudo-operation SET_SPEED (30_encoding.md R79), which alone of
the pseudo-operations can be refused (60_exceptions.md R160) and reads a parameter (43_command_port.md R130). -/
inductive Entry where
  | byte (b : Byte)
  | setSpeed (speed : F32)
  deriving DecidableEq, Repr

/-- The reasons of a refusal of the spec, in the order of 60_exceptions.md R160. -/
inductive RefuseReason where
  | badOpid
  | internalOp
  | badLead
  | running
  | badSpeed
  deriving DecidableEq, Repr

/-- Why the machine stops with a fault. -/
inductive Fault where
  /-- POLL raises it when it would read ROTOR_OFFSET while it is unwritten: 10_state.md R24 says such a read must
  fault. Safe: no run from reset reaches it. -/
  | rotorOffsetUnwritten
  deriving DecidableEq, Repr

/-- Why the model gives a step no outcome. None of these is a refusal of the block (those are next states with
REFUSED set, R10). -/
inductive Refusal where
  /-- An arm of exec without a meaning; no arm is left. Safe: the model stops. -/
  | notModelled (mnemonic : String)
  /-- The step function raises it for a configuration that breaks 00_scope.md R8, which is "refused as a whole"
  (93_implementation_defined.md U12; entry 7). Safe. -/
  | illFormedConfig
  /-- The step function raises it when no step word is left to take (entry 6). Safe. -/
  | noStepWord
  /-- The step function raises it when a step word lacks operand bytes (entry 6). Safe. -/
  | truncatedWord
  deriving DecidableEq, Repr

/-- The state: S0 to S24 of R20, then the model's own fields.
A register that R177 resets to *unwritten* is an Option, and `none` is that value. -/
structure State where
  /-- S0 (R22) -/
  SENS : Sens
  /-- S1 (R23) -/
  QA : Bool
  /-- S1 (R23) -/
  QB : Bool
  /-- S2 (R24) -/
  ROTOR_OFFSET : Option Csc
  /-- S3 (R25) -/
  PHASE_LEAD : Lead
  /-- S4 (R26) -/
  ENC_ANGLE : Int
  /-- S5 (R27) -/
  DIR_FLAG : Lead
  /-- S6 (R28) -/
  CONTROL_TARGET : F32
  /-- S7 (R29) -/
  DUTY : F32
  /-- S8 (R30): OUT[0] = L1L, OUT[1] = L1H, OUT[2] = L2L, OUT[3] = L2H, OUT[4] = L3L, OUT[5] = L3H -/
  OUT : Vector F32 6
  /-- S9 (R31) -/
  PREV_STATE : Option Csc
  /-- S10 (R32) -/
  CTRL_RUN : CtrlRun
  /-- S11 (R33) -/
  START_LEAD : Option Lead
  /-- S12 (R34) -/
  CTRL_PHASE : CtrlPhase
  /-- S13 (R35) -/
  WAIT_DIR : Option WaitDir
  /-- S14 (R36) -/
  WAIT_GOAL : Option Int
  /-- S15 (R37) -/
  INTEG : F32
  /-- S16 (R38) -/
  LAST_ERR : F32
  /-- S17 (R39) -/
  TMR_RUN : Bool
  /-- S18 (R39) -/
  TMR_ELAPSED : F32
  /-- S19 (R40) -/
  MODE : Mode
  /-- S20 (R41) -/
  LINE_BUF : List Byte
  /-- S21 (R42) -/
  CMD_STATE : CmdState
  /-- S22 (R43) -/
  HOST_PENDING : List CpOp
  /-- S23 (R44), oldest event first -/
  TRACE : List Event
  /-- S24 (R46) -/
  REFUSED : Bool
  /-- The reason of the last refusal; the model's own (entry 3), read by no step. -/
  refusedFor : Option RefuseReason
  /-- How many free readings were taken; the model's own (entry 5). -/
  freeCount : Nat
  /-- The parameters; the model's own way to take them (entry 7), written by no step (R47). -/
  cfg : Config
  /-- The listing still to be taken; the model's own (entry 1). -/
  sched : List Entry
  deriving DecidableEq, Repr

/-- The reset value of CMD_STATE (R42, R177). -/
def CmdState.reset : CmdState where
  speedTarget := .posZero
  rotations := .posZero
  infRotate := false
  maxSpeed := false

/-- The initial state of 70_reset_and_hazards.md R179: the values of R177 with TRACE empty and REFUSED false.
SENS, QA and QB are the environment's choice: all low here (entry 8, DESIGN CHOICE).
The parameters are those of entry 7, the listing is empty (entry 1), and no free reading is taken (entry 5, DESIGN
CHOICE). -/
def State.reset : State where
  SENS := ⟨false, false, false⟩
  QA := false
  QB := false
  ROTOR_OFFSET := none
  PHASE_LEAD := .stopped
  ENC_ANGLE := 0
  DIR_FLAG := .stopped
  CONTROL_TARGET := .posZero
  DUTY := Config.ofTestVectors.DUTY_RESET
  OUT := Vector.replicate 6 .posZero
  PREV_STATE := none
  CTRL_RUN := .stopped
  START_LEAD := none
  CTRL_PHASE := .top
  WAIT_DIR := none
  WAIT_GOAL := none
  INTEG := .posZero
  LAST_ERR := .posZero
  TMR_RUN := false
  TMR_ELAPSED := .posZero
  MODE := .syncDrive
  LINE_BUF := []
  CMD_STATE := CmdState.reset
  HOST_PENDING := []
  TRACE := []
  REFUSED := false
  refusedFor := none
  freeCount := 0
  cfg := Config.ofTestVectors
  sched := []

end Sys2Proof.Machine
end

