-- ==== Sys2Proof/Machine/Enabling.lean ====
section
/-! DEFINITION. When each step is enabled: the line "Agent and enabling" of every operation's rule (00_scope.md R13).
A step that is not enabled holds (R10). -/

namespace Sys2Proof.Machine

/-- MODE = RUN (10_state.md R40). -/
def inRun (s : State) : Bool := decide (s.MODE = .run)

/-- `goal_reached()` (42_speed_controller.md R113). An unwritten WAIT_DIR or WAIT_GOAL meets neither line of the
condition (entry 9). -/
def goalReached (s : State) : Bool :=
  match s.WAIT_DIR, s.WAIT_GOAL with
  | some .fwd, some g => decide (g ≤ s.ENC_ANGLE)
  | some .bwd, some g => decide (s.ENC_ANGLE ≤ g)
  | some .fwd, none => false
  | some .bwd, none => false
  | none, _ => false

/-- CTRL_TOP (R112). -/
def ctrlTopEnabled (s : State) : Bool :=
  inRun s && decide (s.CTRL_RUN = .running) && decide (s.CTRL_PHASE = .top)

/-- CTRL_DONE (R114). -/
def ctrlDoneEnabled (s : State) : Bool :=
  inRun s && decide (s.CTRL_RUN = .running) && decide (s.CTRL_PHASE = .wait) && goalReached s

/-- A direct command-port step word, and HOST_RX: MODE = RUN and HOST_PENDING empty
(43_command_port.md R123, R128; 44_host_front_end.md R134). -/
def hostIdle (s : State) : Bool := inRun s && s.HOST_PENDING.isEmpty

/-- HOST_ISSUE: MODE = RUN and HOST_PENDING non-empty (R136). -/
def hostIssueEnabled (s : State) : Bool := inRun s && !s.HOST_PENDING.isEmpty

/-- The enabling of every step word. The two internal operations are refused whatever the state (30_encoding.md
R76), so nothing makes them wait. -/
def enabled (i : Instr) (s : State) : Bool :=
  match i with
  | .envSense _ => true
  | .qaFall => s.QA
  | .qaRise => !s.QA
  | .qbFall => s.QB
  | .qbRise => !s.QB
  | .poll => inRun s
  | .apply => true
  | .rotorRead => true
  | .ctrlTop => ctrlTopEnabled s
  | .ctrlDone _ => ctrlDoneEnabled s
  | .cpWriteTarget _ => hostIdle s
  | .cpStop => hostIdle s
  | .cpWriteLead _ => hostIdle s
  | .cpZeroDuty => hostIdle s
  | .cpStart _ => hostIdle s
  | .reset => true
  | .syncDrive => decide (s.MODE = .syncDrive)
  | .syncSample => decide (s.MODE = .syncSettle)
  | .hostRx _ => hostIdle s
  | .hostIssue => hostIssueEnabled s

end Sys2Proof.Machine
end

