-- ==== Sys2Proof/Machine/Ops.lean ====
section
/-! DEFINITION. The shared operations of the steps: how a step ends (taken, held, refused), the timer's four operations,
and the writes to the six outputs with their events.
The block has no exceptions (60_exceptions.md R155), so there is no exception entry and no return; the nearest thing
is the refusal of 00_scope.md R10. -/

namespace Sys2Proof.Machine

/-- The outcome of one step. -/
abbrev StepOutcome := Host.Outcome State Fault Refusal

/-- Move past the first `n` entries of the listing: a step word of `n` bytes, or a SET_SPEED with `n = 1`. -/
def State.retire (n : Nat) (s : State) : State := { s with sched := s.sched.drop n }

/-- The step is taken: its effect stands and its word of `n` bytes is used up. -/
def takeStep (n : Nat) (s : State) : StepOutcome := .next (s.retire n)

/-- The step is not enabled: it does not occur, nothing changes, and its word waits (R10; entry 2). -/
def hold (s : State) : StepOutcome := .next s

/-- The step occurs if it is enabled and holds otherwise (R10, R13). -/
def gate (enabled : Bool) (s : State) (o : StepOutcome) : StepOutcome := if enabled then o else hold s

/-- `refuse(reason)`: sets the sticky mark REFUSED and leaves all other state of the spec unchanged (R10, R46).
`refusedFor` keeps the reason (entry 3). -/
def refuse (r : RefuseReason) (s : State) : State := { s with REFUSED := true, refusedFor := some r }

/-- A refused step: only the mark is set, and its word of `n` bytes is used up (entry 3). -/
def refuseStep (r : RefuseReason) (n : Nat) (s : State) : StepOutcome := takeStep n (refuse r s)

/-- A step whose effect may be refused: the refusal discards the whole effect (R160). -/
def takeOrRefuse (n : Nat) (effect : Except RefuseReason State) (s : State) : StepOutcome :=
  match effect with
  | .ok t => takeStep n t
  | .error r => refuseStep r n s

/-- Timer reset (42_speed_controller.md R109). -/
def timerReset (s : State) : State := { s with TMR_ELAPSED := .posZero }

/-- Timer start (R109). -/
def timerStart (s : State) : State := { s with TMR_RUN := true }

/-- Timer stop (R109). -/
def timerStop (s : State) : State := { s with TMR_RUN := false }

/-- Timer read: the environment's draw `m` is the reading (R111), and TMR_ELAPSED keeps it (R39). -/
def timerRead (m : F32) (s : State) : State := { s with TMR_ELAPSED := m }

/-- `emit E` (R10, R44). -/
def emit (e : Event) (s : State) : State := { s with TRACE := s.TRACE ++ [e] }

/-- `OUT[i] <- v; emit PWM(i, v)` (40_rotor_commutator.md R88). -/
def writeOut (i : Fin 6) (v : F32) (s : State) : State :=
  emit (.pwm i v) { s with OUT := s.OUT.set i v }

/-- The six outputs in the order both passes take them (R88). -/
def outputs : List (Fin 6) := [0, 1, 2, 3, 4, 5]

/-- The outputs a pattern does not assert. -/
def offOutputs (p : Dpat) : List (Fin 6) := outputs.filter (fun i => !p.getLsbD i)

/-- The outputs a pattern asserts. -/
def onOutputs (p : Dpat) : List (Fin 6) := outputs.filter (fun i => p.getLsbD i)

/-- One pass: write `v` to each of these outputs in order. -/
def writeAll (is : List (Fin 6)) (v : F32) (s : State) : State := is.foldl (fun t i => writeOut i v t) s

/-- The two passes of R88: every output the pattern leaves out is written +0.0, and only then every output it
asserts is written `duty`. -/
def drivePattern (p : Dpat) (duty : F32) (s : State) : State :=
  writeAll (onOutputs p) duty (writeAll (offOutputs p) .posZero s)

end Sys2Proof.Machine
end

