-- ==== Sys2Proof/Machine/Boot.lean ====
section
/-! DEFINITION. RESET (70_reset_and_hazards.md R177). -/

namespace Sys2Proof.Machine

/-- RESET's effect: every element takes its reset value, but for the inputs SENS, QA and QB, which are the
environment's, and the records TRACE and REFUSED (R177). The model's own fields are kept too. DUTY
takes DUTY_RESET whatever line came before, R198 (6) notwithstanding (entry 16). -/
def resetEffect (s : State) : State :=
  { s with
    ENC_ANGLE := 0
    DIR_FLAG := .stopped
    PHASE_LEAD := .stopped
    CONTROL_TARGET := .posZero
    DUTY := s.cfg.DUTY_RESET
    OUT := Vector.replicate 6 .posZero
    PREV_STATE := none
    CTRL_RUN := .stopped
    CTRL_PHASE := .top
    TMR_RUN := false
    TMR_ELAPSED := .posZero
    INTEG := .posZero
    LAST_ERR := .posZero
    ROTOR_OFFSET := none
    START_LEAD := none
    WAIT_DIR := none
    WAIT_GOAL := none
    LINE_BUF := []
    HOST_PENDING := []
    CMD_STATE := CmdState.reset
    MODE := .syncDrive }

/-- RESET (R177): enabled in every state. -/
def execReset (s : State) : StepOutcome := takeStep 1 (resetEffect s)

end Sys2Proof.Machine
end

