-- ==== Sys2Proof/Machine/CommandPort.lean ====
section
/-! DEFINITION. The command port (43_command_port.md): the effect of each operation, which a direct step word and
HOST_ISSUE share (R129), and the SET_SPEED sequence (R130). -/

namespace Sys2Proof.Machine

/-- CP_WRITE_TARGET's effect (R123). -/
def writeTarget (t : F32) (s : State) : State := { s with CONTROL_TARGET := t }

/-- CP_STOP's effect (R124). -/
def stopController (s : State) : State := timerStop { s with CTRL_RUN := .stopped, CTRL_PHASE := .top }

/-- CP_WRITE_LEAD's effect (R125). -/
def writeLead (l : Lead) (s : State) : State := { s with PHASE_LEAD := l }

/-- CP_ZERO_DUTY's effect (R126). -/
def zeroDuty (s : State) : State := { s with DUTY := .posZero }

/-- CP_START's effect (R127). -/
def startController (l : Lead) (s : State) : State :=
  { s with
    CTRL_RUN := .running
    START_LEAD := some l
    CTRL_PHASE := .top
    INTEG := .posZero
    LAST_ERR := .posZero }

/-- A command-port operation: its effect, or the reason it is refused (R123 to R127). -/
def performCp (op : CpOp) (s : State) : Except RefuseReason State :=
  match op with
  | .writeTarget t => .ok (writeTarget t s)
  | .stop => .ok (stopController s)
  | .writeLead l => .ok (writeLead l s)
  | .zeroDuty => .ok (zeroDuty s)
  | .start l =>
    if l = .stopped then .error .badLead
    else if s.CTRL_RUN = .running then .error .running
    else .ok (startController l s)

/-- An operation whose operand is the byte L: a byte that is no LEAD is refused with BadLead (R125, R127). -/
def performWithLead (op : Lead → CpOp) (L : Byte) (s : State) : Except RefuseReason State :=
  match leadOfByte L with
  | none => .error .badLead
  | some l => performCp (op l) s

/-- CP_WRITE_TARGET t (R123). -/
def execCpWriteTarget (t : BitVec 32) (s : State) : StepOutcome :=
  gate (enabled (.cpWriteTarget t) s) s (takeOrRefuse 5 (performCp (.writeTarget (.word t)) s) s)

/-- CP_STOP (R124). -/
def execCpStop (s : State) : StepOutcome :=
  gate (enabled .cpStop s) s (takeOrRefuse 1 (performCp .stop s) s)

/-- CP_WRITE_LEAD l (R125). -/
def execCpWriteLead (l : Byte) (s : State) : StepOutcome :=
  gate (enabled (.cpWriteLead l) s) s (takeOrRefuse 2 (performWithLead .writeLead l s) s)

/-- CP_ZERO_DUTY (R126). -/
def execCpZeroDuty (s : State) : StepOutcome :=
  gate (enabled .cpZeroDuty s) s (takeOrRefuse 1 (performCp .zeroDuty s) s)

/-- CP_START l (R127). A direct one starts the controller after a zero-speed line too, where 70_reset_and_hazards.md
R198 (6) says it stays stopped (entry 16), and it starts it without a CP_WRITE_TARGET before it, where 10_state.md R28
says that one always comes first (entry 18). -/
def execCpStart (l : Byte) (s : State) : StepOutcome :=
  gate (enabled (.cpStart l) s) s (takeOrRefuse 2 (performWithLead .start l s) s)

/-- The target of a speed: `fabs(fdiv(TAF, s))` (R130). -/
def targetOf (taf speed : F32) : F32 := fabs (fdiv taf speed)

/-- The lead of a speed: by its sign; +0.0 and -0.0 are neither above nor below zero (R130). -/
def leadOfSpeed (speed : F32) : Lead :=
  if fgt speed .posZero then .forward else if flt speed .posZero then .backward else .stopped

/-- SET_SPEED: the sequence of operations for a speed; a NaN speed is refused with BadSpeed (R130). -/
def setSpeedOps (taf speed : F32) : Except RefuseReason (List CpOp) :=
  if isnan speed then .error .badSpeed
  else
    let l := leadOfSpeed speed
    .ok [.writeTarget (targetOf taf speed), .stop, .writeLead l, if l = .stopped then .zeroDuty else .start l]

end Sys2Proof.Machine
end

