-- ==== Sys2Proof/Machine/Commutator.lean ====
section
/-! DEFINITION. The rotor-state commutator and the drive sequencer (40_rotor_commutator.md): the internal functions
ROTOR_READ and APPLY, the start-up steps SYNC_DRIVE and SYNC_SAMPLE, and the refusal of the internal OPIDs used as
step words. -/

namespace Sys2Proof.Machine

/-- The raw sensor index s1 + 2 s2 + 4 s3 (30_encoding.md R64). -/
def rawIndex (x : Sens) : Rsv := BitVec.ofNat 3 (x.s1.toNat + 2 * x.s2.toNat + 4 * x.s3.toNat)

/-- `STATE_MAP[raw]` (R84). -/
def stateMapAt (c : Config) (raw : Rsv) : Csc := c.STATE_MAP[raw.toNat]'raw.isLt

/-- ROTOR_READ: the CommutationState of the sensors (R83). -/
def rotorRead (s : State) : Csc := stateMapAt s.cfg (rawIndex s.SENS)

/-- `drive_index(state, offset, lead) = mod6(state - offset + lead + 6)`, with the Euclidean remainder
(R85, 00_scope.md R11). -/
def driveIndex (state offset : Csc) (lead : Lead) : Fin 6 :=
  ⟨(((state.toNat : Int) - offset.toNat + leadValue lead + 6) % 6).toNat, by omega⟩

/-- `DRIVE_TABLE[index]` (R86). -/
def driveTableAt (c : Config) (index : Fin 8) : Dpat := c.DRIVE_TABLE[index]

/-- `select_pattern(state, offset, lead)`: an invalid state or offset selects all-off, before any index is formed
(R87). -/
def selectPattern (c : Config) (state offset : Csc) (lead : Lead) : Dpat :=
  if 6 ≤ state.toNat ∨ 6 ≤ offset.toNat then 0#6
  else driveTableAt c ((driveIndex state offset lead).castLE (by decide))

/-- APPLY: the two passes over the selected pattern (R88). -/
def applyPattern (state : Csc) (lead : Lead) (offset : Csc) (duty : F32) (s : State) : State :=
  drivePattern (selectPattern s.cfg state offset lead) duty s

/-- APPLY as a step word is refused (30_encoding.md R76). -/
def execApply (s : State) : StepOutcome := refuseStep .internalOp 1 s

/-- ROTOR_READ as a step word is refused (30_encoding.md R76). -/
def execRotorRead (s : State) : StepOutcome := refuseStep .internalOp 1 s

/-- SYNC_DRIVE's effect: drive DRIVE_TABLE[0] at SYNC_DUTY, then settle (R92). -/
def syncDriveEffect (s : State) : State :=
  { drivePattern (driveTableAt s.cfg 0) s.cfg.SYNC_DUTY s with MODE := .syncSettle }

/-- SYNC_DRIVE (R92). -/
def execSyncDrive (s : State) : StepOutcome := gate (enabled .syncDrive s) s (takeStep 1 (syncDriveEffect s))

/-- SYNC_SAMPLE's effect: ROTOR_OFFSET is the state read now, and RUN begins (R93). -/
def syncSampleEffect (s : State) : State := { s with ROTOR_OFFSET := some (rotorRead s), MODE := .run }

/-- SYNC_SAMPLE (R93). -/
def execSyncSample (s : State) : StepOutcome := gate (enabled .syncSample s) s (takeStep 1 (syncSampleEffect s))

end Sys2Proof.Machine
end

