-- ==== Sys2Proof/Machine/Controller.lean ====
section
/-! DEFINITION. The PID speed controller: CTRL_TOP and CTRL_DONE (42_speed_controller.md R107 to R122). -/

namespace Sys2Proof.Machine

/-- A window opens: its direction and goal, the timer reset and started, the phase WAIT (R112). -/
def openWindow (d : WaitDir) (goal : Int) (s : State) : State :=
  timerStart (timerReset { s with WAIT_DIR := some d, WAIT_GOAL := some goal, CTRL_PHASE := .wait })

/-- CTRL_TOP's effect: the sign of DIR_FLAG chooses the window; a zero DIR_FLAG idles (R112). -/
def ctrlTopEffect (s : State) : State :=
  match s.DIR_FLAG with
  | .stopped => s
  | .forward => openWindow .fwd (s.ENC_ANGLE + s.cfg.TICKS) s
  | .backward => openWindow .bwd (s.ENC_ANGLE - s.cfg.TICKS) s

/-- CTRL_TOP (R112). -/
def execCtrlTop (s : State) : StepOutcome := gate (enabled .ctrlTop s) s (takeStep 1 (ctrlTopEffect s))

/-- `u = (KP e + KI INTEG) + KD diff`, each operation rounded (R114, R115). -/
def pidUpdate (c : Config) (e integ diff : F32) : F32 :=
  fadd (fadd (fmul c.KP e) (fmul c.KI integ)) (fmul c.KD diff)

/-- `clamp(v, d, L)` (R116). An unwritten START_LEAD equals no direction, so it counts as a mismatch (entry 9). -/
def clampDuty (v : F32) (d : Lead) (L : Option Lead) : F32 :=
  let w := if fgt v .one then .one else v
  if !fge w .posZero || decide (L ≠ some d) then .posZero else w

/-- CTRL_DONE's effect: stop and read the timer, form the error, update the integral, the previous error and the
duty, and return to TOP (R114). -/
def ctrlDoneEffect (m : F32) (s : State) : State :=
  let e := fsub m s.CONTROL_TARGET
  let integ := fadd s.INTEG e
  let diff := fsub e s.LAST_ERR
  let v := fadd s.DUTY (pidUpdate s.cfg e integ diff)
  { timerRead m (timerStop s) with
    INTEG := integ
    LAST_ERR := e
    DUTY := clampDuty v s.DIR_FLAG s.START_LEAD
    CTRL_PHASE := .top }

/-- The reading of a CTRL_DONE: its operand as it stands (30_encoding.md R74); for an operand that breaks the draw of
R111 the spec states no reading, and a free one is taken (entry 5, DESIGN CHOICE). -/
def readingOf (m : BitVec 32) (s : State) : BitVec 32 :=
  if isReading m then m else BitVec.ofNat 32 (Config.freeReading s.freeCount).val

/-- The free readings taken after a CTRL_DONE (entry 5). -/
def freeCountAfter (m : BitVec 32) (s : State) : Nat := if isReading m then s.freeCount else s.freeCount + 1

/-- The close of a window: CTRL_DONE's effect with its reading. -/
def closeWindow (m : BitVec 32) (s : State) : State :=
  { ctrlDoneEffect (.word (readingOf m s)) s with freeCount := freeCountAfter m s }

/-- CTRL_DONE m (R114). -/
def execCtrlDone (m : BitVec 32) (s : State) : StepOutcome :=
  gate (enabled (.ctrlDone m) s) s (takeStep 5 (closeWindow m s))

end Sys2Proof.Machine
end

