-- ==== Sys2Proof/Machine/Environment.lean ====
section
/-! DEFINITION. The environment's step ENV_SENSE (30_encoding.md R82). -/

namespace Sys2Proof.Machine

/-- `s1 <- raw[0]; s2 <- raw[1]; s3 <- raw[2]` (R82). -/
def presentSensors (raw : Rsv) (s : State) : State :=
  { s with SENS := ⟨raw.getLsbD 0, raw.getLsbD 1, raw.getLsbD 2⟩ }

/-- ENV_SENSE raw (R82). -/
def execEnvSense (raw : Rsv) (s : State) : StepOutcome := takeStep 1 (presentSensors raw s)

end Sys2Proof.Machine
end

