-- ==== Sys2Proof/Machine/Decimal.lean ====
section
/-! DEFINITION. The number conversion `atof32` (44_host_front_end.md R142) over the number syntax of R138. -/

namespace Sys2Proof.Machine

/-- The white-space bytes of R138. -/
def isWs (b : Byte) : Bool :=
  b == 0x20 || b == 0x09 || b == 0x0A || b == 0x0B || b == 0x0C || b == 0x0D

/-- The digits `0` to `9` (30_encoding.md R70). -/
def isDigit (b : Byte) : Bool := decide (0x30 ≤ b.toNat ∧ b.toNat ≤ 0x39)

/-- The number a string of digits writes. -/
def digitsValue (ds : List Byte) : Nat := ds.foldl (fun n b => 10 * n + (b.toNat - 0x30)) 0

/-- An optional sign: whether it is `-`, and the bytes after it (R138). -/
def takeSign (f : List Byte) : Bool × List Byte :=
  match f with
  | [] => (false, [])
  | b :: rest => if b == 0x2D then (true, rest) else if b == 0x2B then (false, rest) else (false, f)

/-- The digits after a `.`, and the bytes after them; no digits where there is no `.` (R138). -/
def takeFraction (f : List Byte) : List Byte × List Byte :=
  match f with
  | [] => ([], [])
  | b :: rest => if b == 0x2E then (rest.takeWhile isDigit, rest.dropWhile isDigit) else ([], f)

/-- The longest mantissa: its digits before the point, its digits after it, and the bytes that follow; none where
there is no digit (R138: digit+ ('.' digit*)? or '.' digit+). -/
def takeMantissa (f : List Byte) : Option (List Byte × List Byte × List Byte) :=
  let whole := f.takeWhile isDigit
  let frac := takeFraction (f.dropWhile isDigit)
  if whole.isEmpty && frac.1.isEmpty then none else some (whole, frac.1, frac.2)

/-- The exponent after a mantissa, 0 unless it has at least one digit (R138, R142). -/
def takeExponent (f : List Byte) : Int :=
  match f with
  | [] => 0
  | b :: rest =>
    if b == 0x65 || b == 0x45 then
      let sr := takeSign rest
      let n := digitsValue (sr.2.takeWhile isDigit)
      if sr.1 then -(n : Int) else n
    else 0

/-- Bits 30:0 of the binary32 nearest to `m * 10^x`: one rounding of the exact value, +inf on overflow (R142). -/
def exactDecimalMag (m : Nat) (x : Int) : Nat :=
  if 0 ≤ x then roundMag (m * 10 ^ x.toNat * 2 ^ 149) 1 else roundMag (m * 2 ^ 149) (10 ^ (-x).toNat)

/-- The same number without forming a power of ten that cannot matter: a non-zero value times 10^39 or more
overflows, and a value below half of the smallest subnormal rounds to zero.
`decimalMag_eq` (Laws/Float.lean) proves it equal to `exactDecimalMag`. -/
def decimalMag (m : Nat) (x : Int) : Nat :=
  if m = 0 then 0
  else if 39 ≤ x then infBits
  else if Nat.log2 m + 151 ≤ 3 * (-x).toNat then 0
  else exactDecimalMag m x

/-- `atof32(f)` (R142). -/
def atof32 (f : List Byte) : F32 :=
  let sr := takeSign (f.dropWhile isWs)
  match takeMantissa sr.2 with
  | none => .posZero
  | some (whole, frac, rest) =>
    ofSignMag sr.1 (decimalMag (digitsValue (whole ++ frac)) (takeExponent rest - frac.length))

end Sys2Proof.Machine
end

