-- ==== Sys2Proof/Machine/HostFrontEnd.lean ====
section
/-! DEFINITION. The host front end (44_host_front_end.md): the parse of a line, HOST_RX and HOST_ISSUE. -/

namespace Sys2Proof.Machine

/-- The letters `V` and `v` (R138). -/
def isV (b : Byte) : Bool := b == 0x56 || b == 0x76

/-- The letters `R` and `r` (R138). -/
def isR (b : Byte) : Bool := b == 0x52 || b == 0x72

/-- A speed-only command: the bytes after the V (R139). -/
def parseV (rest : List Byte) : CmdState :=
  { speedTarget := atof32 rest, rotations := .posZero, infRotate := true, maxSpeed := false }

/-- A rotation command: the bytes after the R, split at the first embedded V if there is one (R139, R141). -/
def parseR (rest : List Byte) : CmdState :=
  match rest.dropWhile (fun b => !isV b) with
  | [] => { speedTarget := .posZero, rotations := atof32 rest, infRotate := false, maxSpeed := true }
  | _ :: after =>
    { speedTarget := atof32 after, rotations := atof32 (rest.takeWhile (fun b => !isV b)),
      infRotate := false, maxSpeed := false }

/-- `parse(buf)`: the new CommandState of a recognised line (R139). -/
def parseLine (buf : List Byte) : Option CmdState :=
  match buf with
  | [] => none
  | c :: rest => if isV c then some (parseV rest) else if isR c then some (parseR rest) else none

/-- CR, the line terminator (R145). -/
def isCr (b : Byte) : Bool := b == 0x0D

/-- CMD_STATE after a line: rebuilt by a recognised one, unchanged by any other (R140). -/
def cmdAfterLine (s : State) : CmdState := (parseLine s.LINE_BUF).getD s.CMD_STATE

/-- A line ends: the command state, the empty buffer and the SET_SPEED sequence (R134, R140). A NaN speed, which no
line gives, refuses the step (43_command_port.md R130; entry 12). -/
def endLine (s : State) : Except RefuseReason State :=
  let cmd := cmdAfterLine s
  match setSpeedOps s.cfg.TAF cmd.speedTarget with
  | .error r => .error r
  | .ok ops => .ok { s with CMD_STATE := cmd, LINE_BUF := [], HOST_PENDING := ops }

/-- A byte that is not CR: appended, or dropped if the buffer is full (R134, R144). -/
def appendByte (b : Byte) (s : State) : State :=
  if s.LINE_BUF.length < s.cfg.BUF_CAP then { s with LINE_BUF := s.LINE_BUF ++ [b] } else s

/-- HOST_RX's effect: echo the byte, then process it (R134, R135). -/
def receiveByte (b : Byte) (s : State) : Except RefuseReason State :=
  let t := emit (.echo b) s
  if isCr b then endLine t else .ok (appendByte b t)

/-- HOST_RX b (R134). -/
def execHostRx (b : Byte) (s : State) : StepOutcome :=
  gate (enabled (.hostRx b) s) s (takeOrRefuse 2 (receiveByte b s) s)

/-- HOST_ISSUE's effect: the head of HOST_PENDING is removed and performed (R136). If it is refused, nothing else
changes (R160; entry 11). An empty HOST_PENDING, where the step is not enabled, has no effect. -/
def issueNext (s : State) : Except RefuseReason State :=
  match s.HOST_PENDING with
  | [] => .ok s
  | op :: rest => performCp op { s with HOST_PENDING := rest }

/-- HOST_ISSUE (R136). -/
def execHostIssue (s : State) : StepOutcome :=
  gate (enabled .hostIssue s) s (takeOrRefuse 1 (issueNext s) s)

end Sys2Proof.Machine
end

