-- ==== Sys2Proof/Machine/MainLoop.lean ====
section
/-! DEFINITION. The main loop's poll (45_main_loop.md R150). -/

namespace Sys2Proof.Machine

/-- One iteration: an unchanged reading drives nothing; a changed one is cached and applied with the lead, the offset
and the duty of this moment (R150). Reading an unwritten ROTOR_OFFSET faults (10_state.md R24). -/
def pollOnce (s : State) : StepOutcome :=
  let reading := rotorRead s
  if s.PREV_STATE = some reading then takeStep 1 s
  else
    match s.ROTOR_OFFSET with
    | none => .fault .rotorOffsetUnwritten
    | some offset =>
      takeStep 1 (applyPattern reading s.PHASE_LEAD offset s.DUTY { s with PREV_STATE := some reading })

/-- POLL (R150). -/
def execPoll (s : State) : StepOutcome := gate (enabled .poll s) s (pollOnce s)

end Sys2Proof.Machine
end

