-- ==== Sys2Proof/Machine/Flags.lean ====
section
/-! DEFINITION. The computation of the one flag-like register, DIR_FLAG (10_state.md R45), from a quadrature event:
the QEV code and the direction function (30_encoding.md R68, 41_quadrature.md R98). The host's flags infRotate and
maxSpeed are written by the parse (44_host_front_end.md R139). -/

namespace Sys2Proof.Machine

/-- The encoder channels (R68). -/
inductive Channel where
  | a
  | b
  deriving DecidableEq, Repr

/-- QEV[2]: 0 for channel A, 1 for channel B (R68). -/
def chBit : Channel → Bool
  | .a => false
  | .b => true

/-- The QEV code: channel, polarity, level of the other channel, from bit 2 down (R68). -/
def qev (ch : Channel) (pol other : Bool) : BitVec 3 :=
  BitVec.ofBool (chBit ch) ++ BitVec.ofBool pol ++ BitVec.ofBool other

/-- `fwd(q) = q[2] XOR q[1] XOR q[0]` (R98). -/
def fwd (q : BitVec 3) : Bool := q.getLsbD 2 ^^ q.getLsbD 1 ^^ q.getLsbD 0

/-- The DIR_FLAG an edge sets (R97). -/
def edgeDir (q : BitVec 3) : Lead := if fwd q then .forward else .backward

/-- The change of ENC_ANGLE of an edge (R97). -/
def edgeDelta (q : BitVec 3) : Int := if fwd q then 1 else -1

end Sys2Proof.Machine
end

