-- ==== Sys2Proof/Machine/Quadrature.lean ====
section
/-! DEFINITION. The quadrature decoder: the edge step of 41_quadrature.md R97 and its four handlers (R101 to R104). -/

namespace Sys2Proof.Machine

/-- `LEVEL(ch)` (R97). -/
def level (ch : Channel) (s : State) : Bool :=
  match ch with
  | .a => s.QA
  | .b => s.QB

/-- The other channel (R97). -/
def otherChannel : Channel → Channel
  | .a => .b
  | .b => .a

/-- `LEVEL(ch) <- pol` (R97). -/
def setLevel (ch : Channel) (pol : Bool) (s : State) : State :=
  match ch with
  | .a => { s with QA := pol }
  | .b => { s with QB := pol }

/-- The handler: one count and the direction, from the other channel's level at the edge (R97, R99). -/
def countEdge (q : BitVec 3) (s : State) : State :=
  { s with ENC_ANGLE := s.ENC_ANGLE + edgeDelta q, DIR_FLAG := edgeDir q }

/-- `EDGE(ch, pol)`: the change of level fused with its handler (R97). -/
def edge (ch : Channel) (pol : Bool) (s : State) : State :=
  countEdge (qev ch pol (level (otherChannel ch) s)) (setLevel ch pol s)

/-- QA_RISE (R101). -/
def execQaRise (s : State) : StepOutcome := gate (enabled .qaRise s) s (takeStep 1 (edge .a true s))

/-- QA_FALL (R102). -/
def execQaFall (s : State) : StepOutcome := gate (enabled .qaFall s) s (takeStep 1 (edge .a false s))

/-- QB_RISE (R103). -/
def execQbRise (s : State) : StepOutcome := gate (enabled .qbRise s) s (takeStep 1 (edge .b true s))

/-- QB_FALL (R104). -/
def execQbFall (s : State) : StepOutcome := gate (enabled .qbFall s) s (takeStep 1 (edge .b false s))

end Sys2Proof.Machine
end

