-- ==== Sys2Proof/Machine/Dispatch.lean ====
section
/-! DEFINITION. The dispatch from an operation to its meaning. -/

namespace Sys2Proof.Machine

/-- What an operation does. -/
def exec (i : Instr) (s : State) : Host.Outcome State Fault Refusal :=
  match i with
  | .envSense raw => Sys2Proof.Machine.execEnvSense raw s
  | .qaFall => Sys2Proof.Machine.execQaFall s
  | .qaRise => Sys2Proof.Machine.execQaRise s
  | .qbFall => Sys2Proof.Machine.execQbFall s
  | .qbRise => Sys2Proof.Machine.execQbRise s
  | .poll => Sys2Proof.Machine.execPoll s
  | .apply => Sys2Proof.Machine.execApply s
  | .rotorRead => Sys2Proof.Machine.execRotorRead s
  | .ctrlTop => Sys2Proof.Machine.execCtrlTop s
  | .ctrlDone m => Sys2Proof.Machine.execCtrlDone m s
  | .cpWriteTarget t => Sys2Proof.Machine.execCpWriteTarget t s
  | .cpStop => Sys2Proof.Machine.execCpStop s
  | .cpWriteLead l => Sys2Proof.Machine.execCpWriteLead l s
  | .cpZeroDuty => Sys2Proof.Machine.execCpZeroDuty s
  | .cpStart l => Sys2Proof.Machine.execCpStart l s
  | .reset => Sys2Proof.Machine.execReset s
  | .syncDrive => Sys2Proof.Machine.execSyncDrive s
  | .syncSample => Sys2Proof.Machine.execSyncSample s
  | .hostRx b => Sys2Proof.Machine.execHostRx b s
  | .hostIssue => Sys2Proof.Machine.execHostIssue s

end Sys2Proof.Machine
end

