-- ==== Sys2Proof/Machine/Fetch.lean ====
section
/-! DEFINITION. What the step function does around a meaning: a reserved OPID, and what it fetches from the listing. -/

namespace Sys2Proof.Machine

/-- A step word with a reserved OPID is refused with BadOpid, in every state (30_encoding.md R75 (1), 60_exceptions.md
R160). -/
def refuseReserved (s : State) : StepOutcome := refuseStep .badOpid 1 s

/-- What the step function does where the listing gives no operation (entry 6). -/
def stepWithoutOperation (e : DecodeError) (s : State) : StepOutcome :=
  match e with
  | .badOpid => refuseReserved s
  | .noWord => .refused .noStepWord
  | .truncated => .refused .truncatedWord

/-- The bytes at the head of a listing, up to its first SET_SPEED. -/
def stepBytes : List Entry → List Byte
  | [] => []
  | .byte b :: rest => b :: stepBytes rest
  | .setSpeed _ :: _ => []

/-- The speed of the SET_SPEED at the head of a listing, if that is what stands there. -/
def nextSpeed : List Entry → Option F32
  | [] => none
  | .byte _ :: _ => none
  | .setSpeed speed :: _ => some speed

/-- The bytes of one instruction of the opcode table, no more than its OPID gives it. -/
def fetchBytes (nbits w : Nat) : List Byte :=
  (tableBytes nbits w).take (lengthByOpid ((tableBytes nbits w).headD 0))

end Sys2Proof.Machine
end

