-- ==== Sys2Proof/Machine/Pseudo.lean ====
section
/-! DEFINITION. The pseudo-operations of 30_encoding.md R79 as lists of operations, what SET_SPEED in a listing does, and the
enumeration codes of R81. -/

namespace Sys2Proof.Machine

/-- QCYCLE_FWD (R79). -/
def qcycleFwd : List Instr := [.qaRise, .qbRise, .qaFall, .qbFall]

/-- QCYCLE_BWD (R79). -/
def qcycleBwd : List Instr := [.qbRise, .qaRise, .qbFall, .qaFall]

/-- QCYCLE_FWD xn: n copies of QCYCLE_FWD in a row, 4n edges (R79). -/
def qcycleFwdTimes (n : Nat) : List Instr := (List.replicate n qcycleFwd).flatten

/-- The operand byte L of a lead: its code in L[2:0] and 0 in L[7:3] (R67, R72). -/
def leadByte (l : Lead) : Byte := (leadCode l).setWidth 8

/-- The step word of a command-port operation (43_command_port.md R123 to R127, R129). -/
def cpWord (op : CpOp) : Instr :=
  match op with
  | .writeTarget t => .cpWriteTarget t.bits
  | .stop => .cpStop
  | .writeLead l => .cpWriteLead (leadByte l)
  | .zeroDuty => .cpZeroDuty
  | .start l => .cpStart (leadByte l)

/-- SET_SPEED s as step words: the sequence of 43_command_port.md R130, each operation by its own word (R79); a NaN speed is
refused with BadSpeed (60_exceptions.md R160). -/
def setSpeedWords (taf speed : F32) : Except RefuseReason (List Instr) :=
  match setSpeedOps taf speed with
  | .error r => .error r
  | .ok ops => .ok (ops.map cpWord)

/-- Step words as entries of a listing. -/
def wordEntries (words : List Instr) : List Entry := (words.flatMap encode).map .byte

/-- SET_SPEED s at the head of a listing: a NaN speed is refused with BadSpeed, which sets the mark REFUSED and nothing else
(43_command_port.md R130; 60_exceptions.md R160; 93_implementation_defined.md U8); any other speed gives way to the words of
its sequence, which the next steps take (R79).
It waits for what its first operation waits for, MODE = RUN and an empty queue (43_command_port.md R128; entry 19, DESIGN
CHOICE). -/
def execSetSpeed (speed : F32) (s : State) : StepOutcome :=
  gate (hostIdle s) s
    (match setSpeedWords s.cfg.TAF speed with
    | .error r => refuseStep r 1 s
    | .ok words => .next { s with sched := wordEntries words ++ s.sched.drop 1 })

/-- LINE "text" without the interleaved HOST_ISSUE steps (R79). -/
def lineWords (text : List Byte) : List Instr := text.map .hostRx

/-- The code of CTRL_RUN (R81). -/
def ctrlRunCode : CtrlRun → Nat
  | .stopped => 0
  | .running => 1

/-- The code of CTRL_PHASE (R81). -/
def ctrlPhaseCode : CtrlPhase → Nat
  | .top => 0
  | .wait => 1

/-- The code of WAIT_DIR (R81). -/
def waitDirCode : WaitDir → Nat
  | .fwd => 0
  | .bwd => 1

/-- The code of MODE (R81). -/
def modeCode : Mode → Nat
  | .syncDrive => 0
  | .syncSettle => 1
  | .run => 2

/-- The code of PREV_STATE: a CSC code, or 8 for NONE (R81). -/
def prevStateCode : Option Csc → Nat
  | some c => c.toNat
  | none => 8

end Sys2Proof.Machine
end

