-- ==== Sys2Proof/Machine/Step.lean ====
section
/-! DEFINITION. The step function: it takes the next step word, or SET_SPEED, of the listing `sched` and runs it. -/

namespace Sys2Proof.Machine

/-- One step. A configuration that fails the checks of 00_scope.md R8 is refused as a whole. -/
def step (s : State) : Host.Outcome State Fault Refusal :=
  if s.cfg.wf then
    match nextSpeed s.sched with
    | some speed => execSetSpeed speed s
    | none =>
      match decode (stepBytes s.sched) with
      | .ok (i, _) => exec i s
      | .error e => stepWithoutOperation e s
  else .refused .illFormedConfig

/-- `s` with one instruction of the opcode table as the next step word; what the listing held comes after it. -/
def State.withFetchWord (s : State) (nbits w : Nat) : State :=
  { s with sched := (fetchBytes nbits w).map .byte ++ s.sched }

end Sys2Proof.Machine
end

