-- ==== Sys2Proof/Safety.lean ====
section
/-! DEFINITION. What counts as a safe run: the invariant of the machine (70_reset_and_hazards.md R198), the outputs
replayed write by write (40_rotor_commutator.md R90), and the notions of runs that claims use (R105, R121, R197,
R199). -/

namespace Sys2Proof.Machine

/-- No phase has both of its outputs non-zero (R90): outputs 2(p-1) and 2(p-1)+1 belong to phase p. -/
abbrev NoShootThrough (out : Vector F32 6) : Prop :=
  (out[0] = .posZero ∨ out[1] = .posZero) ∧ (out[2] = .posZero ∨ out[3] = .posZero) ∧
  (out[4] = .posZero ∨ out[5] = .posZero)

/-- The outputs after one event of the trace. -/
def replayEvent (out : Vector F32 6) (e : Event) : Vector F32 6 :=
  match e with
  | .pwm i v => out.set i v
  | .echo _ => out

/-- The outputs after a list of events: what an observer sees write by write (R90). -/
def replay (out : Vector F32 6) (es : List Event) : Vector F32 6 := es.foldl replayEvent out

/-- The events a step from `s` to `t` added to TRACE. -/
def newEvents (s t : State) : List Event := t.TRACE.drop s.TRACE.length

/-- The queue HOST_PENDING is what is left of the SET_SPEED sequence of the last speed, and once its CP_STOP is done
and until its last operation is, the controller is stopped (43_command_port.md R130; 44_host_front_end.md R136). -/
def PendingOk (s : State) : Prop :=
  ∃ ops n, setSpeedOps s.cfg.TAF s.CMD_STATE.speedTarget = .ok ops ∧ s.HOST_PENDING = ops.drop n ∧ n ≤ 4 ∧
    (n = 2 ∨ n = 3 → s.CTRL_RUN = .stopped)

/-- The invariant every step keeps. -/
structure Inv (s : State) : Prop where
  /-- the parameters pass the checks of R8 -/
  params : s.cfg.wf = true
  /-- DUTY is in [0,1], not NaN, not -0.0 (R29, R198 (1)) -/
  duty : inUnitInterval s.DUTY = true
  /-- so is every output (R30) -/
  outputs : ∀ i : Fin 6, inUnitInterval s.OUT[i] = true
  /-- no phase is driven on both sides (R90, R198 (2)) -/
  phases : NoShootThrough s.OUT
  /-- ROTOR_OFFSET is written exactly in RUN (R24, R94) -/
  offset : s.ROTOR_OFFSET.isSome = true ↔ s.MODE = .run
  /-- before RUN the controller, the poll and the host have done nothing (R40) -/
  boot : s.MODE ≠ .run → s.CTRL_RUN = .stopped ∧ s.PREV_STATE = none ∧ s.LINE_BUF = [] ∧ s.HOST_PENDING = []
  /-- a running controller has a START_LEAD (R33) -/
  started : s.CTRL_RUN = .running → s.START_LEAD.isSome = true
  /-- START_LEAD is +1 or -2 (R33) -/
  startLead : s.START_LEAD ≠ some .stopped
  /-- an open window belongs to a running controller, and its direction and goal are written (R35, R36, R116) -/
  window : s.CTRL_PHASE = .wait →
    s.CTRL_RUN = .running ∧ s.WAIT_DIR.isSome = true ∧ s.WAIT_GOAL.isSome = true ∧ s.DIR_FLAG ≠ .stopped
  /-- the timer runs exactly while a window is open (R39) -/
  timer : s.TMR_RUN = true ↔ s.CTRL_PHASE = .wait
  /-- TMR_ELAPSED is a reading (R39, R111) -/
  reading : ∃ w, s.TMR_ELAPSED = .word w ∧ isReading w = true
  /-- the line buffer is no longer than its capacity (R41) -/
  buffer : s.LINE_BUF.length ≤ s.cfg.BUF_CAP
  /-- the speed is not a NaN (44_host_front_end.md R142) -/
  speed : isnan s.CMD_STATE.speedTarget = false
  /-- the queue is the rest of a SET_SPEED sequence (R43) -/
  pending : PendingOk s

/-- The command-port operation a step performs if it is taken: a direct step word's own, or the head of the queue
(43_command_port.md R129). -/
def performed (i : Instr) (s : State) : Option CpOp :=
  match i with
  | .cpWriteTarget t => some (.writeTarget (.word t))
  | .cpStop => some .stop
  | .cpWriteLead L => (leadOfByte L).map .writeLead
  | .cpZeroDuty => some .zeroDuty
  | .cpStart L => (leadOfByte L).map .start
  | .hostIssue => s.HOST_PENDING.head?
  | .envSense _ | .qaFall | .qaRise | .qbFall | .qbRise | .poll | .apply | .rotorRead | .ctrlTop | .ctrlDone _ | .reset
  | .syncDrive | .syncSample | .hostRx _ => none

/-- `RunOf ok s t`: the machine goes from `s` to `t` by operations that `ok` allows, in any order. -/
inductive RunOf (ok : Instr → Prop) : State → State → Prop where
  | start (s : State) : RunOf ok s s
  | step {s u t : State} (i : Instr) (run : RunOf ok s u) (allowed : ok i) (step : exec i u = .next t) : RunOf ok s t

/-- Every operation but CR, RESET and a direct CP_START. Of these three, R198 (6) names the first ("until the next line
ends"); the other two go by their own rules (entry 16). -/
def keepsStop (i : Instr) : Prop := i ≠ .reset ∧ i ≠ .hostRx 0x0D ∧ ∀ L, i ≠ .cpStart L

/-- Take these operations in order, stopping at the first that does not answer a next state. -/
def execAll : List Instr → State → StepOutcome
  | [], s => .next s
  | i :: is, s =>
    match exec i s with
    | .next t => execAll is t
    | .fault f => .fault f
    | .refused r => .refused r

/-- Whether an edge from this state counts forward, in the words of 41_quadrature.md R101 to R104. -/
def countsForward (i : Instr) (s : State) : Bool :=
  match i with
  | .qaRise => !s.QB
  | .qaFall => s.QB
  | .qbRise => s.QA
  | .qbFall => !s.QA
  | .envSense _ | .poll | .apply | .rotorRead | .ctrlTop | .ctrlDone _ | .cpWriteTarget _ | .cpStop
  | .cpWriteLead _ | .cpZeroDuty | .cpStart _ | .reset | .syncDrive | .syncSample | .hostRx _ | .hostIssue => false

/-- `EdgeRun s ds t`: the machine goes from `s` to `t` by steps of any agents except RESET, and `ds` says of each edge
taken on the way, oldest first, whether it counted forward (R105). -/
inductive EdgeRun : State → List Bool → State → Prop where
  | start (s : State) : EdgeRun s [] s
  | edge {s u t : State} {ds : List Bool} (i : Instr) (run : EdgeRun s ds u) (isEdge : i.agent = .qdec)
      (taken : enabled i u = true) (step : exec i u = .next t) : EdgeRun s (ds ++ [countsForward i u]) t
  | other {s u t : State} {ds : List Bool} (i : Instr) (run : EdgeRun s ds u)
      (noEdge : i.agent ≠ .qdec ∨ enabled i u = false) (noReset : i ≠ .reset) (step : exec i u = .next t) :
      EdgeRun s ds t

/-- DUTY, INTEG and LAST_ERR of the controller. -/
structure PidRegs where
  duty : F32
  integ : F32
  lastErr : F32
  deriving DecidableEq, Repr

/-- The three registers of a state. -/
def pidRegs (s : State) : PidRegs := ⟨s.DUTY, s.INTEG, s.LAST_ERR⟩

/-- A closed window, as the accumulator formula sees it: the reading, the target and the direction at the close. -/
structure Window where
  reading : F32
  target : F32
  dir : Lead
  deriving DecidableEq, Repr

/-- One window of the accumulator formula (42_speed_controller.md R121), with the gains of `c` and the start lead. -/
def accumulate (c : Config) (startLead : Option Lead) (r : PidRegs) (w : Window) : PidRegs :=
  let e := fsub w.reading w.target
  let integ := fadd r.integ e
  let u := fadd (fadd (fmul c.KP e) (fmul c.KI integ)) (fmul c.KD (fsub e r.lastErr))
  let v := fadd r.duty u
  let top := if fgt v .one then .one else v
  ⟨if fge top .posZero = true ∧ startLead = some w.dir then top else .posZero, integ, e⟩

/-- `PidRun s ws t`: the machine goes from `s` to `t` by steps of any agents but a start, a zeroing of the duty and a
RESET, and `ws` lists the windows closed on the way, oldest first. The target may be rewritten between two windows, and
the controller stopped. -/
inductive PidRun : State → List Window → State → Prop where
  | start (s : State) : PidRun s [] s
  | close {s u t : State} {ws : List Window} (m : BitVec 32) (run : PidRun s ws u)
      (taken : enabled (.ctrlDone m) u = true) (step : exec (.ctrlDone m) u = .next t) :
      PidRun s (ws ++ [⟨t.TMR_ELAPSED, u.CONTROL_TARGET, u.DIR_FLAG⟩]) t
  | other {s u t : State} {ws : List Window} (i : Instr) (run : PidRun s ws u)
      (noClose : ∀ m, i = .ctrlDone m → enabled i u = false) (noReset : i ≠ .reset)
      (noZero : performed i u ≠ some .zeroDuty) (noStart : ∀ l, performed i u ≠ some (.start l))
      (step : exec i u = .next t) : PidRun s ws t

/-- An infinite run: a sequence of states and of the step words offered (70_reset_and_hazards.md R197). A word that
is not enabled leaves the state as it is. -/
structure Run where
  state : Nat → State
  word : Nat → Instr
  step : ∀ n, exec (word n) (state n) = .next (state (n + 1))

/-- Weak fairness for one step: if it stays enabled from some point on, it is eventually taken (R197). -/
def Run.weaklyFair (r : Run) (i : Instr) : Prop :=
  ∀ n, (∀ m, n ≤ m → enabled i (r.state m) = true) → ∃ m, n ≤ m ∧ r.word m = i

/-- The steps R197 asks weak fairness of: those of the block, the host's queue and the boot sequence.
Quiescence counts the same steps, where R199 says "every enabled step of a non-environment agent" (entry 17, DESIGN
CHOICE): RESET, which is enabled in every state and is no stutter in RUN, and the direct CP_* words, which only a program
offers, are left out, since with RESET counted no state in RUN would be quiescent. -/
def isFairStep : Instr → Bool
  | .poll | .ctrlTop | .ctrlDone _ | .hostIssue | .syncDrive | .syncSample => true
  | .envSense _ | .qaFall | .qaRise | .qbFall | .qbRise | .apply | .rotorRead | .cpWriteTarget _ | .cpStop
  | .cpWriteLead _ | .cpZeroDuty | .cpStart _ | .reset | .hostRx _ => false

/-- A quiescent state: every enabled step the block could take by itself is a stutter (R199; entry 17). -/
def Quiescent (s : State) : Prop :=
  ∀ i, isFairStep i = true → i.wf = true → enabled i s = true → exec i s = .next (s.retire (wordLength i))

/-- What a state holds besides the fields no step reads: rotations, infRotate and maxSpeed (44_host_front_end.md R148),
TMR_RUN and TMR_ELAPSED (10_state.md R39), REFUSED and its reason (R46), and the parameters SETTLE_TIME, PWM_PERIOD and
TIMER_RES (00_scope.md R7). -/
def readPart (s : State) : State :=
  { s with
    CMD_STATE := ⟨s.CMD_STATE.speedTarget, .posZero, false, false⟩
    TMR_RUN := false
    TMR_ELAPSED := .posZero
    REFUSED := false
    refusedFor := none
    cfg := { s.cfg with SETTLE_TIME := .posZero, PWM_PERIOD := .posZero, TIMER_RES := .posZero } }

end Sys2Proof.Machine
end

