-- ==== Sys2Proof/Certificates/Slice0/Obligations.lean ====
section
/-! DEFINITION. The statements for the provers.
A number R<n> is a rule of spec/; an entry <n> is a row of notes/assumptions.
Where a statement gives a next state, it writes the whole state, so everything it does not name is unchanged; the field
`sched` is the listing, of which a step that is taken uses up its own word (entry 1). Its entries are the bytes of step
words and the pseudo-operation SET_SPEED.
A statement about every state that could fail only in states no run reaches has the invariant `Inv` as a premise, and
`EveryStepKeepsTheInvariant` states the invariant. -/

section

open Sys2Proof Sys2Proof.Machine

/-! ### Step words -/

/-- The OPID map (R73) with the operand assembly (R72, R74): every row, every operand, whatever bytes follow. -/
def Obligations.StepWordsDecodeToTheirOperations : Prop :=
  ∀ rest : List Byte,
    (∀ raw : Rsv, decode (raw.setWidth 8 :: rest) = .ok (.envSense raw, rest)) ∧
    decode (0x10 :: rest) = .ok (.qaFall, rest) ∧
    decode (0x11 :: rest) = .ok (.qaRise, rest) ∧
    decode (0x12 :: rest) = .ok (.qbFall, rest) ∧
    decode (0x13 :: rest) = .ok (.qbRise, rest) ∧
    decode (0x20 :: rest) = .ok (.poll, rest) ∧
    decode (0x21 :: rest) = .ok (.apply, rest) ∧
    decode (0x22 :: rest) = .ok (.rotorRead, rest) ∧
    decode (0x30 :: rest) = .ok (.ctrlTop, rest) ∧
    (∀ b3 b2 b1 b0 : Byte,
      decode (0x31 :: b3 :: b2 :: b1 :: b0 :: rest) = .ok (.ctrlDone (b3 ++ b2 ++ b1 ++ b0), rest) ∧
      decode (0x40 :: b3 :: b2 :: b1 :: b0 :: rest) = .ok (.cpWriteTarget (b3 ++ b2 ++ b1 ++ b0), rest)) ∧
    decode (0x41 :: rest) = .ok (.cpStop, rest) ∧
    decode (0x43 :: rest) = .ok (.cpZeroDuty, rest) ∧
    (∀ b : Byte,
      decode (0x42 :: b :: rest) = .ok (.cpWriteLead b, rest) ∧
      decode (0x44 :: b :: rest) = .ok (.cpStart b, rest) ∧
      decode (0x60 :: b :: rest) = .ok (.hostRx b, rest)) ∧
    decode (0x50 :: rest) = .ok (.reset, rest) ∧
    decode (0x51 :: rest) = .ok (.syncDrive, rest) ∧
    decode (0x52 :: rest) = .ok (.syncSample, rest) ∧
    decode (0x61 :: rest) = .ok (.hostIssue, rest)

/-- The decoder gives back every operation, with every operand, whatever bytes follow its word (R72 to R77). -/
def Obligations.DecodeOfEncodeIsTheOperation : Prop :=
  ∀ (i : Instr) (rest : List Byte), decode (encode i ++ rest) = .ok (i, rest)

/-- No byte of a step word is dropped or added: what decodes is the word of the operation and the bytes after it, and
the word has the 1, 2 or 5 bytes its OPID gives it (R77). -/
def Obligations.EncodeOfDecodeIsTheWord : Prop :=
  ∀ (bytes rest : List Byte) (i : Instr), decode bytes = .ok (i, rest) →
    bytes = encode i ++ rest ∧ bytes.head? = some (opid i) ∧
    (encode i).length = lengthByOpid (opid i) ∧ (encode i).length ∈ [1, 2, 5]

/-- Every OPID the map does not list is refused with BadOpid, whatever the state and what follows it: only the mark
is set (R75 (1), R160).
That the word is one byte long and that the reason is kept is the model's choice (entry 3). -/
def Obligations.ReservedOpidsAreRefused : Prop :=
  ∀ (s : State) (op : Byte) (rest : List Entry), s.cfg.wf = true → s.sched = .byte op :: rest →
    (0x08 ≤ op.toNat ∧ op.toNat ≤ 0x0F ∨ 0x14 ≤ op.toNat ∧ op.toNat ≤ 0x1F ∨ 0x23 ≤ op.toNat ∧ op.toNat ≤ 0x2F ∨
      0x32 ≤ op.toNat ∧ op.toNat ≤ 0x3F ∨ 0x45 ≤ op.toNat ∧ op.toNat ≤ 0x4F ∨ 0x53 ≤ op.toNat ∧ op.toNat ≤ 0x5F ∨
      0x62 ≤ op.toNat) →
    step s = .next { s with REFUSED := true, refusedFor := some .badOpid, sched := rest }

/-- An internal function used as a step word is refused with InternalOp in every state: only the mark is set
(R76, R160). -/
def Obligations.InternalOperationsAreRefused : Prop :=
  ∀ s : State,
    exec .apply s = .next { s with REFUSED := true, refusedFor := some .internalOp, sched := s.sched.drop 1 } ∧
    exec .rotorRead s = .next { s with REFUSED := true, refusedFor := some .internalOp, sched := s.sched.drop 1 }

/-! ### The step -/

/-- A step runs the operation the listing gives: the one its bytes decode to, up to the first SET_SPEED, so the one whose word
stands first, whatever follows it. -/
def Obligations.StepRunsTheDecodedOperation : Prop :=
  ∀ (s : State) (i : Instr), s.cfg.wf = true →
    (∀ rest : List Byte, decode (stepBytes s.sched) = .ok (i, rest) → step s = exec i s) ∧
    (∀ rest : List Entry, s.sched = (encode i).map .byte ++ rest → step s = exec i s)

/-- A step word that is taken is used up, and one that is not enabled waits with the whole state unchanged
(R10; entry 2). -/
def Obligations.EveryTakenStepMovesPastItsWord : Prop :=
  ∀ (i : Instr) (s : State),
    (enabled i s = false → exec i s = .next s) ∧
    (∀ t : State, exec i s = .next t → enabled i s = true → t.sched = s.sched.drop (wordLength i))

/-- Before RUN every step of the poll, the controller, the host and the command port holds (R40, R128, R167). -/
def Obligations.AgentsHoldUntilRun : Prop :=
  ∀ (s : State) (i : Instr), s.MODE ≠ .run →
    (i = .poll ∨ i.agent = .spd ∨ i.agent = .host) → exec i s = .next s

/-! ### The environment and the quadrature decoder -/

/-- ENV_SENSE writes the three sensor inputs and nothing else, in every state (R82). -/
def Obligations.EnvSensePresentsTheVector : Prop :=
  ∀ (s : State) (raw : Rsv),
    exec (.envSense raw) s =
      .next { s with SENS := ⟨raw.getLsbD 0, raw.getLsbD 1, raw.getLsbD 2⟩, sched := s.sched.drop 1 }

/-- The four edge handlers (R101 to R104): one count and the direction by the other channel's level, in every mode; an
edge of a channel that is already at the new level holds. -/
def Obligations.EncoderEdgesCountOneAndSetTheDirection : Prop :=
  ∀ s : State,
    (s.QA = false → exec .qaRise s = .next { s with
      QA := true
      ENC_ANGLE := if s.QB then s.ENC_ANGLE - 1 else s.ENC_ANGLE + 1
      DIR_FLAG := if s.QB then .backward else .forward
      sched := s.sched.drop 1 }) ∧
    (s.QA = true → exec .qaRise s = .next s) ∧
    (s.QA = true → exec .qaFall s = .next { s with
      QA := false
      ENC_ANGLE := if s.QB then s.ENC_ANGLE + 1 else s.ENC_ANGLE - 1
      DIR_FLAG := if s.QB then .forward else .backward
      sched := s.sched.drop 1 }) ∧
    (s.QA = false → exec .qaFall s = .next s) ∧
    (s.QB = false → exec .qbRise s = .next { s with
      QB := true
      ENC_ANGLE := if s.QA then s.ENC_ANGLE + 1 else s.ENC_ANGLE - 1
      DIR_FLAG := if s.QA then .forward else .backward
      sched := s.sched.drop 1 }) ∧
    (s.QB = true → exec .qbRise s = .next s) ∧
    (s.QB = true → exec .qbFall s = .next { s with
      QB := false
      ENC_ANGLE := if s.QA then s.ENC_ANGLE - 1 else s.ENC_ANGLE + 1
      DIR_FLAG := if s.QA then .backward else .forward
      sched := s.sched.drop 1 }) ∧
    (s.QB = false → exec .qbFall s = .next s)

/-- The quadrature event code and its table (R68): the three bits of the code, and the direction, the count and the
flag of each of the eight events. -/
def Obligations.DirectionFunctionIsTheQuadratureTable : Prop :=
  (∀ (ch : Channel) (pol other : Bool),
    (qev ch pol other).getLsbD 2 = decide (ch = .b) ∧ (qev ch pol other).getLsbD 1 = pol ∧
    (qev ch pol other).getLsbD 0 = other ∧
    fwd (qev ch pol other) = (decide (ch = .b) ^^ pol ^^ other)) ∧
  (∀ q : BitVec 3,
    (q = 0b001 ∨ q = 0b010 ∨ q = 0b100 ∨ q = 0b111 → fwd q = true ∧ edgeDelta q = 1 ∧ edgeDir q = .forward) ∧
    (q = 0b000 ∨ q = 0b011 ∨ q = 0b101 ∨ q = 0b110 → fwd q = false ∧ edgeDelta q = -1 ∧ edgeDir q = .backward))

/-- The angle is the net count of the edges and the flag is the direction of the last one, over every run without a
RESET in which the other agents step as they like; and the counts of a full cycle either way, of n forward cycles in a
row and of a double change (R105). -/
def Obligations.AngleIsTheNetCountOfEdges : Prop :=
  (∀ (s t : State) (ds : List Bool), EdgeRun s ds t →
    t.ENC_ANGLE = s.ENC_ANGLE + ds.count true - ds.count false ∧
    t.DIR_FLAG = match ds.getLast? with
      | none => s.DIR_FLAG
      | some true => .forward
      | some false => .backward) ∧
  (∀ s : State, s.QA = false → s.QB = false →
    execAll qcycleFwd s =
      .next { s with ENC_ANGLE := s.ENC_ANGLE + 4, DIR_FLAG := .forward, sched := s.sched.drop 4 } ∧
    execAll qcycleBwd s =
      .next { s with ENC_ANGLE := s.ENC_ANGLE - 4, DIR_FLAG := .backward, sched := s.sched.drop 4 } ∧
    (∀ n, 0 < n → execAll (qcycleFwdTimes n) s =
      .next { s with ENC_ANGLE := s.ENC_ANGLE + 4 * n, DIR_FLAG := .forward, sched := s.sched.drop (4 * n) }) ∧
    execAll [.qaRise, .qbRise] s = .next { s with
      QA := true, QB := true, ENC_ANGLE := s.ENC_ANGLE + 2, DIR_FLAG := .forward, sched := s.sched.drop 2 } ∧
    execAll [.qbRise, .qaRise] s = .next { s with
      QA := true, QB := true, ENC_ANGLE := s.ENC_ANGLE - 2, DIR_FLAG := .backward, sched := s.sched.drop 2 })

/-! ### The commutator, the drive sequencer and the poll -/

/-- The sensor decode: the table entry at s1 + 2 s2 + 4 s3 (R83); under the constraints on STATE_MAP a reading is
invalid exactly when the three sensors agree (R84); and the default table. -/
def Obligations.RotorReadFollowsTheSensorMap : Prop :=
  ∀ s : State,
    s.cfg.STATE_MAP[s.SENS.s1.toNat + 2 * s.SENS.s2.toNat + 4 * s.SENS.s3.toNat]? = some (rotorRead s) ∧
    (s.cfg.wf = true → (6 ≤ (rotorRead s).toNat ↔ s.SENS.s1 = s.SENS.s2 ∧ s.SENS.s2 = s.SENS.s3)) ∧
    (s.cfg.STATE_MAP = Config.defaultStateMap →
      (s.SENS = ⟨false, false, false⟩ → rotorRead s = 7) ∧ (s.SENS = ⟨true, false, false⟩ → rotorRead s = 5) ∧
      (s.SENS = ⟨false, true, false⟩ → rotorRead s = 3) ∧ (s.SENS = ⟨true, true, false⟩ → rotorRead s = 4) ∧
      (s.SENS = ⟨false, false, true⟩ → rotorRead s = 1) ∧ (s.SENS = ⟨true, false, true⟩ → rotorRead s = 0) ∧
      (s.SENS = ⟨false, true, true⟩ → rotorRead s = 2) ∧ (s.SENS = ⟨true, true, true⟩ → rotorRead s = 7))

/-- Pattern selection (R85, R87): an invalid state or offset selects all-off; otherwise the pattern is the table entry
at the index, of 0 to 5, that differs from state - offset + lead + 6 by a multiple of 6. -/
def Obligations.PatternSelectionUsesTheEuclideanIndex : Prop :=
  ∀ (c : Config) (state offset : Csc) (lead : Lead),
    (6 ≤ state.toNat ∨ 6 ≤ offset.toNat → selectPattern c state offset lead = 0) ∧
    (state.toNat < 6 → offset.toNat < 6 → ∃ k : Fin 6,
      (6 : Int) ∣ (state.toNat : Int) - offset.toNat +
        (match lead with | .forward => 1 | .stopped => 0 | .backward => -2) + 6 - (k.val : Int) ∧
      c.DRIVE_TABLE[k.val]? = some (selectPattern c state offset lead))

/-- At lead 0 and offset 0 the pattern of state k is the table entry k, for all eight codes (R95). -/
def Obligations.PatternAtLeadZeroAndOffsetZero : Prop :=
  ∀ (c : Config) (k : Csc), c.wf = true → c.DRIVE_TABLE[k.toNat]? = some (selectPattern c k 0 .stopped)

/-- POLL (R150) with the two passes of APPLY (R88), event by event: a changed reading is cached and its pattern driven
at the duty of this moment, every de-assert write before every assert write; an unchanged one writes nothing; before
RUN the step holds. -/
def Obligations.PollIsOneLoopIteration : Prop :=
  ∀ s : State,
    (s.MODE ≠ .run → exec .poll s = .next s) ∧
    (s.MODE = .run → s.PREV_STATE = some (rotorRead s) → exec .poll s = .next { s with sched := s.sched.drop 1 }) ∧
    (∀ offset : Csc, s.MODE = .run → s.PREV_STATE ≠ some (rotorRead s) → s.ROTOR_OFFSET = some offset →
      let p := selectPattern s.cfg (rotorRead s) offset s.PHASE_LEAD
      exec .poll s = .next { s with
        PREV_STATE := some (rotorRead s)
        OUT := Vector.ofFn (fun i => if p.getLsbD i then s.DUTY else .posZero)
        TRACE := s.TRACE ++
          (([0, 1, 2, 3, 4, 5].filter (fun i : Fin 6 => !p.getLsbD i)).map (fun i => Event.pwm i .posZero) ++
            ([0, 1, 2, 3, 4, 5].filter (fun i : Fin 6 => p.getLsbD i)).map (fun i => Event.pwm i s.DUTY))
        sched := s.sched.drop 1 })

/-- Turn-off before turn-on, for every step (R89): in the events of one step no output is written +0.0 after an output
was written with another value. -/
def Obligations.NoTurnOffFollowsATurnOn : Prop :=
  ∀ (i : Instr) (s t : State), exec i s = .next t →
    (newEvents s t).Pairwise (fun e f => ∀ (j k : Fin 6) (v : F32),
      e = .pwm j v → f = .pwm k .posZero → v = .posZero)

/-- No shoot-through (R90): outputs that drive no phase on both sides do so after every single write of every step, and
after the step; the outputs after reset are such. -/
def Obligations.NoShootThroughAtAnyWrite : Prop :=
  NoShootThrough State.reset.OUT ∧
  ∀ s t : State, s.cfg.wf = true → NoShootThrough s.OUT → step s = .next t →
    NoShootThrough t.OUT ∧
    ∀ n : Nat, NoShootThrough (replay s.OUT ((newEvents s t).take n))

/-- TRACE records every write to an output, in order, and only grows; RESET's writes are no events (R44, R173, R177). -/
def Obligations.TraceRecordsEveryOutputWrite : Prop :=
  ∀ (i : Instr) (s t : State), exec i s = .next t →
    t.TRACE = s.TRACE ++ newEvents s t ∧
    (i ≠ .reset → t.OUT = replay s.OUT (newEvents s t)) ∧
    (i = .reset → newEvents s t = [])

/-- SYNC_DRIVE (R92): the pattern DRIVE_TABLE[0] at SYNC_DUTY in two passes, then SYNC_SETTLE; in another mode it
holds. -/
def Obligations.SyncDriveHoldsCommutationStateZero : Prop :=
  ∀ s : State,
    (s.MODE ≠ .syncDrive → exec .syncDrive s = .next s) ∧
    (s.MODE = .syncDrive →
      let p := s.cfg.DRIVE_TABLE[0]
      exec .syncDrive s = .next { s with
        OUT := Vector.ofFn (fun i => if p.getLsbD i then s.cfg.SYNC_DUTY else .posZero)
        TRACE := s.TRACE ++
          (([0, 1, 2, 3, 4, 5].filter (fun i : Fin 6 => !p.getLsbD i)).map (fun i => Event.pwm i .posZero) ++
            ([0, 1, 2, 3, 4, 5].filter (fun i : Fin 6 => p.getLsbD i)).map (fun i => Event.pwm i s.cfg.SYNC_DUTY))
        MODE := .syncSettle
        sched := s.sched.drop 1 })

/-- SYNC_SAMPLE (R93): the offset is the reading of this moment, valid or not, and RUN begins; in another mode it
holds. -/
def Obligations.SyncSampleCapturesTheOffset : Prop :=
  ∀ s : State,
    (s.MODE ≠ .syncSettle → exec .syncSample s = .next s) ∧
    (s.MODE = .syncSettle → exec .syncSample s =
      .next { s with ROTOR_OFFSET := some (rotorRead s), MODE := .run, sched := s.sched.drop 1 })

/-- Where an output value comes from, and when an output can change at all (R152, R198 (7)): only a POLL that sees
another reading, SYNC_DRIVE and RESET change an output, and the new value is +0.0, DUTY or SYNC_DUTY. -/
def Obligations.EveryOutputValueHasASource : Prop :=
  ∀ (i : Instr) (s t : State), exec i s = .next t →
    (t.OUT ≠ s.OUT →
      (i = .poll ∧ s.PREV_STATE ≠ some (rotorRead s)) ∨ (i = .syncDrive ∧ s.MODE = .syncDrive) ∨ i = .reset) ∧
    ∀ k : Fin 6, t.OUT[k] = s.OUT[k] ∨ t.OUT[k] = .posZero ∨ (i = .poll ∧ t.OUT[k] = s.DUTY) ∨
      (i = .syncDrive ∧ t.OUT[k] = s.cfg.SYNC_DUTY)

/-! ### The speed controller -/

/-- CTRL_TOP (R112): the sign of DIR_FLAG chooses the window, its goal is TICKS edges away, the timer is reset and
started, and the phase is WAIT; at DIR_FLAG 0 it idles; where it is not enabled it holds. -/
def Obligations.CtrlTopOpensTheWindow : Prop :=
  ∀ s : State,
    (s.MODE ≠ .run ∨ s.CTRL_RUN = .stopped ∨ s.CTRL_PHASE = .wait → exec .ctrlTop s = .next s) ∧
    (s.MODE = .run → s.CTRL_RUN = .running → s.CTRL_PHASE = .top →
      (s.DIR_FLAG = .stopped → exec .ctrlTop s = .next { s with sched := s.sched.drop 1 }) ∧
      (s.DIR_FLAG = .forward → exec .ctrlTop s = .next { s with
        WAIT_DIR := some .fwd
        WAIT_GOAL := some (s.ENC_ANGLE + s.cfg.TICKS)
        TMR_ELAPSED := .posZero
        TMR_RUN := true
        CTRL_PHASE := .wait
        sched := s.sched.drop 1 }) ∧
      (s.DIR_FLAG = .backward → exec .ctrlTop s = .next { s with
        WAIT_DIR := some .bwd
        WAIT_GOAL := some (s.ENC_ANGLE - s.cfg.TICKS)
        TMR_ELAPSED := .posZero
        TMR_RUN := true
        CTRL_PHASE := .wait
        sched := s.sched.drop 1 }))

/-- CTRL_DONE (R114) with the control law (R115) and the clamp (R116): for every reading the environment can draw
(R111), in an open window whose goal is reached (R113). -/
def Obligations.CtrlDoneUpdatesTheDuty : Prop :=
  ∀ (s : State) (m : BitVec 32) (goal : Int), s.MODE = .run → s.CTRL_RUN = .running → s.CTRL_PHASE = .wait →
    s.WAIT_GOAL = some goal →
    (s.WAIT_DIR = some .fwd ∧ goal ≤ s.ENC_ANGLE ∨ s.WAIT_DIR = some .bwd ∧ s.ENC_ANGLE ≤ goal) →
    isFinite (.word m) = true → m.getLsbD 31 = false →
    let e := fsub (.word m) s.CONTROL_TARGET
    let integ := fadd s.INTEG e
    let diff := fsub e s.LAST_ERR
    let u := fadd (fadd (fmul s.cfg.KP e) (fmul s.cfg.KI integ)) (fmul s.cfg.KD diff)
    let v := fadd s.DUTY u
    let top := if fgt v .one then .one else v
    exec (.ctrlDone m) s = .next { s with
      TMR_RUN := false
      TMR_ELAPSED := .word m
      INTEG := integ
      LAST_ERR := e
      DUTY := if fge top .posZero = true ∧ s.START_LEAD = some s.DIR_FLAG then top else .posZero
      CTRL_PHASE := .top
      sched := s.sched.drop 5 }

/-- The wait (R113): CTRL_DONE holds, whatever its operand, while its window is not open or its goal is not reached.
That a window whose direction or goal is unwritten is not reached is the model's choice (entry 9). -/
def Obligations.CtrlDoneHoldsBeforeTheGoal : Prop :=
  ∀ (s : State) (m : BitVec 32),
    (s.MODE ≠ .run ∨ s.CTRL_RUN = .stopped ∨ s.CTRL_PHASE = .top ∨
      (∃ goal, s.WAIT_GOAL = some goal ∧
        (s.WAIT_DIR = some .fwd ∧ s.ENC_ANGLE < goal ∨ s.WAIT_DIR = some .bwd ∧ goal < s.ENC_ANGLE)) ∨
      s.WAIT_DIR = none ∨ s.WAIT_GOAL = none) →
    exec (.ctrlDone m) s = .next s

/-- Only an edge lifts the wait (R106, R113): while a window is open and CTRL_DONE holds, no step of another agent
makes it enabled. -/
def Obligations.OnlyAnEdgeLiftsTheWait : Prop :=
  ∀ (i : Instr) (s t : State) (m : BitVec 32), s.CTRL_PHASE = .wait → s.CTRL_RUN = .running → s.MODE = .run →
    enabled (.ctrlDone m) s = false → exec i s = .next t → enabled (.ctrlDone m) t = true → i.agent = .qdec

/-- The duty stays in [0,1], is no NaN and is not -0.0, whatever the step (R29, R198 (1)); after a window that closes
against START_LEAD, or whose candidate is a NaN, it is +0.0 (R159, R176, R198 (5)). The reading of the window is what
it leaves in TMR_ELAPSED. -/
def Obligations.DutyStaysInTheUnitInterval : Prop :=
  (∀ (i : Instr) (s t : State), s.cfg.wf = true → inUnitInterval s.DUTY = true → exec i s = .next t →
    fge t.DUTY .posZero = true ∧ fgt t.DUTY .one = false ∧ isnan t.DUTY = false ∧ t.DUTY ≠ .negZero) ∧
  (∀ (m : BitVec 32) (s t : State), enabled (.ctrlDone m) s = true → exec (.ctrlDone m) s = .next t →
    s.START_LEAD ≠ some s.DIR_FLAG ∨
      isnan (pidUpdate s.cfg (fsub t.TMR_ELAPSED s.CONTROL_TARGET) (fadd s.INTEG (fsub t.TMR_ELAPSED s.CONTROL_TARGET))
        (fsub (fsub t.TMR_ELAPSED s.CONTROL_TARGET) s.LAST_ERR)) = true →
    t.DUTY = .posZero)

/-- The steps of the controller write only its phase, the window, the timer, INTEG, LAST_ERR and DUTY (R119), besides the
model's own listing and count of free readings. -/
def Obligations.ControllerWritesOnlyItsFields : Prop :=
  ∀ (i : Instr) (s t : State), i.agent = .spd → exec i s = .next t →
    { t with
      CTRL_PHASE := s.CTRL_PHASE
      WAIT_DIR := s.WAIT_DIR
      WAIT_GOAL := s.WAIT_GOAL
      TMR_RUN := s.TMR_RUN
      TMR_ELAPSED := s.TMR_ELAPSED
      INTEG := s.INTEG
      LAST_ERR := s.LAST_ERR
      DUTY := s.DUTY
      freeCount := s.freeCount
      sched := s.sched } = s

/-- The frame of the other agents (R54, R106, R198 (4)): what each may write, everything else unchanged. The mark of a
refusal and its reason are bookkeeping and stand with the agents whose steps can be refused. -/
def Obligations.AgentsWriteOnlyTheirFields : Prop :=
  ∀ (i : Instr) (s t : State), exec i s = .next t →
    (i.agent = .env → { t with SENS := s.SENS, sched := s.sched } = s) ∧
    (i.agent = .qdec → (t.QA = s.QA ∨ t.QB = s.QB) ∧
      { t with QA := s.QA, QB := s.QB, ENC_ANGLE := s.ENC_ANGLE, DIR_FLAG := s.DIR_FLAG, sched := s.sched } = s) ∧
    (i.agent = .poll → { t with
      PREV_STATE := s.PREV_STATE, OUT := s.OUT, TRACE := s.TRACE
      REFUSED := s.REFUSED, refusedFor := s.refusedFor, sched := s.sched } = s) ∧
    (i.agent = .host → { t with
      CONTROL_TARGET := s.CONTROL_TARGET, CTRL_RUN := s.CTRL_RUN, CTRL_PHASE := s.CTRL_PHASE, TMR_RUN := s.TMR_RUN
      PHASE_LEAD := s.PHASE_LEAD, DUTY := s.DUTY, START_LEAD := s.START_LEAD, INTEG := s.INTEG
      LAST_ERR := s.LAST_ERR, LINE_BUF := s.LINE_BUF, CMD_STATE := s.CMD_STATE, HOST_PENDING := s.HOST_PENDING
      TRACE := s.TRACE, REFUSED := s.REFUSED, refusedFor := s.refusedFor, sched := s.sched } = s) ∧
    (i.agent = .boot → i ≠ .reset → { t with
      OUT := s.OUT, TRACE := s.TRACE, ROTOR_OFFSET := s.ROTOR_OFFSET, MODE := s.MODE, sched := s.sched } = s)

/-- Proportional only (R117): with KI = KD = +0.0 and a finite integral and difference, the new duty is the clamp of
DUTY + KP e; with one of them not finite it is +0.0. The error e is that of the reading the window leaves in
TMR_ELAPSED. -/
def Obligations.ProportionalOnlyUpdate : Prop :=
  ∀ (m : BitVec 32) (s t : State), s.cfg.wf = true → inUnitInterval s.DUTY = true →
    s.cfg.KI = .posZero → s.cfg.KD = .posZero →
    enabled (.ctrlDone m) s = true → exec (.ctrlDone m) s = .next t →
    let e := fsub t.TMR_ELAPSED s.CONTROL_TARGET
    (isFinite (fadd s.INTEG e) = true → isFinite (fsub e s.LAST_ERR) = true →
      t.DUTY = clampDuty (fadd s.DUTY (fmul s.cfg.KP e)) s.DIR_FLAG s.START_LEAD) ∧
    (isFinite (fadd s.INTEG e) = false ∨ isFinite (fsub e s.LAST_ERR) = false → t.DUTY = .posZero)

/-- The sign of the loop (R118), with KP > 0, KI = KD = +0.0 and a matching direction: a motor slower than commanded
never has its duty lowered, a faster one never has it raised. Rounding and the clamp can leave the duty as it is, so
the order is not strict. The reading is what the window leaves in TMR_ELAPSED. -/
def Obligations.SlowMotorNeverLowersTheDuty : Prop :=
  ∀ (m : BitVec 32) (s t : State), s.cfg.wf = true → inUnitInterval s.DUTY = true →
    fgt s.cfg.KP .posZero = true → s.cfg.KI = .posZero → s.cfg.KD = .posZero →
    s.START_LEAD = some s.DIR_FLAG → enabled (.ctrlDone m) s = true → exec (.ctrlDone m) s = .next t →
    isFinite (fadd s.INTEG (fsub t.TMR_ELAPSED s.CONTROL_TARGET)) = true →
    isFinite (fsub (fsub t.TMR_ELAPSED s.CONTROL_TARGET) s.LAST_ERR) = true →
    (fgt t.TMR_ELAPSED s.CONTROL_TARGET = true → fge t.DUTY s.DUTY = true) ∧
    (flt t.TMR_ELAPSED s.CONTROL_TARGET = true → fge s.DUTY t.DUTY = true)

/-- The sequence of duties is the accumulator formula, clamped and zeroed on a mismatch, over every run of windows in
which all agents step as they like except for a RESET, a start and a zeroing of the duty; each window has the target and
the direction of its close (R121). A start begins such a run with I_0 = e_0 = +0.0 at the duty it finds. -/
def Obligations.DutySequenceIsTheAccumulator : Prop :=
  (∀ (s t : State) (ws : List Window), PidRun s ws t →
    pidRegs t = ws.foldl (accumulate s.cfg s.START_LEAD) (pidRegs s)) ∧
  (∀ (i : Instr) (l : Lead) (s t : State), performed i s = some (.start l) → enabled i s = true → l ≠ .stopped →
    s.CTRL_RUN = .stopped → exec i s = .next t →
    pidRegs t = ⟨s.DUTY, .posZero, .posZero⟩ ∧ t.START_LEAD = some l)

/-! ### The command port and the host -/

/-- CP_WRITE_TARGET, CP_STOP and CP_ZERO_DUTY (R123, R124, R126): in RUN with an empty queue each writes its registers,
in every state of the controller and for every operand; otherwise it holds. -/
def Obligations.CommandPortOperationsWriteTheirRegisters : Prop :=
  ∀ (s : State) (x : BitVec 32),
    (s.MODE = .run → s.HOST_PENDING = [] →
      exec (.cpWriteTarget x) s = .next { s with CONTROL_TARGET := .word x, sched := s.sched.drop 5 } ∧
      exec .cpStop s = .next { s with
        CTRL_RUN := .stopped, CTRL_PHASE := .top, TMR_RUN := false, sched := s.sched.drop 1 } ∧
      exec .cpZeroDuty s = .next { s with DUTY := .posZero, sched := s.sched.drop 1 }) ∧
    (s.MODE ≠ .run ∨ s.HOST_PENDING ≠ [] →
      exec (.cpWriteTarget x) s = .next s ∧ exec .cpStop s = .next s ∧ exec .cpZeroDuty s = .next s)

/-- CP_WRITE_LEAD and CP_START (R125, R127), for every operand byte: the three and the two that are leads take effect;
every other byte is refused with BadLead, and a start of a running controller with Running; where they are not enabled
they hold.
That the enabling is tested before the operand is the model's choice (entry 4). -/
def Obligations.LeadOperationsWriteOrAreRefused : Prop :=
  ∀ (s : State) (L : Byte) (l : Lead),
    (s.MODE ≠ .run ∨ s.HOST_PENDING ≠ [] → exec (.cpWriteLead L) s = .next s ∧ exec (.cpStart L) s = .next s) ∧
    (s.MODE = .run → s.HOST_PENDING = [] →
      (L = 0x01#8 ∧ l = .forward ∨ L = 0x00#8 ∧ l = .stopped ∨ L = 0x06#8 ∧ l = .backward →
        exec (.cpWriteLead L) s = .next { s with PHASE_LEAD := l, sched := s.sched.drop 2 }) ∧
      (L ≠ 0x01#8 → L ≠ 0x00#8 → L ≠ 0x06#8 →
        exec (.cpWriteLead L) s =
          .next { s with REFUSED := true, refusedFor := some .badLead, sched := s.sched.drop 2 }) ∧
      (L = 0x01#8 ∧ l = .forward ∨ L = 0x06#8 ∧ l = .backward →
        (s.CTRL_RUN = .stopped → exec (.cpStart L) s = .next { s with
          CTRL_RUN := .running
          START_LEAD := some l
          CTRL_PHASE := .top
          INTEG := .posZero
          LAST_ERR := .posZero
          sched := s.sched.drop 2 }) ∧
        (s.CTRL_RUN = .running → exec (.cpStart L) s =
          .next { s with REFUSED := true, refusedFor := some .running, sched := s.sched.drop 2 })) ∧
      (L ≠ 0x01#8 → L ≠ 0x06#8 →
        exec (.cpStart L) s =
          .next { s with REFUSED := true, refusedFor := some .badLead, sched := s.sched.drop 2 }))

/-- SET_SPEED (R130): the sequence of operations of a speed by its sign; a NaN speed is refused. As a pseudo-operation it
is the step words of the same operations, with the target's bits in the first (R79).
In a listing, in RUN with an empty queue, a NaN speed is refused with BadSpeed: only the mark is set (R10, R160); any other
speed gives way to the words of its sequence. That SET_SPEED is an entry of the listing, and that it waits in another state,
as its first operation does, is the model's choice (entry 19). -/
def Obligations.SetSpeedIsTheFixedSequence : Prop :=
  (∀ (s : State) (speed : F32) (rest : List Entry), s.cfg.wf = true → s.sched = .setSpeed speed :: rest →
    (s.MODE ≠ .run ∨ s.HOST_PENDING ≠ [] → step s = .next s) ∧
    (s.MODE = .run → s.HOST_PENDING = [] →
      (isnan speed = true →
        step s = .next { s with REFUSED := true, refusedFor := some .badSpeed, sched := rest }) ∧
      ∀ b3 b2 b1 b0 : Byte, fabs (fdiv s.cfg.TAF speed) = .word (b3 ++ b2 ++ b1 ++ b0) →
        (fgt speed .posZero = true → step s = .next { s with
          sched := ([0x40, b3, b2, b1, b0, 0x41, 0x42, 0x01, 0x44, 0x01] : List Byte).map .byte ++ rest }) ∧
        (flt speed .posZero = true → step s = .next { s with
          sched := ([0x40, b3, b2, b1, b0, 0x41, 0x42, 0x06, 0x44, 0x06] : List Byte).map .byte ++ rest }) ∧
        (speed = .posZero ∨ speed = .negZero → step s = .next { s with
          sched := ([0x40, b3, b2, b1, b0, 0x41, 0x42, 0x00, 0x43] : List Byte).map .byte ++ rest }))) ∧
  ∀ taf speed : F32,
    (isnan speed = true → setSpeedOps taf speed = .error .badSpeed) ∧
    (fgt speed .posZero = true → setSpeedOps taf speed =
      .ok [.writeTarget (fabs (fdiv taf speed)), .stop, .writeLead .forward, .start .forward]) ∧
    (flt speed .posZero = true → setSpeedOps taf speed =
      .ok [.writeTarget (fabs (fdiv taf speed)), .stop, .writeLead .backward, .start .backward]) ∧
    (speed = .posZero ∨ speed = .negZero → setSpeedOps taf speed =
      .ok [.writeTarget (fabs (fdiv taf speed)), .stop, .writeLead .stopped, .zeroDuty]) ∧
    (isnan speed = true → setSpeedWords taf speed = .error .badSpeed) ∧
    ∀ w, fabs (fdiv taf speed) = .word w →
      (fgt speed .posZero = true →
        setSpeedWords taf speed = .ok [.cpWriteTarget w, .cpStop, .cpWriteLead 0x01, .cpStart 0x01]) ∧
      (flt speed .posZero = true →
        setSpeedWords taf speed = .ok [.cpWriteTarget w, .cpStop, .cpWriteLead 0x06, .cpStart 0x06]) ∧
      (speed = .posZero ∨ speed = .negZero →
        setSpeedWords taf speed = .ok [.cpWriteTarget w, .cpStop, .cpWriteLead 0x00, .cpZeroDuty])

/-- The target of a speed that is no NaN is no NaN and not negative; it is +inf for a zero speed and +0.0 for an
infinite one (R131). -/
def Obligations.TargetIsNeverNaNNorNegative : Prop :=
  ∀ (c : Config) (speed : F32), c.wf = true → isnan speed = false →
    isnan (targetOf c.TAF speed) = false ∧ (∃ w, targetOf c.TAF speed = .word w ∧ w.getLsbD 31 = false) ∧
    (speed = .posZero ∨ speed = .negZero → targetOf c.TAF speed = .posInf) ∧
    (isFinite speed = false → targetOf c.TAF speed = .posZero)

/-- The end state of a SET_SPEED sequence that the host performs without interleaving (R133); and how long the end state
of a zero-speed line lasts, under every interleaving: once the queue is empty, the controller is stopped and the duty
+0.0 until a line ends (R198 (6)).
A RESET and a direct CP_START are left out of those runs: their own rules say otherwise, and the model follows them
(entry 16). -/
def Obligations.SetSpeedEndState : Prop :=
  (∀ (s t : State), Inv s → s.HOST_PENDING ≠ [] →
    (s.CMD_STATE.speedTarget = .posZero ∨ s.CMD_STATE.speedTarget = .negZero) →
    RunOf keepsStop s t → t.HOST_PENDING = [] → t.CTRL_RUN = .stopped ∧ t.DUTY = .posZero) ∧
  ∀ (s : State) (speed : F32) (ops : List CpOp), s.MODE = .run → setSpeedOps s.cfg.TAF speed = .ok ops →
    s.HOST_PENDING = ops →
    (fgt speed .posZero = true → execAll [.hostIssue, .hostIssue, .hostIssue, .hostIssue] s = .next { s with
      CONTROL_TARGET := fabs (fdiv s.cfg.TAF speed), PHASE_LEAD := .forward
      CTRL_RUN := .running, START_LEAD := some .forward, CTRL_PHASE := .top, TMR_RUN := false
      INTEG := .posZero, LAST_ERR := .posZero, HOST_PENDING := [], sched := s.sched.drop 4 }) ∧
    (flt speed .posZero = true → execAll [.hostIssue, .hostIssue, .hostIssue, .hostIssue] s = .next { s with
      CONTROL_TARGET := fabs (fdiv s.cfg.TAF speed), PHASE_LEAD := .backward
      CTRL_RUN := .running, START_LEAD := some .backward, CTRL_PHASE := .top, TMR_RUN := false
      INTEG := .posZero, LAST_ERR := .posZero, HOST_PENDING := [], sched := s.sched.drop 4 }) ∧
    (speed = .posZero ∨ speed = .negZero → execAll [.hostIssue, .hostIssue, .hostIssue, .hostIssue] s = .next { s with
      CONTROL_TARGET := fabs (fdiv s.cfg.TAF speed), PHASE_LEAD := .stopped, DUTY := .posZero
      CTRL_RUN := .stopped, CTRL_PHASE := .top, TMR_RUN := false, HOST_PENDING := [], sched := s.sched.drop 4 })

/-- HOST_ISSUE (R136) removes the head of the queue and performs it, with the effect a direct step word has (R129); it
holds before RUN and with an empty queue.
That a refused operation stays at the head is the model's choice (entry 11). -/
def Obligations.HostIssuePerformsTheHead : Prop :=
  ∀ (s : State) (op : CpOp) (rest : List CpOp),
    (s.MODE ≠ .run ∨ s.HOST_PENDING = [] → exec .hostIssue s = .next s) ∧
    (s.MODE = .run → s.HOST_PENDING = op :: rest →
      (∀ x, op = .writeTarget x → exec .hostIssue s =
        .next { s with CONTROL_TARGET := x, HOST_PENDING := rest, sched := s.sched.drop 1 }) ∧
      (op = .stop → exec .hostIssue s = .next { s with
        CTRL_RUN := .stopped, CTRL_PHASE := .top, TMR_RUN := false, HOST_PENDING := rest, sched := s.sched.drop 1 }) ∧
      (∀ l, op = .writeLead l → exec .hostIssue s =
        .next { s with PHASE_LEAD := l, HOST_PENDING := rest, sched := s.sched.drop 1 }) ∧
      (op = .zeroDuty → exec .hostIssue s =
        .next { s with DUTY := .posZero, HOST_PENDING := rest, sched := s.sched.drop 1 }) ∧
      (∀ l, op = .start l → l ≠ .stopped → s.CTRL_RUN = .stopped → exec .hostIssue s = .next { s with
        CTRL_RUN := .running, START_LEAD := some l, CTRL_PHASE := .top, INTEG := .posZero, LAST_ERR := .posZero
        HOST_PENDING := rest, sched := s.sched.drop 1 }) ∧
      (∀ l, op = .start l → l ≠ .stopped → s.CTRL_RUN = .running → exec .hostIssue s =
        .next { s with REFUSED := true, refusedFor := some .running, sched := s.sched.drop 1 }) ∧
      (op = .start .stopped → exec .hostIssue s =
        .next { s with REFUSED := true, refusedFor := some .badLead, sched := s.sched.drop 1 }))

/-- HOST_RX (R134) in RUN with an empty queue: the byte is echoed; a byte other than CR is appended or, at a full buffer,
dropped; CR parses the line, empties the buffer and queues the SET_SPEED sequence of the speed as it then stands.
Otherwise it holds. -/
def Obligations.HostRxTakesOneByte : Prop :=
  ∀ (s : State) (b : Byte),
    (s.MODE ≠ .run ∨ s.HOST_PENDING ≠ [] → exec (.hostRx b) s = .next s) ∧
    (s.MODE = .run → s.HOST_PENDING = [] →
      (b ≠ 0x0D#8 → s.LINE_BUF.length < s.cfg.BUF_CAP → exec (.hostRx b) s = .next { s with
        LINE_BUF := s.LINE_BUF ++ [b], TRACE := s.TRACE ++ [.echo b], sched := s.sched.drop 2 }) ∧
      (b ≠ 0x0D#8 → s.cfg.BUF_CAP ≤ s.LINE_BUF.length → exec (.hostRx b) s = .next { s with
        TRACE := s.TRACE ++ [.echo b], sched := s.sched.drop 2 }) ∧
      (b = 0x0D#8 → isnan s.CMD_STATE.speedTarget = false →
        let cmd := (parseLine s.LINE_BUF).getD s.CMD_STATE
        ∃ ops, setSpeedOps s.cfg.TAF cmd.speedTarget = .ok ops ∧
          exec (.hostRx b) s = .next { s with
            TRACE := s.TRACE ++ [.echo b], CMD_STATE := cmd, LINE_BUF := [], HOST_PENDING := ops
            sched := s.sched.drop 2 }))

/-- The parse (R139, R141): V or v takes the whole rest as the speed; R or r takes what stands before the first
embedded V or v as the rotations and what stands after it as the speed, or all of it as the rotations; every other
line, and the empty one, is not recognised. -/
def Obligations.ParseRecognisesTheCommands : Prop :=
  parseLine [] = none ∧
  ∀ (c v : Byte) (before after : List Byte), (∀ b ∈ before, b ∉ [0x56, 0x76]) →
    (c ∈ [0x56, 0x76] → ∀ rest, parseLine (c :: rest) = some ⟨atof32 rest, .posZero, true, false⟩) ∧
    (c ∈ [0x52, 0x72] → v ∈ [0x56, 0x76] →
      parseLine (c :: (before ++ v :: after)) = some ⟨atof32 after, atof32 before, false, false⟩) ∧
    (c ∈ [0x52, 0x72] → parseLine (c :: before) = some ⟨.posZero, atof32 before, false, true⟩) ∧
    (c ∉ [0x56, 0x76, 0x52, 0x72] → ∀ rest, parseLine (c :: rest) = none)

/-- A line of any length (R144): every byte is echoed, the line parsed is its first BUF_CAP bytes, and nothing but the
trace, the command state, the buffer and the queue changes. An unrecognised line keeps the command state and repeats
its speed (R140). -/
def Obligations.LineIsTruncatedAndParsed : Prop :=
  ∀ (s : State) (text : List Byte), s.MODE = .run → s.HOST_PENDING = [] → s.LINE_BUF = [] →
    isnan s.CMD_STATE.speedTarget = false → 0x0D ∉ text →
    let cmd := (parseLine (text.take s.cfg.BUF_CAP)).getD s.CMD_STATE
    ∃ ops, setSpeedOps s.cfg.TAF cmd.speedTarget = .ok ops ∧
      execAll (lineWords (text ++ [0x0D])) s = .next { s with
        TRACE := s.TRACE ++ (text ++ [0x0D]).map Event.echo, CMD_STATE := cmd, HOST_PENDING := ops
        sched := s.sched.drop (2 * (text.length + 1)) }

/-- The literal cases of the source (R147): "V12.5", "R10", "R10V5", "R-3V-2" and the empty line. -/
def Obligations.LiteralCommandLines : Prop :=
  parseLine [0x56, 0x31, 0x32, 0x2E, 0x35] = some ⟨.word 0x41480000, .posZero, true, false⟩ ∧
  parseLine [0x52, 0x31, 0x30] = some ⟨.posZero, .word 0x41200000, false, true⟩ ∧
  parseLine [0x52, 0x31, 0x30, 0x56, 0x35] = some ⟨.word 0x40A00000, .word 0x41200000, false, false⟩ ∧
  parseLine [0x52, 0x2D, 0x33, 0x56, 0x2D, 0x32] = some ⟨.word 0xC0000000, .word 0xC0400000, false, false⟩ ∧
  parseLine [] = none

/-- The number of a field (R138, R142, R143): white space, a sign, the longest mantissa, with or without a point, and an
exponent only if it has digits; the bytes after it do not matter; a field without a mantissa is +0.0. The clauses take
every field: with a point and an exponent, with a point and none, with a point and an `e` without digits; the same three
without a point; and no mantissa, where what follows the sign is neither a digit nor a point and a digit. -/
def Obligations.NumberFieldsReadTheirLongestNumber : Prop :=
  ∀ (ws sign whole frac expo rest : List Byte) (esign : List Byte) (e : Byte),
    (∀ b ∈ ws, b ∈ [0x20, 0x09, 0x0A, 0x0B, 0x0C, 0x0D]) → sign ∈ [[], [0x2B], [0x2D]] →
    (∀ b ∈ whole, isDigit b = true) → (∀ b ∈ frac, isDigit b = true) →
    e ∈ [0x65, 0x45] → esign ∈ [[], [0x2B], [0x2D]] → (∀ b ∈ expo, isDigit b = true) → expo ≠ [] →
    (∀ b, rest.head? = some b → isDigit b = false) →
    let neg := decide (sign = [0x2D])
    let exponent : Int := if esign = [0x2D] then -(digitsValue expo : Int) else digitsValue expo
    (whole ++ frac ≠ [] →
      atof32 (ws ++ sign ++ whole ++ 0x2E :: frac ++ e :: esign ++ expo ++ rest) =
        ofSignMag neg (decimalMag (digitsValue (whole ++ frac)) (exponent - frac.length))) ∧
    (whole ++ frac ≠ [] → (∀ b, rest.head? = some b → b ∉ [0x65, 0x45]) →
      atof32 (ws ++ sign ++ whole ++ 0x2E :: frac ++ rest) =
        ofSignMag neg (decimalMag (digitsValue (whole ++ frac)) (-(frac.length : Int)))) ∧
    (whole ++ frac ≠ [] → (esign = [] → ∀ b, rest.head? = some b → b ∉ [0x2B, 0x2D]) →
      atof32 (ws ++ sign ++ whole ++ 0x2E :: frac ++ e :: esign ++ rest) =
        ofSignMag neg (decimalMag (digitsValue (whole ++ frac)) (-(frac.length : Int)))) ∧
    (whole ≠ [] →
      atof32 (ws ++ sign ++ whole ++ e :: esign ++ expo ++ rest) =
        ofSignMag neg (decimalMag (digitsValue whole) exponent)) ∧
    (whole ≠ [] → (∀ b, rest.head? = some b → b ∉ [0x65, 0x45, 0x2E]) →
      atof32 (ws ++ sign ++ whole ++ rest) = ofSignMag neg (decimalMag (digitsValue whole) 0)) ∧
    (whole ≠ [] → (esign = [] → ∀ b, rest.head? = some b → b ∉ [0x2B, 0x2D]) →
      atof32 (ws ++ sign ++ whole ++ e :: esign ++ rest) = ofSignMag neg (decimalMag (digitsValue whole) 0)) ∧
    ((∀ tail, rest = 0x2E :: tail → ∀ b, tail.head? = some b → isDigit b = false) →
      (sign = [] → ∀ b, rest.head? = some b → b ∉ [0x20, 0x09, 0x0A, 0x0B, 0x0C, 0x0D, 0x2B, 0x2D]) →
      atof32 (ws ++ sign ++ rest) = .posZero)

/-- The conversion rounds the exact value of mantissa times ten to the exponent once (R142): no finite magnitude is
nearer, a tie goes to the even one, it is +inf exactly from the overflow threshold on, and it is never a NaN.
The threshold, halfway past the largest finite value, is that of IEEE 754 (entry 15): R142 says "+inf if it
overflows". -/
def Obligations.DecimalConversionRoundsOnce : Prop :=
  (∀ (m : Nat) (x : Int),
    let num := m * 10 ^ x.toNat * 2 ^ 149
    let den := 10 ^ (-x).toNat
    let r := decimalMag m x
    (r = infBits ↔ (2 ^ 25 - 1) * 2 ^ 252 * den ≤ num) ∧ r ≤ infBits ∧
    (r < infBits → ∀ w, w < infBits →
      (Nat.cast (magUnits r * den) - Nat.cast num : Int).natAbs ≤
        (Nat.cast (magUnits w * den) - Nat.cast num : Int).natAbs ∧
      ((Nat.cast (magUnits r * den) - Nat.cast num : Int).natAbs =
        (Nat.cast (magUnits w * den) - Nat.cast num : Int).natAbs → w ≠ r → r % 2 = 0))) ∧
  (∀ f : List Byte, isnan (atof32 f) = false)

/-! ### Reset and boot -/

/-- RESET (R177), in every state: every element takes its reset value; the inputs and the two records are kept. -/
def Obligations.ResetRestoresEveryElement : Prop :=
  ∀ s : State, exec .reset s = .next { s with
    ENC_ANGLE := 0, DIR_FLAG := .stopped, PHASE_LEAD := .stopped
    CONTROL_TARGET := .posZero, DUTY := s.cfg.DUTY_RESET
    OUT := #v[.posZero, .posZero, .posZero, .posZero, .posZero, .posZero]
    PREV_STATE := none
    CTRL_RUN := .stopped, CTRL_PHASE := .top
    TMR_RUN := false, TMR_ELAPSED := .posZero
    INTEG := .posZero, LAST_ERR := .posZero
    ROTOR_OFFSET := none, START_LEAD := none, WAIT_DIR := none, WAIT_GOAL := none
    LINE_BUF := [], HOST_PENDING := []
    CMD_STATE := ⟨.posZero, .posZero, false, false⟩
    MODE := .syncDrive
    sched := s.sched.drop 1 }

/-- The initial state is a state RESET leaves, with TRACE empty and REFUSED false (R179).
Its inputs, its parameters and its empty listing are the model's choices (entries 8, 7 and 1). -/
def Obligations.InitialStateIsWhatResetLeaves : Prop :=
  exec .reset State.reset = .next State.reset ∧ State.reset.TRACE = [] ∧ State.reset.REFUSED = false

/-- The boot sequence (R180, R182), from every state: what stands in the elements when RUN begins. -/
def Obligations.BootSequenceReachesRun : Prop :=
  ∀ s : State, ∃ t : State, execAll [.reset, .syncDrive, .syncSample] s = .next t ∧
    t.MODE = .run ∧ t.ROTOR_OFFSET = some (rotorRead s) ∧
    t.OUT = Vector.ofFn (fun i => if (s.cfg.DRIVE_TABLE[0]).getLsbD i then s.cfg.SYNC_DUTY else .posZero) ∧
    t.PREV_STATE = none ∧ t.CTRL_RUN = .stopped ∧ t.DUTY = s.cfg.DUTY_RESET ∧ t.PHASE_LEAD = .stopped ∧
    t.CONTROL_TARGET = .posZero ∧ t.HOST_PENDING = [] ∧ t.SENS = s.SENS ∧ t.QA = s.QA ∧ t.QB = s.QB ∧
    t.sched = s.sched.drop 3

/-- The phases of the agents change only as R154 lists, with the operations and the values it names, a command-port
operation being a direct word or the head HOST_ISSUE performs (R129); and the offset is written once per reset (R94,
R198 (4)). -/
def Obligations.PhasesChangeOnlyAsListed : Prop :=
  ∀ (i : Instr) (s t : State), exec i s = .next t →
    (t.MODE ≠ s.MODE → (i = .reset ∧ t.MODE = .syncDrive) ∨
      (i = .syncDrive ∧ s.MODE = .syncDrive ∧ t.MODE = .syncSettle) ∨
      (i = .syncSample ∧ s.MODE = .syncSettle ∧ t.MODE = .run)) ∧
    (t.ROTOR_OFFSET ≠ s.ROTOR_OFFSET → (i = .reset ∧ t.ROTOR_OFFSET = none) ∨
      (i = .syncSample ∧ s.MODE = .syncSettle ∧ t.ROTOR_OFFSET = some (rotorRead s))) ∧
    (t.CTRL_RUN ≠ s.CTRL_RUN → (i = .reset ∧ t.CTRL_RUN = .stopped ∧ t.CTRL_PHASE = .top) ∨
      (s.MODE = .run ∧ performed i s = some .stop ∧ t.CTRL_RUN = .stopped ∧ t.CTRL_PHASE = .top) ∨
      (s.MODE = .run ∧ (∃ l, l ≠ .stopped ∧ performed i s = some (.start l) ∧ t.START_LEAD = some l) ∧
        s.CTRL_RUN = .stopped ∧ t.CTRL_RUN = .running ∧ t.CTRL_PHASE = .top)) ∧
    (t.CTRL_PHASE ≠ s.CTRL_PHASE → (i = .reset ∧ t.CTRL_PHASE = .top) ∨
      (i = .ctrlTop ∧ s.CTRL_RUN = .running ∧ s.CTRL_PHASE = .top ∧ s.DIR_FLAG ≠ .stopped ∧ t.CTRL_PHASE = .wait) ∨
      ((∃ m, i = .ctrlDone m) ∧ s.CTRL_RUN = .running ∧ s.CTRL_PHASE = .wait ∧ t.CTRL_PHASE = .top) ∨
      (performed i s = some .stop ∧ t.CTRL_RUN = .stopped ∧ t.CTRL_PHASE = .top) ∨
      ((∃ l, performed i s = some (.start l)) ∧ s.CTRL_RUN = .stopped ∧ t.CTRL_RUN = .running ∧ t.CTRL_PHASE = .top)) ∧
    (t.HOST_PENDING ≠ s.HOST_PENDING → (i = .reset ∧ t.HOST_PENDING = []) ∨
      (i = .hostRx 0x0D ∧ s.HOST_PENDING = [] ∧
        setSpeedOps s.cfg.TAF t.CMD_STATE.speedTarget = .ok t.HOST_PENDING ∧ t.HOST_PENDING.length = 4) ∨
      (i = .hostIssue ∧ s.HOST_PENDING ≠ [] ∧ t.HOST_PENDING = s.HOST_PENDING.tail))

/-! ### The whole machine -/

/-- A refused step sets the mark and changes nothing else of the spec's state, and no step clears the mark (R46,
R160). -/
def Obligations.RefusedMarkIsSticky : Prop :=
  ∀ s t : State, step s = .next t →
    (s.REFUSED = true → t.REFUSED = true) ∧
    (s.REFUSED = false → t.REFUSED = true →
      t = { s with REFUSED := true, refusedFor := t.refusedFor, sched := t.sched })

/-- No step writes a parameter (R47). -/
def Obligations.ConfigurationIsNeverWritten : Prop :=
  ∀ s t : State, step s = .next t → t.cfg = s.cfg

/-- No behaviour depends on rotations, infRotate and maxSpeed, on the timer's two elements, on the refusal mark, or on
SETTLE_TIME, PWM_PERIOD and TIMER_RES (R148, R39, R46, R7): states that agree on the rest answer the same step with
states that agree on the rest. -/
def Obligations.UnreadFieldsDoNotMatter : Prop :=
  ∀ s s' t : State, readPart s = readPart s' → step s = .next t →
    ∃ t', step s' = .next t' ∧ readPart t' = readPart t

/-- Every step keeps the invariant, from every state that meets it (R198 (1), (2), R24, R29, R30, R33, R35, R36,
R39, R40, R41, R43). -/
def Obligations.EveryStepKeepsTheInvariant : Prop :=
  ∀ s t : State, Inv s → step s = .next t → Inv t

/-- The state after reset meets the invariant. -/
def Obligations.ResetMeetsTheInvariant : Prop := Inv State.reset

/-- The only fault is the read of an unwritten ROTOR_OFFSET (R24), and no operation is without an outcome; how the step
function stops where the listing gives no operation or the parameters break R8 (entries 6 and 7).
A CTRL_DONE whose operand breaks the draw of R111 is no stop: it closes the window with a free reading that meets the
draw, and with every other effect of R114 (entry 5, the model's choice). -/
def Obligations.EveryStopIsNamed : Prop :=
  (∀ (i : Instr) (s : State) (f : Fault), exec i s = .fault f ↔
    f = .rotorOffsetUnwritten ∧ i = .poll ∧ s.MODE = .run ∧ s.PREV_STATE ≠ some (rotorRead s) ∧
      s.ROTOR_OFFSET = none) ∧
  (∀ (i : Instr) (s : State) (r : Refusal), exec i s ≠ .refused r) ∧
  (∀ (s : State) (m : BitVec 32), enabled (.ctrlDone m) s = true →
    ¬ (isFinite (.word m) = true ∧ m.getLsbD 31 = false) →
    ∃ w : BitVec 32, isFinite (.word w) = true ∧ w.getLsbD 31 = false ∧
      let e := fsub (.word w) s.CONTROL_TARGET
      let integ := fadd s.INTEG e
      let v := fadd s.DUTY
        (fadd (fadd (fmul s.cfg.KP e) (fmul s.cfg.KI integ)) (fmul s.cfg.KD (fsub e s.LAST_ERR)))
      let top := if fgt v .one then .one else v
      exec (.ctrlDone m) s = .next { s with
        TMR_RUN := false
        TMR_ELAPSED := .word w
        INTEG := integ
        LAST_ERR := e
        DUTY := if fge top .posZero = true ∧ s.START_LEAD = some s.DIR_FLAG then top else .posZero
        CTRL_PHASE := .top
        freeCount := s.freeCount + 1
        sched := s.sched.drop 5 }) ∧
  (∀ s : State,
    (s.cfg.wf = false → step s = .refused .illFormedConfig) ∧
    (s.cfg.wf = true → s.sched = [] → step s = .refused .noStepWord) ∧
    (s.cfg.wf = true → ∀ i rest, stepBytes s.sched ++ rest = encode i → stepBytes s.sched ≠ [] → rest ≠ [] →
      step s = .refused .truncatedWord))

/-- Under the invariant no operation faults, so the block never does (R18, R155), and the host's own steps are never
refused (R136, R160), whether the mark is set already or not: taken, HOST_ISSUE removes the head of the queue and HOST_RX
emits its echo, which a refused step does not, and both leave the mark as it was. -/
def Obligations.TheBlockNeverFaults : Prop :=
  ∀ (i : Instr) (s : State), Inv s →
    (∀ f, exec i s ≠ .fault f) ∧
    (∀ t b, i = .hostRx b → enabled i s = true → exec i s = .next t →
      t.TRACE = s.TRACE ++ [.echo b] ∧ t.REFUSED = s.REFUSED ∧ t.refusedFor = s.refusedFor) ∧
    (∀ t op rest, i = .hostIssue → s.HOST_PENDING = op :: rest → exec i s = .next t →
      t.HOST_PENDING = rest ∧ t.REFUSED = s.REFUSED ∧ t.refusedFor = s.refusedFor)

/-- `fadd` and `fsub` are correctly rounded, to nearest, ties to even, with subnormals kept (R12): no finite value is
nearer to the exact sum or difference, and a tie goes to the even last bit. The result is finite exactly below the
overflow threshold, halfway past the largest finite value, which the model takes from IEEE 754 (entry 15). -/
def Obligations.SumsAreCorrectlyRounded : Prop :=
  ∀ a b c : F32, isFinite a = true → isFinite b = true → isFinite c = true →
    (isFinite (fadd a b) = true ↔ (unitsOf a + unitsOf b).natAbs < (2 ^ 25 - 1) * 2 ^ 252) ∧
    (isFinite (fsub a b) = true ↔ (unitsOf a - unitsOf b).natAbs < (2 ^ 25 - 1) * 2 ^ 252) ∧
    (∀ w, fadd a b = .word w → isFinite (fadd a b) = true →
      (unitsOf (.word w) - (unitsOf a + unitsOf b)).natAbs ≤ (unitsOf c - (unitsOf a + unitsOf b)).natAbs ∧
      ((unitsOf (.word w) - (unitsOf a + unitsOf b)).natAbs = (unitsOf c - (unitsOf a + unitsOf b)).natAbs →
        unitsOf c ≠ unitsOf (.word w) → w.getLsbD 0 = false)) ∧
    (∀ w, fsub a b = .word w → isFinite (fsub a b) = true →
      (unitsOf (.word w) - (unitsOf a - unitsOf b)).natAbs ≤ (unitsOf c - (unitsOf a - unitsOf b)).natAbs ∧
      ((unitsOf (.word w) - (unitsOf a - unitsOf b)).natAbs = (unitsOf c - (unitsOf a - unitsOf b)).natAbs →
        unitsOf c ≠ unitsOf (.word w) → w.getLsbD 0 = false))

/-- `fmul` and `fdiv` are correctly rounded, to nearest, ties to even, with subnormals kept (R12). A value counts
units of 2^-149, so the product of two values is the product of their counts over 2^149. The overflow threshold is that
of IEEE 754 (entry 15). -/
def Obligations.ProductsAndQuotientsAreCorrectlyRounded : Prop :=
  ∀ a b c : F32, isFinite a = true → isFinite b = true → isFinite c = true →
    (isFinite (fmul a b) = true ↔ (unitsOf a * unitsOf b).natAbs < (2 ^ 25 - 1) * 2 ^ 252 * 2 ^ 149) ∧
    (unitsOf b ≠ 0 → (isFinite (fdiv a b) = true ↔
      (unitsOf a).natAbs * 2 ^ 149 < (2 ^ 25 - 1) * 2 ^ 252 * (unitsOf b).natAbs)) ∧
    (∀ w, fmul a b = .word w → isFinite (fmul a b) = true →
      (unitsOf (.word w) * 2 ^ 149 - unitsOf a * unitsOf b).natAbs ≤
        (unitsOf c * 2 ^ 149 - unitsOf a * unitsOf b).natAbs ∧
      ((unitsOf (.word w) * 2 ^ 149 - unitsOf a * unitsOf b).natAbs =
        (unitsOf c * 2 ^ 149 - unitsOf a * unitsOf b).natAbs →
        unitsOf c ≠ unitsOf (.word w) → w.getLsbD 0 = false)) ∧
    (∀ w, unitsOf b ≠ 0 → fdiv a b = .word w → isFinite (fdiv a b) = true →
      (unitsOf (.word w) * unitsOf b - unitsOf a * 2 ^ 149).natAbs ≤
        (unitsOf c * unitsOf b - unitsOf a * 2 ^ 149).natAbs ∧
      ((unitsOf (.word w) * unitsOf b - unitsOf a * 2 ^ 149).natAbs =
        (unitsOf c * unitsOf b - unitsOf a * 2 ^ 149).natAbs →
        unitsOf c ≠ unitsOf (.word w) → w.getLsbD 0 = false))

/-- The comparisons are the order of the values, false if an operand is a NaN, and -0.0 equals +0.0 (R12). -/
def Obligations.ComparisonsAreTheOrderOfValues : Prop :=
  ∀ a b : F32,
    (isnan a = true ∨ isnan b = true → flt a b = false ∧ fgt a b = false ∧ fge a b = false) ∧
    (isFinite a = true → isFinite b = true →
      flt a b = decide (unitsOf a < unitsOf b) ∧ fgt a b = decide (unitsOf b < unitsOf a) ∧
      fge a b = decide (unitsOf b ≤ unitsOf a)) ∧
    (isFinite a = true → flt a .posInf = true ∧ fgt a (.word 0xFF800000) = true)

/-- Liveness of the host (R194, R197): in a run without RESET that starts in RUN and is weakly fair to HOST_ISSUE, the
queue is empty again and again, whatever the other agents do. -/
def Obligations.QueueDrainsUnderWeakFairness : Prop :=
  ∀ r : Run, Inv (r.state 0) → (r.state 0).MODE = .run → (∀ n, r.word n ≠ .reset) → r.weaklyFair .hostIssue →
    ∀ n, ∃ m, n ≤ m ∧ (r.state m).HOST_PENDING = []

/-- Quiescence, under the invariant, in RUN: every enabled step of those that R197 asks fairness of is a stutter exactly
when the reading is the cached one, the queue is empty, the controller has no reached goal, and at TOP it idles.
That quiescence counts these steps only is the model's choice (entry 17): R199 says "every enabled step of a
non-environment agent", which taken literally counts RESET and the direct CP_* words too. -/
def Obligations.QuiescenceIsCharacterised : Prop :=
  ∀ s : State, Inv s → s.MODE = .run →
    (Quiescent s ↔
      s.PREV_STATE = some (rotorRead s) ∧ s.HOST_PENDING = [] ∧
      (s.CTRL_RUN = .running → s.CTRL_PHASE = .top → s.DIR_FLAG = .stopped) ∧
      (s.CTRL_RUN = .running → s.CTRL_PHASE = .wait → goalReached s = false))

end
end

