-- ==== Sys2Proof/Laws/Float.lean ====
section
/-! SUPPORT. What the binary32 operations do: the magnitudes and their order, one rounding to nearest even, and the
results of the operations by the class of their operands. -/

namespace Sys2Proof.Machine

/-! ### Magnitudes -/

/-- A significand of up to 24 bits (25 on a carry) with its exponent, as bits and as units. -/
theorem magUnits_scaled (k q : Nat) (hk : k = 0 ∨ 2 ^ 23 ≤ q) (hq : q ≤ 2 ^ 24) :
    magUnits (k * 2 ^ 23 + q) = q * 2 ^ k := by
  unfold magUnits
  dsimp only
  rcases Nat.lt_or_ge q (2 ^ 23) with h | h
  · obtain rfl : k = 0 := by omega
    have h1 : (0 * 2 ^ 23 + q) / 2 ^ 23 = 0 := by omega
    have h2 : (0 * 2 ^ 23 + q) % 2 ^ 23 = q := by omega
    rw [if_pos h1, h2, Nat.pow_zero, Nat.mul_one]
  · rcases Nat.lt_or_ge q (2 ^ 24) with h' | h'
    · have h1 : (k * 2 ^ 23 + q) / 2 ^ 23 = k + 1 := by omega
      have h2 : (k * 2 ^ 23 + q) % 2 ^ 23 = q - 2 ^ 23 := by omega
      have h3 : 2 ^ 23 + (q - 2 ^ 23) = q := by omega
      simp only [h1, h2, h3]
      simp
    · obtain rfl : q = 2 ^ 24 := by omega
      have h1 : (k * 2 ^ 23 + 2 ^ 24) / 2 ^ 23 = k + 2 := by omega
      have h2 : (k * 2 ^ 23 + 2 ^ 24) % 2 ^ 23 = 0 := by omega
      simp only [h1, h2]
      rw [if_neg (by omega), show k + 2 - 1 = k + 1 from by omega, Nat.pow_succ]
      omega

/-- Every magnitude is a significand with an exponent: below 2^24 the exponent is 0 and the bits are the units. -/
theorem magUnits_cases (m : Nat) :
    (m < 2 ^ 24 ∧ magUnits m = m) ∨
    (∃ k q, 0 < k ∧ 2 ^ 23 ≤ q ∧ q < 2 ^ 24 ∧ m = k * 2 ^ 23 + q ∧ magUnits m = q * 2 ^ k) := by
  rcases Nat.lt_or_ge m (2 ^ 24) with h | h
  · left
    have := magUnits_scaled 0 m (.inl rfl) (by omega)
    exact ⟨h, by simpa using this⟩
  · right
    refine ⟨m / 2 ^ 23 - 1, 2 ^ 23 + m % 2 ^ 23, by omega, by omega, by omega, by omega, ?_⟩
    rw [← magUnits_scaled (m / 2 ^ 23 - 1) (2 ^ 23 + m % 2 ^ 23) (.inr (by omega)) (by omega)]
    congr 1
    omega

/-- One exponent up doubles what it scales: units of a larger exponent are larger. -/
theorem scaled_lt_of_exp_lt {k j q p : Nat} (h : k < j) (hq : q ≤ 2 ^ 24) (hp : 2 ^ 23 ≤ p) :
    q * 2 ^ k ≤ p * 2 ^ j := by
  calc q * 2 ^ k ≤ 2 ^ 24 * 2 ^ k := Nat.mul_le_mul_right _ hq
    _ = 2 ^ 23 * 2 ^ (k + 1) := by rw [Nat.pow_succ]; omega
    _ ≤ 2 ^ 23 * 2 ^ j := Nat.mul_le_mul_left _ (Nat.pow_le_pow_right (by omega) h)
    _ ≤ p * 2 ^ j := Nat.mul_le_mul_right _ hp

theorem two_le_two_pow {k : Nat} (h : 0 < k) : 2 ≤ 2 ^ k := by
  have := Nat.pow_le_pow_right (n := 2) (by omega) (show 1 ≤ k from h)
  rwa [Nat.pow_one] at this

/-- Larger bits are larger units: the order of magnitudes is the order of their bits. -/
theorem magUnits_strictMono : StrictMono magUnits := by
  apply strictMono_nat_of_lt_succ
  intro m
  rcases magUnits_cases m with ⟨h, e⟩ | ⟨k, q, hk, h1, h2, e, e'⟩
  · rcases magUnits_cases (m + 1) with ⟨h', e'⟩ | ⟨k, q, hk, h1, h2, e1, e1'⟩
    · omega
    · rw [e, e1']
      have : 2 ^ 23 * 2 ≤ q * 2 ^ k := Nat.mul_le_mul h1 (two_le_two_pow hk)
      omega
  · rw [e', e, Nat.add_assoc,
      magUnits_scaled k (q + 1) (.inr (by omega)) (by omega)]
    exact Nat.mul_lt_mul_of_pos_right (by omega) (Nat.two_pow_pos k)

theorem magUnits_zero : magUnits 0 = 0 := by decide +kernel

theorem magUnits_eq_zero {m : Nat} : magUnits m = 0 ↔ m = 0 := by
  constructor
  · intro h
    by_contra hm
    have := magUnits_strictMono (Nat.pos_of_ne_zero hm)
    omega
  · rintro rfl; exact magUnits_zero

/-! ### Rounding -/

/-- The rounded quotient is the quotient or one more. -/
theorem divNearestEven_cases (num den : Nat) :
    divNearestEven num den = num / den ∨ divNearestEven num den = num / den + 1 := by
  unfold divNearestEven
  dsimp only
  split <;> simp

/-- No multiple of `den` is nearer to `num` than the rounded quotient, and where another is as near, the rounded
quotient is even. -/
theorem divNearestEven_nearest (num den j : Nat) (hd : 0 < den) :
    ((divNearestEven num den * den : Nat) - num : Int).natAbs ≤ ((j * den : Nat) - num : Int).natAbs ∧
    (((divNearestEven num den * den : Nat) - num : Int).natAbs = ((j * den : Nat) - num : Int).natAbs →
      j ≠ divNearestEven num den → divNearestEven num den % 2 = 0) := by
  have h := Nat.div_add_mod num den
  have hr := Nat.mod_lt num hd
  rw [Nat.mul_comm] at h
  unfold divNearestEven
  generalize hq : num / den = q at *
  generalize hrr : num % den = r at *
  have key : j * den ≤ q * den ∧ (j ≠ q → j * den + den ≤ q * den) ∨
      q * den + den ≤ j * den ∧ (j ≠ q + 1 → q * den + 2 * den ≤ j * den) := by
    rcases Nat.lt_or_ge q j with hj | hj
    · right
      constructor
      · have := Nat.mul_le_mul_right den hj
        rw [Nat.succ_mul] at this; exact this
      · intro hne
        have := Nat.mul_le_mul_right den (show q + 2 ≤ j by omega)
        rw [Nat.add_mul] at this; exact this
    · left
      constructor
      · exact Nat.mul_le_mul_right den hj
      · intro hne
        have := Nat.mul_le_mul_right den (show j + 1 ≤ q by omega)
        rw [Nat.succ_mul] at this; exact this
  dsimp only
  generalize hJ : j * den = J at *
  generalize hQ : q * den = Q at *
  have hQ1 : (q + 1) * den = Q + den := by rw [Nat.succ_mul, hQ]
  split
  · rw [hQ1]
    refine ⟨by omega, fun e hne => ?_⟩
    by_cases hjq : j = q
    · subst hjq; omega
    · omega
  · rw [hQ]
    refine ⟨by omega, fun e hne => ?_⟩
    by_cases hjq : j = q + 1
    · subst hjq; omega
    · omega

/-- A larger number rounds to no less, for one denominator. -/
theorem divNearestEven_mono {a b : Nat} (den : Nat) (h : a ≤ b) :
    divNearestEven a den ≤ divNearestEven b den := by
  rcases Nat.eq_zero_or_pos den with rfl | hd
  · unfold divNearestEven
    dsimp only
    simp only [Nat.div_zero, Nat.mod_zero]
    split <;> split <;> omega
  have ha := Nat.div_add_mod a den
  have hb := Nat.div_add_mod b den
  have hra := Nat.mod_lt a hd
  have hrb := Nat.mod_lt b hd
  have hq : a / den ≤ b / den := Nat.div_le_div_right h
  rcases Nat.lt_or_ge (a / den) (b / den) with hlt | hge
  · rcases divNearestEven_cases a den with e | e <;> rcases divNearestEven_cases b den with e' | e' <;> omega
  · have he : a / den = b / den := by omega
    unfold divNearestEven
    dsimp only
    rw [he] at ha ⊢
    split <;> split <;> omega

/-- The exponent `roundMag` takes: below 24 bits it is 0, else the quotient has exactly 24 bits. -/
theorem roundExp_spec (num den : Nat) :
    let k := Nat.log2 (num / den) - 23
    num / (den * 2 ^ k) < 2 ^ 24 ∧ (k = 0 ∨ 2 ^ 23 ≤ num / (den * 2 ^ k)) := by
  intro k
  rcases Nat.eq_zero_or_pos (num / den) with h0 | h0
  · have : k = 0 := by simp [k, h0]
    rw [this, Nat.pow_zero, Nat.mul_one, h0]
    exact ⟨by omega, .inl rfl⟩
  rw [← Nat.div_div_eq_div_mul]
  have hne : num / den ≠ 0 := by omega
  have hlt : num / den < 2 ^ (Nat.log2 (num / den) + 1) := (Nat.log2_lt hne).mp (Nat.lt_succ_self _)
  have hle : 2 ^ Nat.log2 (num / den) ≤ num / den := (Nat.le_log2 hne).mp (Nat.le_refl _)
  rcases Nat.lt_or_ge (Nat.log2 (num / den)) 24 with h | h
  · have hk : k = 0 := by simp only [k]; omega
    rw [hk, Nat.pow_zero, Nat.div_one]
    refine ⟨?_, .inl rfl⟩
    calc num / den < 2 ^ (Nat.log2 (num / den) + 1) := hlt
      _ ≤ 2 ^ 24 := Nat.pow_le_pow_right (by omega) (by omega)
  · have hk : Nat.log2 (num / den) = 23 + k := by simp only [k]; omega
    rw [hk] at hlt hle
    constructor
    · rw [Nat.div_lt_iff_lt_mul (Nat.two_pow_pos k), ← Nat.pow_add]
      rwa [show 24 + k = 23 + k + 1 from by omega]
    · right
      rw [Nat.le_div_iff_mul_le (Nat.two_pow_pos k), ← Nat.pow_add]
      exact hle

/-- The rounded significand and its exponent: `roundMag` in the form the other lemmas use. -/
theorem roundMag_form (num den : Nat) (hd : 0 < den) :
    ∃ k q, q ≤ 2 ^ 24 ∧ (k = 0 ∨ 2 ^ 23 ≤ q) ∧ q = divNearestEven num (den * 2 ^ k) ∧
      (k = 0 ∨ 2 ^ 23 * (den * 2 ^ k) ≤ num) ∧ num < 2 ^ 24 * (den * 2 ^ k) ∧
      roundMag num den = min (k * 2 ^ 23 + q) infBits := by
  obtain ⟨h1, h2⟩ := roundExp_spec num den
  have hpos : 0 < den * 2 ^ (Nat.log2 (num / den) - 23) := Nat.mul_pos hd (Nat.two_pow_pos _)
  refine ⟨Nat.log2 (num / den) - 23, _, ?_, ?_, rfl, ?_, ?_, rfl⟩
  · rcases divNearestEven_cases num (den * 2 ^ (Nat.log2 (num / den) - 23)) with e | e <;> omega
  · rcases divNearestEven_cases num (den * 2 ^ (Nat.log2 (num / den) - 23)) with e | e <;> omega
  · exact h2.imp id fun h => (Nat.le_div_iff_mul_le hpos).mp h
  · exact (Nat.div_lt_iff_lt_mul hpos).mp h1

/-- ROUND TO NEAREST, TIES TO EVEN: no finite magnitude is nearer to `num / den` than the one `roundMag` gives, and
where another is as near, the one it gives has an even last bit. -/
theorem roundMag_nearest (num den w : Nat) (hd : 0 < den) (hfin : roundMag num den < infBits) :
    ((magUnits (roundMag num den) * den : Nat) - num : Int).natAbs ≤ ((magUnits w * den : Nat) - num : Int).natAbs ∧
    (((magUnits (roundMag num den) * den : Nat) - num : Int).natAbs = ((magUnits w * den : Nat) - num : Int).natAbs →
      w ≠ roundMag num den → roundMag num den % 2 = 0) := by
  obtain ⟨k, q, hq, hk, hqe, hlow, -, hr⟩ := roundMag_form num den hd
  have hr' : roundMag num den = k * 2 ^ 23 + q := by omega
  rw [hr', magUnits_scaled k q hk hq]
  have hD : 0 < den * 2 ^ k := Nat.mul_pos hd (Nat.two_pow_pos k)
  have scale : ∀ j, j * 2 ^ k * den = j * (den * 2 ^ k) := fun j => by
    rw [Nat.mul_assoc, Nat.mul_comm (2 ^ k)]
  -- a magnitude is either a multiple of 2^k units or below 2^23 of them
  have hw : (∃ j, magUnits w = j * 2 ^ k ∧ (j = q → w = k * 2 ^ 23 + q)) ∨
      (0 < k ∧ magUnits w < 2 ^ 23 * 2 ^ k) := by
    rcases magUnits_cases w with ⟨hw, e⟩ | ⟨k', q', hk', h1, h2, e, e'⟩
    · rcases Nat.eq_zero_or_pos k with rfl | hk0
      · exact .inl ⟨w, by simp [e], by omega⟩
      · rcases Nat.lt_or_ge (magUnits w) (2 ^ 23 * 2 ^ k) with h | h
        · exact .inr ⟨hk0, h⟩
        · exfalso
          have : 2 ^ 23 * 2 ≤ 2 ^ 23 * 2 ^ k := Nat.mul_le_mul_left _ (two_le_two_pow hk0)
          omega
    · rcases Nat.lt_or_ge k' k with h | h
      · refine .inr ⟨by omega, ?_⟩
        rw [e']
        calc q' * 2 ^ k' < 2 ^ 24 * 2 ^ k' := Nat.mul_lt_mul_of_pos_right h2 (Nat.two_pow_pos _)
          _ = 2 ^ 23 * 2 ^ (k' + 1) := by rw [Nat.pow_succ]; omega
          _ ≤ 2 ^ 23 * 2 ^ k := Nat.mul_le_mul_left _ (Nat.pow_le_pow_right (by omega) h)
      · refine .inl ⟨q' * 2 ^ (k' - k), ?_, ?_⟩
        · rw [e', Nat.mul_assoc, ← Nat.pow_add, Nat.sub_add_cancel h]
        · intro hj
          have : magUnits w = magUnits (k * 2 ^ 23 + q) := by
            rw [magUnits_scaled k q hk hq, e', ← hj, Nat.mul_assoc, ← Nat.pow_add, Nat.sub_add_cancel h]
          exact magUnits_strictMono.injective this
  have even : (k * 2 ^ 23 + q) % 2 = q % 2 := by omega
  rcases hw with ⟨j, hj, hinj⟩ | ⟨hk0, hlt⟩
  · have := divNearestEven_nearest num (den * 2 ^ k) j hD
    rw [← hqe] at this
    rw [hj, scale, scale, even]
    exact ⟨this.1, fun e hne => this.2 e fun h => hne (hinj h)⟩
  · rcases hlow with h | hlow
    · omega
    have hlt' : magUnits w * den < 2 ^ 23 * (den * 2 ^ k) := by
      rw [← scale]; exact Nat.mul_lt_mul_of_pos_right hlt hd
    have := (divNearestEven_nearest num (den * 2 ^ k) (2 ^ 23) hD).1
    rw [scale, hqe]
    constructor
    · omega
    · omega

theorem overflow_below {X D num : Nat} (hX : D ≤ X) (h : num < 2 ^ 24 * D) : num < (2 ^ 25 - 1) * X := by omega

theorem overflow_above {X D num : Nat} (hX : 4 * X ≤ D) (h : 2 ^ 23 * D ≤ num) : (2 ^ 25 - 1) * X ≤ num := by omega

/-- At the largest exponent the significand carries exactly from halfway past the largest one on. -/
theorem overflow_at {X num : Nat} (hX : 0 < X) (h : num < 2 ^ 24 * (2 * X)) :
    divNearestEven num (2 * X) = 2 ^ 24 ↔ (2 ^ 25 - 1) * X ≤ num := by
  have hm := Nat.div_add_mod num (2 * X)
  have hml := Nat.mod_lt num (show 0 < 2 * X by omega)
  have hQ : num / (2 * X) < 2 ^ 24 := (Nat.div_lt_iff_lt_mul (by omega)).mpr h
  unfold divNearestEven
  dsimp only
  generalize num / (2 * X) = Q at *
  generalize num % (2 * X) = R at *
  have hsplit : Q = 2 ^ 24 - 1 ∨ Q ≤ 2 ^ 24 - 2 := by omega
  rcases hsplit with rfl | hQ'
  · split <;> omega
  · have : 2 * X * Q ≤ 2 * X * (2 ^ 24 - 2) := Nat.mul_le_mul_left _ hQ'
    split <;> omega

/-- Overflow: the rounded magnitude is infinity exactly from halfway past the largest finite value on. -/
theorem roundMag_overflow (num den : Nat) (hd : 0 < den) :
    roundMag num den = infBits ↔ (2 ^ 25 - 1) * 2 ^ 252 * den ≤ num := by
  obtain ⟨k, q, hq, hk, hqe, hlow, hhigh, hr⟩ := roundMag_form num den hd
  have hinf : infBits = 255 * 2 ^ 23 := by decide
  have hmin : roundMag num den = infBits ↔ 255 * 2 ^ 23 ≤ k * 2 ^ 23 + q := by omega
  have h3 : (2 ^ 25 - 1) * 2 ^ 252 * den = (2 ^ 25 - 1) * (den * 2 ^ 252) := by
    rw [Nat.mul_assoc]; congr 1; exact Nat.mul_comm _ _
  refine hmin.trans (Iff.trans ?_ (Iff.of_eq (congrArg (· ≤ num) h3.symm)))
  clear hmin hr
  have hpos : 0 < den * 2 ^ 252 := Nat.mul_pos hd (Nat.two_pow_pos _)
  rcases Nat.lt_trichotomy k 253 with h | h | h
  · have hpow : 2 ^ k ≤ 2 ^ 252 := Nat.pow_le_pow_right (by decide) (by clear h3; omega)
    have := overflow_below (Nat.mul_le_mul_left den hpow) hhigh
    clear h3 hpow
    constructor
    · intro h'; clear this; omega
    · intro h'; exact absurd h' (Nat.not_le.mpr this)
  · subst h
    have h4 : den * 2 ^ 253 = 2 * (den * 2 ^ 252) := by
      rw [Nat.pow_succ, ← Nat.mul_assoc, Nat.mul_comm _ 2]
    have hb : 255 * 2 ^ 23 ≤ 253 * 2 ^ 23 + q ↔ q = 2 ^ 24 := by
      clear h3 h4 hhigh hlow hqe; omega
    have := overflow_at hpos (h4 ▸ hhigh)
    exact hb.trans ((Iff.of_eq (congrArg (· = 2 ^ 24) (hqe.trans (congrArg _ h4)))).trans this)
  · constructor
    · intro _
      refine hlow.elim (fun h0 => by clear h3; omega) fun hlow => overflow_above ?_ hlow
      have hpow : 2 ^ 254 ≤ 2 ^ k := Nat.pow_le_pow_right (by decide) h
      refine Nat.le_trans (Nat.le_of_eq ?_) (Nat.mul_le_mul_left den hpow)
      exact (Nat.mul_left_comm 4 den _).trans (congrArg (den * ·) (by decide +kernel))
    · intro _
      clear h3
      rcases hk with h0 | hk
      · omega
      · clear hhigh hlow hqe; omega

/-- A larger number rounds to no less. -/
theorem roundMag_mono {a b : Nat} (den : Nat) (h : a ≤ b) : roundMag a den ≤ roundMag b den := by
  have hlog : Nat.log2 (a / den) - 23 ≤ Nat.log2 (b / den) - 23 := by
    have h1 : a / den ≤ b / den := Nat.div_le_div_right h
    have h2 : Nat.log2 (a / den) ≤ Nat.log2 (b / den) := by
      rcases Nat.eq_zero_or_pos (a / den) with h0 | h0
      · rw [h0]; exact Nat.zero_le _
      · exact (Nat.le_log2 (by omega)).mpr (Nat.le_trans ((Nat.le_log2 (by omega)).mp (Nat.le_refl _)) h1)
    omega
  obtain ⟨ha1, ha2⟩ := roundExp_spec a den
  obtain ⟨hb1, hb2⟩ := roundExp_spec b den
  unfold roundMag
  dsimp only
  generalize Nat.log2 (a / den) - 23 = k at *
  generalize Nat.log2 (b / den) - 23 = l at *
  rcases Nat.lt_or_ge k l with hkl | hkl
  · have hA : divNearestEven a (den * 2 ^ k) ≤ 2 ^ 24 := by
      rcases divNearestEven_cases a (den * 2 ^ k) with e | e <;> rw [e] <;> omega
    have hB : 2 ^ 23 ≤ divNearestEven b (den * 2 ^ l) := by
      rcases divNearestEven_cases b (den * 2 ^ l) with e | e <;> rw [e] <;> omega
    generalize divNearestEven a (den * 2 ^ k) = A at *
    generalize divNearestEven b (den * 2 ^ l) = B at *
    exact min_le_min_right _ (by omega)
  · obtain rfl : k = l := by omega
    exact min_le_min_right _ (Nat.add_le_add_left (divNearestEven_mono (den * 2 ^ k) h) _)

/-- A finite magnitude rounds to itself. -/
theorem roundMag_exact {m : Nat} (h : m < infBits) : roundMag (magUnits m) 1 = m := by
  have hfin : roundMag (magUnits m) 1 < infBits := by
    have hle : roundMag (magUnits m) 1 ≤ infBits := by
      unfold roundMag; dsimp only; omega
    rcases Nat.lt_or_ge (roundMag (magUnits m) 1) infBits with h' | h'
    · exact h'
    · exfalso
      have h1 := (roundMag_overflow (magUnits m) 1 (by omega)).mp (Nat.le_antisymm hle h')
      have hm : magUnits m ≤ magUnits (infBits - 1) := magUnits_strictMono.monotone (by omega)
      have hv : magUnits (infBits - 1) < (2 ^ 25 - 1) * 2 ^ 252 * 1 := by decide +kernel
      exact absurd (Nat.le_trans h1 hm) (Nat.not_le.mpr hv)
  have := (roundMag_nearest (magUnits m) 1 m (by omega) hfin).1
  simp only [Nat.mul_one, sub_self, Int.natAbs_zero, Nat.le_zero, Int.natAbs_eq_zero] at this
  exact magUnits_strictMono.injective (by omega)

theorem roundMag_le_inf (num den : Nat) : roundMag num den ≤ infBits := by
  unfold roundMag; exact Nat.min_le_right _ _

theorem roundMag_zero (den : Nat) : roundMag 0 den = 0 := by
  rw [show roundMag 0 den = min ((Nat.log2 (0 / den) - 23) * 2 ^ 23 +
    divNearestEven 0 (den * 2 ^ (Nat.log2 (0 / den) - 23))) infBits from rfl]
  simp [divNearestEven, Nat.log2_zero]

/-- A whole number of units, at least one, does not round to zero. -/
theorem roundMag_pos {n : Nat} (h : 0 < n) : 0 < roundMag n 1 := by
  have h1 : roundMag 1 1 = 1 := by decide +kernel
  have := roundMag_mono 1 (show 1 ≤ n by omega)
  omega

/-- A number below half a unit rounds to zero. -/
theorem roundMag_eq_zero {num den : Nat} (h : 2 * num < den) : roundMag num den = 0 := by
  have h0 : num / den = 0 := Nat.div_eq_of_lt (by omega)
  unfold roundMag
  dsimp only
  rw [h0, Nat.log2_zero, Nat.pow_zero, Nat.mul_one]
  unfold divNearestEven
  dsimp only
  rw [h0, Nat.mod_eq_of_lt (show num < den by omega), if_neg (by omega)]
  exact Nat.min_eq_left (Nat.zero_le _)

/-! ### Values -/

theorem magBits_eq (w : BitVec 32) : magBits w = w.toNat % 2 ^ 31 :=
  Nat.and_two_pow_sub_one_eq_mod w.toNat 31

theorem magBits_ofSignMag {m : Nat} (s : Bool) (h : m < 2 ^ 31) :
    magBits (BitVec.ofNat 32 (if s then 2 ^ 31 + m else m)) = m := by
  rw [magBits_eq]
  rw [BitVec.toNat_ofNat]
  cases s <;> simp only [if_true, Bool.false_eq_true, if_false] <;> omega

theorem signBit_eq (w : BitVec 32) : signBit w = decide (2 ^ 31 ≤ w.toNat) := by
  unfold signBit
  rw [BitVec.getLsbD, Nat.testBit_eq_decide_div_mod_eq]
  have := w.isLt
  congr 1
  apply propext
  omega

theorem signBit_ofSignMag {m : Nat} (s : Bool) (h : m < 2 ^ 31) :
    signBit (BitVec.ofNat 32 (if s then 2 ^ 31 + m else m)) = s := by
  rw [signBit_eq, BitVec.toNat_ofNat]
  cases s <;> simp only [if_true, Bool.false_eq_true, if_false, decide_eq_true_eq, decide_eq_false_iff_not] <;> omega

/-- The bits 30:0 and the sign are the whole word. -/
theorem word_toNat (w : BitVec 32) : w.toNat = (if signBit w then 2 ^ 31 else 0) + magBits w := by
  rw [signBit_eq]
  rw [magBits_eq]
  have := w.isLt
  by_cases h : 2 ^ 31 ≤ w.toNat
  · simp only [h, decide_true, if_true]; omega
  · simp only [h, decide_false, Bool.false_eq_true, if_false]; omega

theorem magBits_lt (w : BitVec 32) : magBits w < 2 ^ 31 := by
  rw [magBits_eq]; exact Nat.mod_lt _ (Nat.two_pow_pos 31)

theorem infBits_lt : infBits < 2 ^ 31 := by decide +kernel

/-- A finite value, by its sign and its bits 30:0. -/
@[simp] theorem classify_ofSignMag_fin {m : Nat} (s : Bool) (h : m < infBits) :
    classify (ofSignMag s m) = .fin s (magUnits m) := by
  have hm : m < 2 ^ 31 := Nat.lt_trans h infBits_lt
  unfold ofSignMag classify
  simp only [magBits_ofSignMag s hm, signBit_ofSignMag s hm]
  rw [if_neg (by omega), if_neg (by omega)]

@[simp] theorem classify_infOf (s : Bool) : classify (infOf s) = .inf s := by
  unfold infOf ofSignMag classify
  simp only [magBits_ofSignMag s infBits_lt, signBit_ofSignMag s infBits_lt]
  rw [if_neg (by omega), if_pos trivial]

/-- Bits 30:0 past those of infinity are a NaN. -/
theorem classify_ofSignMag_nan {m : Nat} (s : Bool) (h : infBits < m) (hm : m < 2 ^ 31) :
    classify (ofSignMag s m) = .nan := by
  unfold ofSignMag classify
  simp only [magBits_ofSignMag s hm]
  rw [if_pos h]

/-- The bits 30:0 of a free NaN lie past those of infinity and in 31 bits. -/
theorem freeNaN_range (op : FloatOp) (a b : F32) :
    infBits < infBits + 1 + (Config.freeNaN op a b).2.val ∧ infBits + 1 + (Config.freeNaN op a b).2.val < 2 ^ 31 := by
  have h := (Config.freeNaN op a b).2.isLt
  have hi : infBits = 0x7F800000 := rfl
  omega

/-- Whatever its free bits are, the NaN of an operation is a NaN (entry 10). -/
@[simp] theorem classify_nanOf (op : FloatOp) (a b : F32) : classify (nanOf op a b) = .nan :=
  classify_ofSignMag_nan _ (freeNaN_range op a b).1 (freeNaN_range op a b).2

@[simp] theorem isnan_nanOf (op : FloatOp) (a b : F32) : isnan (nanOf op a b) = true := by simp [isnan]


/-- A word's class, as its sign and bits 30:0 give it. -/
theorem classify_word (w : BitVec 32) :
    classify (.word w) = if infBits < magBits w then .nan
      else if magBits w = infBits then .inf (signBit w) else .fin (signBit w) (magUnits (magBits w)) := rfl

theorem classify_word_fin {w : BitVec 32} {s : Bool} {u : Nat} (h : classify (.word w) = .fin s u) :
    magBits w < infBits ∧ s = signBit w ∧ u = magUnits (magBits w) := by
  rw [classify_word] at h
  split at h
  · cases h
  · split at h
    · cases h
    · cases h
      exact ⟨by omega, rfl, rfl⟩

/-- A value is a NaN exactly when its class is. -/
theorem isnan_eq (a : F32) : isnan a = decide (classify a = .nan) := by
  unfold isnan
  cases classify a <;> simp

/-- A sum with a NaN is a NaN. -/
theorem isnan_fadd {a b : F32} (h : isnan a = true ∨ isnan b = true) : isnan (fadd a b) = true := by
  simp only [isnan_eq, decide_eq_true_eq] at h
  unfold fadd sumOr
  rcases h with h | h <;> rw [h]
  · simp
  · cases classify a <;> simp

/-- A product with a NaN is a NaN. -/
theorem isnan_fmul {a b : F32} (h : isnan a = true ∨ isnan b = true) : isnan (fmul a b) = true := by
  simp only [isnan_eq, decide_eq_true_eq] at h
  unfold fmul
  rcases h with h | h <;> rw [h]
  · simp
  · cases classify a <;> simp

/-- Zero times an infinity is a NaN. -/
theorem isnan_fmul_zero_inf {a b : F32} {s t : Bool} (ha : classify a = .fin s 0) (hb : classify b = .inf t) :
    isnan (fmul a b) = true := by
  unfold fmul
  rw [ha, hb]
  simp

/-- No sign and bits up to those of infinity make a NaN. -/
theorem isnan_ofSignMag {m : Nat} (s : Bool) (h : m ≤ infBits) : isnan (ofSignMag s m) = false := by
  rcases Nat.lt_or_ge m infBits with h' | h'
  · simp [isnan, h']
  · obtain rfl : m = infBits := by omega
    have : ofSignMag s infBits = infOf s := rfl
    simp [isnan, this]

/-- A value in [0,1] is finite, not negative, and its bits say so. -/
theorem inUnitInterval_word {a : F32} (h : inUnitInterval a = true) :
    ∃ w, a = .word w ∧ w.toNat ≤ 0x3F800000 ∧ signBit w = false ∧ magBits w = w.toNat := by
  have h' : a.bits.toNat ≤ 0x3F800000 := by simpa [inUnitInterval] using h
  refine ⟨a.bits, rfl, h', ?_, ?_⟩
  · rw [signBit_eq]; simp; omega
  · rw [magBits_eq]; omega

theorem classify_of_inUnitInterval {a : F32} (h : inUnitInterval a = true) :
    ∃ m, m ≤ 0x3F800000 ∧ classify a = .fin false (magUnits m) ∧ a = ofSignMag false m := by
  obtain ⟨w, rfl, hw, hs, hm⟩ := inUnitInterval_word h
  refine ⟨w.toNat, hw, ?_, ?_⟩
  · have : infBits = 0x7F800000 := rfl
    rw [classify_word, hm, hs, if_neg (by omega), if_neg (by omega)]
  · simp [ofSignMag]

/-! ### Sums -/

/-- A sum of a value in [0,1] with anything is never -0.0: an exact zero sum is +0.0, and a sum that is not zero is at
least one unit (90_conflicts.md C9). -/
theorem fadd_ne_negZero {d u : F32} (h : inUnitInterval d = true) : fadd d u ≠ .negZero := by
  obtain ⟨m, hm, hc, -⟩ := classify_of_inUnitInterval h
  have key : ∀ (s : Bool) (k : Nat), k < 2 ^ 31 → (s = false ∨ 0 < k) → ofSignMag s k ≠ .negZero := by
    intro s k hk hsk e
    have e' : BitVec.ofNat 32 (if s then 2 ^ 31 + k else k) = 0x80000000#32 := by
      simpa [ofSignMag, F32.negZero] using e
    have h1 := congrArg signBit e'
    have h2 := congrArg magBits e'
    rw [signBit_ofSignMag s hk] at h1
    rw [magBits_ofSignMag s hk] at h2
    have h3 : magBits 0x80000000#32 = 0 := by decide +kernel
    have h4 : signBit 0x80000000#32 = true := by decide +kernel
    rw [h3] at h2
    rw [h4] at h1
    rcases hsk with h5 | h5
    · rw [h1] at h5; cases h5
    · omega
  unfold fadd sumOr
  rw [hc]
  cases hcu : classify u with
  | nan => exact key _ _ (freeNaN_range .add d u).2 (.inr (Nat.zero_lt_of_lt (freeNaN_range .add d u).1))
  | inf t => exact key t infBits infBits_lt (.inr (by decide +kernel))
  | fin t n =>
    dsimp only
    unfold addFinite
    dsimp only
    split
    · exact key _ 0 (by decide) (.inl (by simp))
    · rename_i hz
      have hle := roundMag_le_inf (signedUnits false (magUnits m) + signedUnits t n).natAbs 1
      exact key _ _ (Nat.lt_of_le_of_lt hle infBits_lt) (.inr (roundMag_pos (by omega)))

/-! ### Decimal conversion -/

/-- Ten to the 39 overflows, whatever whole number it multiplies. -/
theorem exactDecimalMag_overflow {m : Nat} {x : Int} (hm : 0 < m) (hx : 39 ≤ x) : exactDecimalMag m x = infBits := by
  unfold exactDecimalMag
  rw [if_pos (by omega), roundMag_overflow _ 1 (by omega)]
  have h1 : 10 ^ 39 ≤ 10 ^ x.toNat := Nat.pow_le_pow_right (by decide) (by omega)
  have h2 : 10 ^ 39 ≤ m * 10 ^ x.toNat := Nat.le_trans h1 (Nat.le_mul_of_pos_left _ hm)
  exact Nat.le_trans (by decide +kernel) (Nat.mul_le_mul_right (2 ^ 149) h2)

/-- A decimal far enough below the smallest subnormal rounds to zero. -/
theorem exactDecimalMag_underflow {m : Nat} {x : Int} (hx : Nat.log2 m + 151 ≤ 3 * (-x).toNat) :
    exactDecimalMag m x = 0 := by
  unfold exactDecimalMag
  rw [if_neg (by omega)]
  generalize (-x).toNat = k at *
  apply roundMag_eq_zero
  have h1 : m < 2 ^ (Nat.log2 m + 1) := by
    rcases Nat.eq_zero_or_pos m with rfl | h
    · exact Nat.two_pow_pos _
    · exact (Nat.log2_lt (by omega)).mp (Nat.lt_succ_self _)
  calc 2 * (m * 2 ^ 149) = m * 2 ^ 150 := by
        rw [Nat.mul_left_comm]; exact congrArg (m * ·) (by decide +kernel)
    _ < 2 ^ (Nat.log2 m + 1) * 2 ^ 150 := Nat.mul_lt_mul_of_pos_right h1 (Nat.two_pow_pos 150)
    _ = 2 ^ (Nat.log2 m + 151) := (Nat.pow_add 2 _ _).symm
    _ ≤ 2 ^ (3 * k) := Nat.pow_le_pow_right (by decide) hx
    _ = 8 ^ k := Nat.pow_mul 2 3 k
    _ ≤ 10 ^ k := Nat.pow_le_pow_left (by decide) k

/-- The conversion the machine runs is the exact conversion, rounded once. -/
theorem decimalMag_eq (m : Nat) (x : Int) : decimalMag m x = exactDecimalMag m x := by
  unfold decimalMag
  split
  · rename_i h
    subst h
    unfold exactDecimalMag
    split <;> simp only [Nat.zero_mul, roundMag_zero]
  · split
    · exact (exactDecimalMag_overflow (by omega) (by assumption)).symm
    · split
      · exact (exactDecimalMag_underflow (by assumption)).symm
      · rfl

theorem decimalMag_le_inf (m : Nat) (x : Int) : decimalMag m x ≤ infBits := by
  rw [decimalMag_eq]
  unfold exactDecimalMag
  split <;> exact roundMag_le_inf _ _

end Sys2Proof.Machine
end

