-- ==== Sys2Proof/Laws/State.lean ====
section
/-! SUPPORT. One lemma per field for each update of the state, so that no later proof unfolds a record update; then the
fields after a drive pattern, an edge and the other composed effects. -/

namespace Sys2Proof.Machine

/-! ### retire -/

@[simp] theorem retire_SENS (n : Nat) (s : State) : (s.retire n).SENS = s.SENS := rfl
@[simp] theorem retire_QA (n : Nat) (s : State) : (s.retire n).QA = s.QA := rfl
@[simp] theorem retire_QB (n : Nat) (s : State) : (s.retire n).QB = s.QB := rfl
@[simp] theorem retire_ROTOR_OFFSET (n : Nat) (s : State) : (s.retire n).ROTOR_OFFSET = s.ROTOR_OFFSET := rfl
@[simp] theorem retire_PHASE_LEAD (n : Nat) (s : State) : (s.retire n).PHASE_LEAD = s.PHASE_LEAD := rfl
@[simp] theorem retire_ENC_ANGLE (n : Nat) (s : State) : (s.retire n).ENC_ANGLE = s.ENC_ANGLE := rfl
@[simp] theorem retire_DIR_FLAG (n : Nat) (s : State) : (s.retire n).DIR_FLAG = s.DIR_FLAG := rfl
@[simp] theorem retire_CONTROL_TARGET (n : Nat) (s : State) : (s.retire n).CONTROL_TARGET = s.CONTROL_TARGET := rfl
@[simp] theorem retire_DUTY (n : Nat) (s : State) : (s.retire n).DUTY = s.DUTY := rfl
@[simp] theorem retire_OUT (n : Nat) (s : State) : (s.retire n).OUT = s.OUT := rfl
@[simp] theorem retire_PREV_STATE (n : Nat) (s : State) : (s.retire n).PREV_STATE = s.PREV_STATE := rfl
@[simp] theorem retire_CTRL_RUN (n : Nat) (s : State) : (s.retire n).CTRL_RUN = s.CTRL_RUN := rfl
@[simp] theorem retire_START_LEAD (n : Nat) (s : State) : (s.retire n).START_LEAD = s.START_LEAD := rfl
@[simp] theorem retire_CTRL_PHASE (n : Nat) (s : State) : (s.retire n).CTRL_PHASE = s.CTRL_PHASE := rfl
@[simp] theorem retire_WAIT_DIR (n : Nat) (s : State) : (s.retire n).WAIT_DIR = s.WAIT_DIR := rfl
@[simp] theorem retire_WAIT_GOAL (n : Nat) (s : State) : (s.retire n).WAIT_GOAL = s.WAIT_GOAL := rfl
@[simp] theorem retire_INTEG (n : Nat) (s : State) : (s.retire n).INTEG = s.INTEG := rfl
@[simp] theorem retire_LAST_ERR (n : Nat) (s : State) : (s.retire n).LAST_ERR = s.LAST_ERR := rfl
@[simp] theorem retire_TMR_RUN (n : Nat) (s : State) : (s.retire n).TMR_RUN = s.TMR_RUN := rfl
@[simp] theorem retire_TMR_ELAPSED (n : Nat) (s : State) : (s.retire n).TMR_ELAPSED = s.TMR_ELAPSED := rfl
@[simp] theorem retire_MODE (n : Nat) (s : State) : (s.retire n).MODE = s.MODE := rfl
@[simp] theorem retire_LINE_BUF (n : Nat) (s : State) : (s.retire n).LINE_BUF = s.LINE_BUF := rfl
@[simp] theorem retire_CMD_STATE (n : Nat) (s : State) : (s.retire n).CMD_STATE = s.CMD_STATE := rfl
@[simp] theorem retire_HOST_PENDING (n : Nat) (s : State) : (s.retire n).HOST_PENDING = s.HOST_PENDING := rfl
@[simp] theorem retire_TRACE (n : Nat) (s : State) : (s.retire n).TRACE = s.TRACE := rfl
@[simp] theorem retire_REFUSED (n : Nat) (s : State) : (s.retire n).REFUSED = s.REFUSED := rfl
@[simp] theorem retire_refusedFor (n : Nat) (s : State) : (s.retire n).refusedFor = s.refusedFor := rfl
@[simp] theorem retire_freeCount (n : Nat) (s : State) : (s.retire n).freeCount = s.freeCount := rfl
@[simp] theorem retire_cfg (n : Nat) (s : State) : (s.retire n).cfg = s.cfg := rfl
@[simp] theorem retire_sched (n : Nat) (s : State) : (s.retire n).sched = s.sched.drop n := rfl

/-! ### refuse -/

@[simp] theorem refuse_SENS (r : RefuseReason) (s : State) : (refuse r s).SENS = s.SENS := rfl
@[simp] theorem refuse_QA (r : RefuseReason) (s : State) : (refuse r s).QA = s.QA := rfl
@[simp] theorem refuse_QB (r : RefuseReason) (s : State) : (refuse r s).QB = s.QB := rfl
@[simp] theorem refuse_ROTOR_OFFSET (r : RefuseReason) (s : State) : (refuse r s).ROTOR_OFFSET = s.ROTOR_OFFSET := rfl
@[simp] theorem refuse_PHASE_LEAD (r : RefuseReason) (s : State) : (refuse r s).PHASE_LEAD = s.PHASE_LEAD := rfl
@[simp] theorem refuse_ENC_ANGLE (r : RefuseReason) (s : State) : (refuse r s).ENC_ANGLE = s.ENC_ANGLE := rfl
@[simp] theorem refuse_DIR_FLAG (r : RefuseReason) (s : State) : (refuse r s).DIR_FLAG = s.DIR_FLAG := rfl
@[simp] theorem refuse_CONTROL_TARGET (r : RefuseReason) (s : State) : (refuse r s).CONTROL_TARGET = s.CONTROL_TARGET := rfl
@[simp] theorem refuse_DUTY (r : RefuseReason) (s : State) : (refuse r s).DUTY = s.DUTY := rfl
@[simp] theorem refuse_OUT (r : RefuseReason) (s : State) : (refuse r s).OUT = s.OUT := rfl
@[simp] theorem refuse_PREV_STATE (r : RefuseReason) (s : State) : (refuse r s).PREV_STATE = s.PREV_STATE := rfl
@[simp] theorem refuse_CTRL_RUN (r : RefuseReason) (s : State) : (refuse r s).CTRL_RUN = s.CTRL_RUN := rfl
@[simp] theorem refuse_START_LEAD (r : RefuseReason) (s : State) : (refuse r s).START_LEAD = s.START_LEAD := rfl
@[simp] theorem refuse_CTRL_PHASE (r : RefuseReason) (s : State) : (refuse r s).CTRL_PHASE = s.CTRL_PHASE := rfl
@[simp] theorem refuse_WAIT_DIR (r : RefuseReason) (s : State) : (refuse r s).WAIT_DIR = s.WAIT_DIR := rfl
@[simp] theorem refuse_WAIT_GOAL (r : RefuseReason) (s : State) : (refuse r s).WAIT_GOAL = s.WAIT_GOAL := rfl
@[simp] theorem refuse_INTEG (r : RefuseReason) (s : State) : (refuse r s).INTEG = s.INTEG := rfl
@[simp] theorem refuse_LAST_ERR (r : RefuseReason) (s : State) : (refuse r s).LAST_ERR = s.LAST_ERR := rfl
@[simp] theorem refuse_TMR_RUN (r : RefuseReason) (s : State) : (refuse r s).TMR_RUN = s.TMR_RUN := rfl
@[simp] theorem refuse_TMR_ELAPSED (r : RefuseReason) (s : State) : (refuse r s).TMR_ELAPSED = s.TMR_ELAPSED := rfl
@[simp] theorem refuse_MODE (r : RefuseReason) (s : State) : (refuse r s).MODE = s.MODE := rfl
@[simp] theorem refuse_LINE_BUF (r : RefuseReason) (s : State) : (refuse r s).LINE_BUF = s.LINE_BUF := rfl
@[simp] theorem refuse_CMD_STATE (r : RefuseReason) (s : State) : (refuse r s).CMD_STATE = s.CMD_STATE := rfl
@[simp] theorem refuse_HOST_PENDING (r : RefuseReason) (s : State) : (refuse r s).HOST_PENDING = s.HOST_PENDING := rfl
@[simp] theorem refuse_TRACE (r : RefuseReason) (s : State) : (refuse r s).TRACE = s.TRACE := rfl
@[simp] theorem refuse_REFUSED (r : RefuseReason) (s : State) : (refuse r s).REFUSED = true := rfl
@[simp] theorem refuse_refusedFor (r : RefuseReason) (s : State) : (refuse r s).refusedFor = some r := rfl
@[simp] theorem refuse_freeCount (r : RefuseReason) (s : State) : (refuse r s).freeCount = s.freeCount := rfl
@[simp] theorem refuse_cfg (r : RefuseReason) (s : State) : (refuse r s).cfg = s.cfg := rfl
@[simp] theorem refuse_sched (r : RefuseReason) (s : State) : (refuse r s).sched = s.sched := rfl

/-! ### emit -/

@[simp] theorem emit_SENS (e : Event) (s : State) : (emit e s).SENS = s.SENS := rfl
@[simp] theorem emit_QA (e : Event) (s : State) : (emit e s).QA = s.QA := rfl
@[simp] theorem emit_QB (e : Event) (s : State) : (emit e s).QB = s.QB := rfl
@[simp] theorem emit_ROTOR_OFFSET (e : Event) (s : State) : (emit e s).ROTOR_OFFSET = s.ROTOR_OFFSET := rfl
@[simp] theorem emit_PHASE_LEAD (e : Event) (s : State) : (emit e s).PHASE_LEAD = s.PHASE_LEAD := rfl
@[simp] theorem emit_ENC_ANGLE (e : Event) (s : State) : (emit e s).ENC_ANGLE = s.ENC_ANGLE := rfl
@[simp] theorem emit_DIR_FLAG (e : Event) (s : State) : (emit e s).DIR_FLAG = s.DIR_FLAG := rfl
@[simp] theorem emit_CONTROL_TARGET (e : Event) (s : State) : (emit e s).CONTROL_TARGET = s.CONTROL_TARGET := rfl
@[simp] theorem emit_DUTY (e : Event) (s : State) : (emit e s).DUTY = s.DUTY := rfl
@[simp] theorem emit_OUT (e : Event) (s : State) : (emit e s).OUT = s.OUT := rfl
@[simp] theorem emit_PREV_STATE (e : Event) (s : State) : (emit e s).PREV_STATE = s.PREV_STATE := rfl
@[simp] theorem emit_CTRL_RUN (e : Event) (s : State) : (emit e s).CTRL_RUN = s.CTRL_RUN := rfl
@[simp] theorem emit_START_LEAD (e : Event) (s : State) : (emit e s).START_LEAD = s.START_LEAD := rfl
@[simp] theorem emit_CTRL_PHASE (e : Event) (s : State) : (emit e s).CTRL_PHASE = s.CTRL_PHASE := rfl
@[simp] theorem emit_WAIT_DIR (e : Event) (s : State) : (emit e s).WAIT_DIR = s.WAIT_DIR := rfl
@[simp] theorem emit_WAIT_GOAL (e : Event) (s : State) : (emit e s).WAIT_GOAL = s.WAIT_GOAL := rfl
@[simp] theorem emit_INTEG (e : Event) (s : State) : (emit e s).INTEG = s.INTEG := rfl
@[simp] theorem emit_LAST_ERR (e : Event) (s : State) : (emit e s).LAST_ERR = s.LAST_ERR := rfl
@[simp] theorem emit_TMR_RUN (e : Event) (s : State) : (emit e s).TMR_RUN = s.TMR_RUN := rfl
@[simp] theorem emit_TMR_ELAPSED (e : Event) (s : State) : (emit e s).TMR_ELAPSED = s.TMR_ELAPSED := rfl
@[simp] theorem emit_MODE (e : Event) (s : State) : (emit e s).MODE = s.MODE := rfl
@[simp] theorem emit_LINE_BUF (e : Event) (s : State) : (emit e s).LINE_BUF = s.LINE_BUF := rfl
@[simp] theorem emit_CMD_STATE (e : Event) (s : State) : (emit e s).CMD_STATE = s.CMD_STATE := rfl
@[simp] theorem emit_HOST_PENDING (e : Event) (s : State) : (emit e s).HOST_PENDING = s.HOST_PENDING := rfl
@[simp] theorem emit_TRACE (e : Event) (s : State) : (emit e s).TRACE = s.TRACE ++ [e] := rfl
@[simp] theorem emit_REFUSED (e : Event) (s : State) : (emit e s).REFUSED = s.REFUSED := rfl
@[simp] theorem emit_refusedFor (e : Event) (s : State) : (emit e s).refusedFor = s.refusedFor := rfl
@[simp] theorem emit_freeCount (e : Event) (s : State) : (emit e s).freeCount = s.freeCount := rfl
@[simp] theorem emit_cfg (e : Event) (s : State) : (emit e s).cfg = s.cfg := rfl
@[simp] theorem emit_sched (e : Event) (s : State) : (emit e s).sched = s.sched := rfl

/-! ### timerReset -/

@[simp] theorem timerReset_SENS (s : State) : (timerReset s).SENS = s.SENS := rfl
@[simp] theorem timerReset_QA (s : State) : (timerReset s).QA = s.QA := rfl
@[simp] theorem timerReset_QB (s : State) : (timerReset s).QB = s.QB := rfl
@[simp] theorem timerReset_ROTOR_OFFSET (s : State) : (timerReset s).ROTOR_OFFSET = s.ROTOR_OFFSET := rfl
@[simp] theorem timerReset_PHASE_LEAD (s : State) : (timerReset s).PHASE_LEAD = s.PHASE_LEAD := rfl
@[simp] theorem timerReset_ENC_ANGLE (s : State) : (timerReset s).ENC_ANGLE = s.ENC_ANGLE := rfl
@[simp] theorem timerReset_DIR_FLAG (s : State) : (timerReset s).DIR_FLAG = s.DIR_FLAG := rfl
@[simp] theorem timerReset_CONTROL_TARGET (s : State) : (timerReset s).CONTROL_TARGET = s.CONTROL_TARGET := rfl
@[simp] theorem timerReset_DUTY (s : State) : (timerReset s).DUTY = s.DUTY := rfl
@[simp] theorem timerReset_OUT (s : State) : (timerReset s).OUT = s.OUT := rfl
@[simp] theorem timerReset_PREV_STATE (s : State) : (timerReset s).PREV_STATE = s.PREV_STATE := rfl
@[simp] theorem timerReset_CTRL_RUN (s : State) : (timerReset s).CTRL_RUN = s.CTRL_RUN := rfl
@[simp] theorem timerReset_START_LEAD (s : State) : (timerReset s).START_LEAD = s.START_LEAD := rfl
@[simp] theorem timerReset_CTRL_PHASE (s : State) : (timerReset s).CTRL_PHASE = s.CTRL_PHASE := rfl
@[simp] theorem timerReset_WAIT_DIR (s : State) : (timerReset s).WAIT_DIR = s.WAIT_DIR := rfl
@[simp] theorem timerReset_WAIT_GOAL (s : State) : (timerReset s).WAIT_GOAL = s.WAIT_GOAL := rfl
@[simp] theorem timerReset_INTEG (s : State) : (timerReset s).INTEG = s.INTEG := rfl
@[simp] theorem timerReset_LAST_ERR (s : State) : (timerReset s).LAST_ERR = s.LAST_ERR := rfl
@[simp] theorem timerReset_TMR_RUN (s : State) : (timerReset s).TMR_RUN = s.TMR_RUN := rfl
@[simp] theorem timerReset_TMR_ELAPSED (s : State) : (timerReset s).TMR_ELAPSED = .posZero := rfl
@[simp] theorem timerReset_MODE (s : State) : (timerReset s).MODE = s.MODE := rfl
@[simp] theorem timerReset_LINE_BUF (s : State) : (timerReset s).LINE_BUF = s.LINE_BUF := rfl
@[simp] theorem timerReset_CMD_STATE (s : State) : (timerReset s).CMD_STATE = s.CMD_STATE := rfl
@[simp] theorem timerReset_HOST_PENDING (s : State) : (timerReset s).HOST_PENDING = s.HOST_PENDING := rfl
@[simp] theorem timerReset_TRACE (s : State) : (timerReset s).TRACE = s.TRACE := rfl
@[simp] theorem timerReset_REFUSED (s : State) : (timerReset s).REFUSED = s.REFUSED := rfl
@[simp] theorem timerReset_refusedFor (s : State) : (timerReset s).refusedFor = s.refusedFor := rfl
@[simp] theorem timerReset_freeCount (s : State) : (timerReset s).freeCount = s.freeCount := rfl
@[simp] theorem timerReset_cfg (s : State) : (timerReset s).cfg = s.cfg := rfl
@[simp] theorem timerReset_sched (s : State) : (timerReset s).sched = s.sched := rfl

/-! ### timerStart -/

@[simp] theorem timerStart_SENS (s : State) : (timerStart s).SENS = s.SENS := rfl
@[simp] theorem timerStart_QA (s : State) : (timerStart s).QA = s.QA := rfl
@[simp] theorem timerStart_QB (s : State) : (timerStart s).QB = s.QB := rfl
@[simp] theorem timerStart_ROTOR_OFFSET (s : State) : (timerStart s).ROTOR_OFFSET = s.ROTOR_OFFSET := rfl
@[simp] theorem timerStart_PHASE_LEAD (s : State) : (timerStart s).PHASE_LEAD = s.PHASE_LEAD := rfl
@[simp] theorem timerStart_ENC_ANGLE (s : State) : (timerStart s).ENC_ANGLE = s.ENC_ANGLE := rfl
@[simp] theorem timerStart_DIR_FLAG (s : State) : (timerStart s).DIR_FLAG = s.DIR_FLAG := rfl
@[simp] theorem timerStart_CONTROL_TARGET (s : State) : (timerStart s).CONTROL_TARGET = s.CONTROL_TARGET := rfl
@[simp] theorem timerStart_DUTY (s : State) : (timerStart s).DUTY = s.DUTY := rfl
@[simp] theorem timerStart_OUT (s : State) : (timerStart s).OUT = s.OUT := rfl
@[simp] theorem timerStart_PREV_STATE (s : State) : (timerStart s).PREV_STATE = s.PREV_STATE := rfl
@[simp] theorem timerStart_CTRL_RUN (s : State) : (timerStart s).CTRL_RUN = s.CTRL_RUN := rfl
@[simp] theorem timerStart_START_LEAD (s : State) : (timerStart s).START_LEAD = s.START_LEAD := rfl
@[simp] theorem timerStart_CTRL_PHASE (s : State) : (timerStart s).CTRL_PHASE = s.CTRL_PHASE := rfl
@[simp] theorem timerStart_WAIT_DIR (s : State) : (timerStart s).WAIT_DIR = s.WAIT_DIR := rfl
@[simp] theorem timerStart_WAIT_GOAL (s : State) : (timerStart s).WAIT_GOAL = s.WAIT_GOAL := rfl
@[simp] theorem timerStart_INTEG (s : State) : (timerStart s).INTEG = s.INTEG := rfl
@[simp] theorem timerStart_LAST_ERR (s : State) : (timerStart s).LAST_ERR = s.LAST_ERR := rfl
@[simp] theorem timerStart_TMR_RUN (s : State) : (timerStart s).TMR_RUN = true := rfl
@[simp] theorem timerStart_TMR_ELAPSED (s : State) : (timerStart s).TMR_ELAPSED = s.TMR_ELAPSED := rfl
@[simp] theorem timerStart_MODE (s : State) : (timerStart s).MODE = s.MODE := rfl
@[simp] theorem timerStart_LINE_BUF (s : State) : (timerStart s).LINE_BUF = s.LINE_BUF := rfl
@[simp] theorem timerStart_CMD_STATE (s : State) : (timerStart s).CMD_STATE = s.CMD_STATE := rfl
@[simp] theorem timerStart_HOST_PENDING (s : State) : (timerStart s).HOST_PENDING = s.HOST_PENDING := rfl
@[simp] theorem timerStart_TRACE (s : State) : (timerStart s).TRACE = s.TRACE := rfl
@[simp] theorem timerStart_REFUSED (s : State) : (timerStart s).REFUSED = s.REFUSED := rfl
@[simp] theorem timerStart_refusedFor (s : State) : (timerStart s).refusedFor = s.refusedFor := rfl
@[simp] theorem timerStart_freeCount (s : State) : (timerStart s).freeCount = s.freeCount := rfl
@[simp] theorem timerStart_cfg (s : State) : (timerStart s).cfg = s.cfg := rfl
@[simp] theorem timerStart_sched (s : State) : (timerStart s).sched = s.sched := rfl

/-! ### timerStop -/

@[simp] theorem timerStop_SENS (s : State) : (timerStop s).SENS = s.SENS := rfl
@[simp] theorem timerStop_QA (s : State) : (timerStop s).QA = s.QA := rfl
@[simp] theorem timerStop_QB (s : State) : (timerStop s).QB = s.QB := rfl
@[simp] theorem timerStop_ROTOR_OFFSET (s : State) : (timerStop s).ROTOR_OFFSET = s.ROTOR_OFFSET := rfl
@[simp] theorem timerStop_PHASE_LEAD (s : State) : (timerStop s).PHASE_LEAD = s.PHASE_LEAD := rfl
@[simp] theorem timerStop_ENC_ANGLE (s : State) : (timerStop s).ENC_ANGLE = s.ENC_ANGLE := rfl
@[simp] theorem timerStop_DIR_FLAG (s : State) : (timerStop s).DIR_FLAG = s.DIR_FLAG := rfl
@[simp] theorem timerStop_CONTROL_TARGET (s : State) : (timerStop s).CONTROL_TARGET = s.CONTROL_TARGET := rfl
@[simp] theorem timerStop_DUTY (s : State) : (timerStop s).DUTY = s.DUTY := rfl
@[simp] theorem timerStop_OUT (s : State) : (timerStop s).OUT = s.OUT := rfl
@[simp] theorem timerStop_PREV_STATE (s : State) : (timerStop s).PREV_STATE = s.PREV_STATE := rfl
@[simp] theorem timerStop_CTRL_RUN (s : State) : (timerStop s).CTRL_RUN = s.CTRL_RUN := rfl
@[simp] theorem timerStop_START_LEAD (s : State) : (timerStop s).START_LEAD = s.START_LEAD := rfl
@[simp] theorem timerStop_CTRL_PHASE (s : State) : (timerStop s).CTRL_PHASE = s.CTRL_PHASE := rfl
@[simp] theorem timerStop_WAIT_DIR (s : State) : (timerStop s).WAIT_DIR = s.WAIT_DIR := rfl
@[simp] theorem timerStop_WAIT_GOAL (s : State) : (timerStop s).WAIT_GOAL = s.WAIT_GOAL := rfl
@[simp] theorem timerStop_INTEG (s : State) : (timerStop s).INTEG = s.INTEG := rfl
@[simp] theorem timerStop_LAST_ERR (s : State) : (timerStop s).LAST_ERR = s.LAST_ERR := rfl
@[simp] theorem timerStop_TMR_RUN (s : State) : (timerStop s).TMR_RUN = false := rfl
@[simp] theorem timerStop_TMR_ELAPSED (s : State) : (timerStop s).TMR_ELAPSED = s.TMR_ELAPSED := rfl
@[simp] theorem timerStop_MODE (s : State) : (timerStop s).MODE = s.MODE := rfl
@[simp] theorem timerStop_LINE_BUF (s : State) : (timerStop s).LINE_BUF = s.LINE_BUF := rfl
@[simp] theorem timerStop_CMD_STATE (s : State) : (timerStop s).CMD_STATE = s.CMD_STATE := rfl
@[simp] theorem timerStop_HOST_PENDING (s : State) : (timerStop s).HOST_PENDING = s.HOST_PENDING := rfl
@[simp] theorem timerStop_TRACE (s : State) : (timerStop s).TRACE = s.TRACE := rfl
@[simp] theorem timerStop_REFUSED (s : State) : (timerStop s).REFUSED = s.REFUSED := rfl
@[simp] theorem timerStop_refusedFor (s : State) : (timerStop s).refusedFor = s.refusedFor := rfl
@[simp] theorem timerStop_freeCount (s : State) : (timerStop s).freeCount = s.freeCount := rfl
@[simp] theorem timerStop_cfg (s : State) : (timerStop s).cfg = s.cfg := rfl
@[simp] theorem timerStop_sched (s : State) : (timerStop s).sched = s.sched := rfl

/-! ### timerRead -/

@[simp] theorem timerRead_SENS (m : F32) (s : State) : (timerRead m s).SENS = s.SENS := rfl
@[simp] theorem timerRead_QA (m : F32) (s : State) : (timerRead m s).QA = s.QA := rfl
@[simp] theorem timerRead_QB (m : F32) (s : State) : (timerRead m s).QB = s.QB := rfl
@[simp] theorem timerRead_ROTOR_OFFSET (m : F32) (s : State) : (timerRead m s).ROTOR_OFFSET = s.ROTOR_OFFSET := rfl
@[simp] theorem timerRead_PHASE_LEAD (m : F32) (s : State) : (timerRead m s).PHASE_LEAD = s.PHASE_LEAD := rfl
@[simp] theorem timerRead_ENC_ANGLE (m : F32) (s : State) : (timerRead m s).ENC_ANGLE = s.ENC_ANGLE := rfl
@[simp] theorem timerRead_DIR_FLAG (m : F32) (s : State) : (timerRead m s).DIR_FLAG = s.DIR_FLAG := rfl
@[simp] theorem timerRead_CONTROL_TARGET (m : F32) (s : State) : (timerRead m s).CONTROL_TARGET = s.CONTROL_TARGET := rfl
@[simp] theorem timerRead_DUTY (m : F32) (s : State) : (timerRead m s).DUTY = s.DUTY := rfl
@[simp] theorem timerRead_OUT (m : F32) (s : State) : (timerRead m s).OUT = s.OUT := rfl
@[simp] theorem timerRead_PREV_STATE (m : F32) (s : State) : (timerRead m s).PREV_STATE = s.PREV_STATE := rfl
@[simp] theorem timerRead_CTRL_RUN (m : F32) (s : State) : (timerRead m s).CTRL_RUN = s.CTRL_RUN := rfl
@[simp] theorem timerRead_START_LEAD (m : F32) (s : State) : (timerRead m s).START_LEAD = s.START_LEAD := rfl
@[simp] theorem timerRead_CTRL_PHASE (m : F32) (s : State) : (timerRead m s).CTRL_PHASE = s.CTRL_PHASE := rfl
@[simp] theorem timerRead_WAIT_DIR (m : F32) (s : State) : (timerRead m s).WAIT_DIR = s.WAIT_DIR := rfl
@[simp] theorem timerRead_WAIT_GOAL (m : F32) (s : State) : (timerRead m s).WAIT_GOAL = s.WAIT_GOAL := rfl
@[simp] theorem timerRead_INTEG (m : F32) (s : State) : (timerRead m s).INTEG = s.INTEG := rfl
@[simp] theorem timerRead_LAST_ERR (m : F32) (s : State) : (timerRead m s).LAST_ERR = s.LAST_ERR := rfl
@[simp] theorem timerRead_TMR_RUN (m : F32) (s : State) : (timerRead m s).TMR_RUN = s.TMR_RUN := rfl
@[simp] theorem timerRead_TMR_ELAPSED (m : F32) (s : State) : (timerRead m s).TMR_ELAPSED = m := rfl
@[simp] theorem timerRead_MODE (m : F32) (s : State) : (timerRead m s).MODE = s.MODE := rfl
@[simp] theorem timerRead_LINE_BUF (m : F32) (s : State) : (timerRead m s).LINE_BUF = s.LINE_BUF := rfl
@[simp] theorem timerRead_CMD_STATE (m : F32) (s : State) : (timerRead m s).CMD_STATE = s.CMD_STATE := rfl
@[simp] theorem timerRead_HOST_PENDING (m : F32) (s : State) : (timerRead m s).HOST_PENDING = s.HOST_PENDING := rfl
@[simp] theorem timerRead_TRACE (m : F32) (s : State) : (timerRead m s).TRACE = s.TRACE := rfl
@[simp] theorem timerRead_REFUSED (m : F32) (s : State) : (timerRead m s).REFUSED = s.REFUSED := rfl
@[simp] theorem timerRead_refusedFor (m : F32) (s : State) : (timerRead m s).refusedFor = s.refusedFor := rfl
@[simp] theorem timerRead_freeCount (m : F32) (s : State) : (timerRead m s).freeCount = s.freeCount := rfl
@[simp] theorem timerRead_cfg (m : F32) (s : State) : (timerRead m s).cfg = s.cfg := rfl
@[simp] theorem timerRead_sched (m : F32) (s : State) : (timerRead m s).sched = s.sched := rfl

/-! ### writeOut -/

@[simp] theorem writeOut_SENS (i : Fin 6) (v : F32) (s : State) : (writeOut i v s).SENS = s.SENS := rfl
@[simp] theorem writeOut_QA (i : Fin 6) (v : F32) (s : State) : (writeOut i v s).QA = s.QA := rfl
@[simp] theorem writeOut_QB (i : Fin 6) (v : F32) (s : State) : (writeOut i v s).QB = s.QB := rfl
@[simp] theorem writeOut_ROTOR_OFFSET (i : Fin 6) (v : F32) (s : State) : (writeOut i v s).ROTOR_OFFSET = s.ROTOR_OFFSET := rfl
@[simp] theorem writeOut_PHASE_LEAD (i : Fin 6) (v : F32) (s : State) : (writeOut i v s).PHASE_LEAD = s.PHASE_LEAD := rfl
@[simp] theorem writeOut_ENC_ANGLE (i : Fin 6) (v : F32) (s : State) : (writeOut i v s).ENC_ANGLE = s.ENC_ANGLE := rfl
@[simp] theorem writeOut_DIR_FLAG (i : Fin 6) (v : F32) (s : State) : (writeOut i v s).DIR_FLAG = s.DIR_FLAG := rfl
@[simp] theorem writeOut_CONTROL_TARGET (i : Fin 6) (v : F32) (s : State) : (writeOut i v s).CONTROL_TARGET = s.CONTROL_TARGET := rfl
@[simp] theorem writeOut_DUTY (i : Fin 6) (v : F32) (s : State) : (writeOut i v s).DUTY = s.DUTY := rfl
@[simp] theorem writeOut_OUT (i : Fin 6) (v : F32) (s : State) : (writeOut i v s).OUT = s.OUT.set i v := rfl
@[simp] theorem writeOut_PREV_STATE (i : Fin 6) (v : F32) (s : State) : (writeOut i v s).PREV_STATE = s.PREV_STATE := rfl
@[simp] theorem writeOut_CTRL_RUN (i : Fin 6) (v : F32) (s : State) : (writeOut i v s).CTRL_RUN = s.CTRL_RUN := rfl
@[simp] theorem writeOut_START_LEAD (i : Fin 6) (v : F32) (s : State) : (writeOut i v s).START_LEAD = s.START_LEAD := rfl
@[simp] theorem writeOut_CTRL_PHASE (i : Fin 6) (v : F32) (s : State) : (writeOut i v s).CTRL_PHASE = s.CTRL_PHASE := rfl
@[simp] theorem writeOut_WAIT_DIR (i : Fin 6) (v : F32) (s : State) : (writeOut i v s).WAIT_DIR = s.WAIT_DIR := rfl
@[simp] theorem writeOut_WAIT_GOAL (i : Fin 6) (v : F32) (s : State) : (writeOut i v s).WAIT_GOAL = s.WAIT_GOAL := rfl
@[simp] theorem writeOut_INTEG (i : Fin 6) (v : F32) (s : State) : (writeOut i v s).INTEG = s.INTEG := rfl
@[simp] theorem writeOut_LAST_ERR (i : Fin 6) (v : F32) (s : State) : (writeOut i v s).LAST_ERR = s.LAST_ERR := rfl
@[simp] theorem writeOut_TMR_RUN (i : Fin 6) (v : F32) (s : State) : (writeOut i v s).TMR_RUN = s.TMR_RUN := rfl
@[simp] theorem writeOut_TMR_ELAPSED (i : Fin 6) (v : F32) (s : State) : (writeOut i v s).TMR_ELAPSED = s.TMR_ELAPSED := rfl
@[simp] theorem writeOut_MODE (i : Fin 6) (v : F32) (s : State) : (writeOut i v s).MODE = s.MODE := rfl
@[simp] theorem writeOut_LINE_BUF (i : Fin 6) (v : F32) (s : State) : (writeOut i v s).LINE_BUF = s.LINE_BUF := rfl
@[simp] theorem writeOut_CMD_STATE (i : Fin 6) (v : F32) (s : State) : (writeOut i v s).CMD_STATE = s.CMD_STATE := rfl
@[simp] theorem writeOut_HOST_PENDING (i : Fin 6) (v : F32) (s : State) : (writeOut i v s).HOST_PENDING = s.HOST_PENDING := rfl
@[simp] theorem writeOut_TRACE (i : Fin 6) (v : F32) (s : State) : (writeOut i v s).TRACE = s.TRACE ++ [.pwm i v] := rfl
@[simp] theorem writeOut_REFUSED (i : Fin 6) (v : F32) (s : State) : (writeOut i v s).REFUSED = s.REFUSED := rfl
@[simp] theorem writeOut_refusedFor (i : Fin 6) (v : F32) (s : State) : (writeOut i v s).refusedFor = s.refusedFor := rfl
@[simp] theorem writeOut_freeCount (i : Fin 6) (v : F32) (s : State) : (writeOut i v s).freeCount = s.freeCount := rfl
@[simp] theorem writeOut_cfg (i : Fin 6) (v : F32) (s : State) : (writeOut i v s).cfg = s.cfg := rfl
@[simp] theorem writeOut_sched (i : Fin 6) (v : F32) (s : State) : (writeOut i v s).sched = s.sched := rfl

/-! ### presentSensors -/

@[simp] theorem presentSensors_SENS (raw : Rsv) (s : State) : (presentSensors raw s).SENS = ⟨raw.getLsbD 0, raw.getLsbD 1, raw.getLsbD 2⟩ := rfl
@[simp] theorem presentSensors_QA (raw : Rsv) (s : State) : (presentSensors raw s).QA = s.QA := rfl
@[simp] theorem presentSensors_QB (raw : Rsv) (s : State) : (presentSensors raw s).QB = s.QB := rfl
@[simp] theorem presentSensors_ROTOR_OFFSET (raw : Rsv) (s : State) : (presentSensors raw s).ROTOR_OFFSET = s.ROTOR_OFFSET := rfl
@[simp] theorem presentSensors_PHASE_LEAD (raw : Rsv) (s : State) : (presentSensors raw s).PHASE_LEAD = s.PHASE_LEAD := rfl
@[simp] theorem presentSensors_ENC_ANGLE (raw : Rsv) (s : State) : (presentSensors raw s).ENC_ANGLE = s.ENC_ANGLE := rfl
@[simp] theorem presentSensors_DIR_FLAG (raw : Rsv) (s : State) : (presentSensors raw s).DIR_FLAG = s.DIR_FLAG := rfl
@[simp] theorem presentSensors_CONTROL_TARGET (raw : Rsv) (s : State) : (presentSensors raw s).CONTROL_TARGET = s.CONTROL_TARGET := rfl
@[simp] theorem presentSensors_DUTY (raw : Rsv) (s : State) : (presentSensors raw s).DUTY = s.DUTY := rfl
@[simp] theorem presentSensors_OUT (raw : Rsv) (s : State) : (presentSensors raw s).OUT = s.OUT := rfl
@[simp] theorem presentSensors_PREV_STATE (raw : Rsv) (s : State) : (presentSensors raw s).PREV_STATE = s.PREV_STATE := rfl
@[simp] theorem presentSensors_CTRL_RUN (raw : Rsv) (s : State) : (presentSensors raw s).CTRL_RUN = s.CTRL_RUN := rfl
@[simp] theorem presentSensors_START_LEAD (raw : Rsv) (s : State) : (presentSensors raw s).START_LEAD = s.START_LEAD := rfl
@[simp] theorem presentSensors_CTRL_PHASE (raw : Rsv) (s : State) : (presentSensors raw s).CTRL_PHASE = s.CTRL_PHASE := rfl
@[simp] theorem presentSensors_WAIT_DIR (raw : Rsv) (s : State) : (presentSensors raw s).WAIT_DIR = s.WAIT_DIR := rfl
@[simp] theorem presentSensors_WAIT_GOAL (raw : Rsv) (s : State) : (presentSensors raw s).WAIT_GOAL = s.WAIT_GOAL := rfl
@[simp] theorem presentSensors_INTEG (raw : Rsv) (s : State) : (presentSensors raw s).INTEG = s.INTEG := rfl
@[simp] theorem presentSensors_LAST_ERR (raw : Rsv) (s : State) : (presentSensors raw s).LAST_ERR = s.LAST_ERR := rfl
@[simp] theorem presentSensors_TMR_RUN (raw : Rsv) (s : State) : (presentSensors raw s).TMR_RUN = s.TMR_RUN := rfl
@[simp] theorem presentSensors_TMR_ELAPSED (raw : Rsv) (s : State) : (presentSensors raw s).TMR_ELAPSED = s.TMR_ELAPSED := rfl
@[simp] theorem presentSensors_MODE (raw : Rsv) (s : State) : (presentSensors raw s).MODE = s.MODE := rfl
@[simp] theorem presentSensors_LINE_BUF (raw : Rsv) (s : State) : (presentSensors raw s).LINE_BUF = s.LINE_BUF := rfl
@[simp] theorem presentSensors_CMD_STATE (raw : Rsv) (s : State) : (presentSensors raw s).CMD_STATE = s.CMD_STATE := rfl
@[simp] theorem presentSensors_HOST_PENDING (raw : Rsv) (s : State) : (presentSensors raw s).HOST_PENDING = s.HOST_PENDING := rfl
@[simp] theorem presentSensors_TRACE (raw : Rsv) (s : State) : (presentSensors raw s).TRACE = s.TRACE := rfl
@[simp] theorem presentSensors_REFUSED (raw : Rsv) (s : State) : (presentSensors raw s).REFUSED = s.REFUSED := rfl
@[simp] theorem presentSensors_refusedFor (raw : Rsv) (s : State) : (presentSensors raw s).refusedFor = s.refusedFor := rfl
@[simp] theorem presentSensors_freeCount (raw : Rsv) (s : State) : (presentSensors raw s).freeCount = s.freeCount := rfl
@[simp] theorem presentSensors_cfg (raw : Rsv) (s : State) : (presentSensors raw s).cfg = s.cfg := rfl
@[simp] theorem presentSensors_sched (raw : Rsv) (s : State) : (presentSensors raw s).sched = s.sched := rfl

/-! ### countEdge -/

@[simp] theorem countEdge_SENS (q : BitVec 3) (s : State) : (countEdge q s).SENS = s.SENS := rfl
@[simp] theorem countEdge_QA (q : BitVec 3) (s : State) : (countEdge q s).QA = s.QA := rfl
@[simp] theorem countEdge_QB (q : BitVec 3) (s : State) : (countEdge q s).QB = s.QB := rfl
@[simp] theorem countEdge_ROTOR_OFFSET (q : BitVec 3) (s : State) : (countEdge q s).ROTOR_OFFSET = s.ROTOR_OFFSET := rfl
@[simp] theorem countEdge_PHASE_LEAD (q : BitVec 3) (s : State) : (countEdge q s).PHASE_LEAD = s.PHASE_LEAD := rfl
@[simp] theorem countEdge_ENC_ANGLE (q : BitVec 3) (s : State) : (countEdge q s).ENC_ANGLE = s.ENC_ANGLE + edgeDelta q := rfl
@[simp] theorem countEdge_DIR_FLAG (q : BitVec 3) (s : State) : (countEdge q s).DIR_FLAG = edgeDir q := rfl
@[simp] theorem countEdge_CONTROL_TARGET (q : BitVec 3) (s : State) : (countEdge q s).CONTROL_TARGET = s.CONTROL_TARGET := rfl
@[simp] theorem countEdge_DUTY (q : BitVec 3) (s : State) : (countEdge q s).DUTY = s.DUTY := rfl
@[simp] theorem countEdge_OUT (q : BitVec 3) (s : State) : (countEdge q s).OUT = s.OUT := rfl
@[simp] theorem countEdge_PREV_STATE (q : BitVec 3) (s : State) : (countEdge q s).PREV_STATE = s.PREV_STATE := rfl
@[simp] theorem countEdge_CTRL_RUN (q : BitVec 3) (s : State) : (countEdge q s).CTRL_RUN = s.CTRL_RUN := rfl
@[simp] theorem countEdge_START_LEAD (q : BitVec 3) (s : State) : (countEdge q s).START_LEAD = s.START_LEAD := rfl
@[simp] theorem countEdge_CTRL_PHASE (q : BitVec 3) (s : State) : (countEdge q s).CTRL_PHASE = s.CTRL_PHASE := rfl
@[simp] theorem countEdge_WAIT_DIR (q : BitVec 3) (s : State) : (countEdge q s).WAIT_DIR = s.WAIT_DIR := rfl
@[simp] theorem countEdge_WAIT_GOAL (q : BitVec 3) (s : State) : (countEdge q s).WAIT_GOAL = s.WAIT_GOAL := rfl
@[simp] theorem countEdge_INTEG (q : BitVec 3) (s : State) : (countEdge q s).INTEG = s.INTEG := rfl
@[simp] theorem countEdge_LAST_ERR (q : BitVec 3) (s : State) : (countEdge q s).LAST_ERR = s.LAST_ERR := rfl
@[simp] theorem countEdge_TMR_RUN (q : BitVec 3) (s : State) : (countEdge q s).TMR_RUN = s.TMR_RUN := rfl
@[simp] theorem countEdge_TMR_ELAPSED (q : BitVec 3) (s : State) : (countEdge q s).TMR_ELAPSED = s.TMR_ELAPSED := rfl
@[simp] theorem countEdge_MODE (q : BitVec 3) (s : State) : (countEdge q s).MODE = s.MODE := rfl
@[simp] theorem countEdge_LINE_BUF (q : BitVec 3) (s : State) : (countEdge q s).LINE_BUF = s.LINE_BUF := rfl
@[simp] theorem countEdge_CMD_STATE (q : BitVec 3) (s : State) : (countEdge q s).CMD_STATE = s.CMD_STATE := rfl
@[simp] theorem countEdge_HOST_PENDING (q : BitVec 3) (s : State) : (countEdge q s).HOST_PENDING = s.HOST_PENDING := rfl
@[simp] theorem countEdge_TRACE (q : BitVec 3) (s : State) : (countEdge q s).TRACE = s.TRACE := rfl
@[simp] theorem countEdge_REFUSED (q : BitVec 3) (s : State) : (countEdge q s).REFUSED = s.REFUSED := rfl
@[simp] theorem countEdge_refusedFor (q : BitVec 3) (s : State) : (countEdge q s).refusedFor = s.refusedFor := rfl
@[simp] theorem countEdge_freeCount (q : BitVec 3) (s : State) : (countEdge q s).freeCount = s.freeCount := rfl
@[simp] theorem countEdge_cfg (q : BitVec 3) (s : State) : (countEdge q s).cfg = s.cfg := rfl
@[simp] theorem countEdge_sched (q : BitVec 3) (s : State) : (countEdge q s).sched = s.sched := rfl

/-! ### openWindow -/

@[simp] theorem openWindow_SENS (d : WaitDir) (g : Int) (s : State) : (openWindow d g s).SENS = s.SENS := rfl
@[simp] theorem openWindow_QA (d : WaitDir) (g : Int) (s : State) : (openWindow d g s).QA = s.QA := rfl
@[simp] theorem openWindow_QB (d : WaitDir) (g : Int) (s : State) : (openWindow d g s).QB = s.QB := rfl
@[simp] theorem openWindow_ROTOR_OFFSET (d : WaitDir) (g : Int) (s : State) : (openWindow d g s).ROTOR_OFFSET = s.ROTOR_OFFSET := rfl
@[simp] theorem openWindow_PHASE_LEAD (d : WaitDir) (g : Int) (s : State) : (openWindow d g s).PHASE_LEAD = s.PHASE_LEAD := rfl
@[simp] theorem openWindow_ENC_ANGLE (d : WaitDir) (g : Int) (s : State) : (openWindow d g s).ENC_ANGLE = s.ENC_ANGLE := rfl
@[simp] theorem openWindow_DIR_FLAG (d : WaitDir) (g : Int) (s : State) : (openWindow d g s).DIR_FLAG = s.DIR_FLAG := rfl
@[simp] theorem openWindow_CONTROL_TARGET (d : WaitDir) (g : Int) (s : State) : (openWindow d g s).CONTROL_TARGET = s.CONTROL_TARGET := rfl
@[simp] theorem openWindow_DUTY (d : WaitDir) (g : Int) (s : State) : (openWindow d g s).DUTY = s.DUTY := rfl
@[simp] theorem openWindow_OUT (d : WaitDir) (g : Int) (s : State) : (openWindow d g s).OUT = s.OUT := rfl
@[simp] theorem openWindow_PREV_STATE (d : WaitDir) (g : Int) (s : State) : (openWindow d g s).PREV_STATE = s.PREV_STATE := rfl
@[simp] theorem openWindow_CTRL_RUN (d : WaitDir) (g : Int) (s : State) : (openWindow d g s).CTRL_RUN = s.CTRL_RUN := rfl
@[simp] theorem openWindow_START_LEAD (d : WaitDir) (g : Int) (s : State) : (openWindow d g s).START_LEAD = s.START_LEAD := rfl
@[simp] theorem openWindow_CTRL_PHASE (d : WaitDir) (g : Int) (s : State) : (openWindow d g s).CTRL_PHASE = .wait := rfl
@[simp] theorem openWindow_WAIT_DIR (d : WaitDir) (g : Int) (s : State) : (openWindow d g s).WAIT_DIR = some d := rfl
@[simp] theorem openWindow_WAIT_GOAL (d : WaitDir) (g : Int) (s : State) : (openWindow d g s).WAIT_GOAL = some g := rfl
@[simp] theorem openWindow_INTEG (d : WaitDir) (g : Int) (s : State) : (openWindow d g s).INTEG = s.INTEG := rfl
@[simp] theorem openWindow_LAST_ERR (d : WaitDir) (g : Int) (s : State) : (openWindow d g s).LAST_ERR = s.LAST_ERR := rfl
@[simp] theorem openWindow_TMR_RUN (d : WaitDir) (g : Int) (s : State) : (openWindow d g s).TMR_RUN = true := rfl
@[simp] theorem openWindow_TMR_ELAPSED (d : WaitDir) (g : Int) (s : State) : (openWindow d g s).TMR_ELAPSED = .posZero := rfl
@[simp] theorem openWindow_MODE (d : WaitDir) (g : Int) (s : State) : (openWindow d g s).MODE = s.MODE := rfl
@[simp] theorem openWindow_LINE_BUF (d : WaitDir) (g : Int) (s : State) : (openWindow d g s).LINE_BUF = s.LINE_BUF := rfl
@[simp] theorem openWindow_CMD_STATE (d : WaitDir) (g : Int) (s : State) : (openWindow d g s).CMD_STATE = s.CMD_STATE := rfl
@[simp] theorem openWindow_HOST_PENDING (d : WaitDir) (g : Int) (s : State) : (openWindow d g s).HOST_PENDING = s.HOST_PENDING := rfl
@[simp] theorem openWindow_TRACE (d : WaitDir) (g : Int) (s : State) : (openWindow d g s).TRACE = s.TRACE := rfl
@[simp] theorem openWindow_REFUSED (d : WaitDir) (g : Int) (s : State) : (openWindow d g s).REFUSED = s.REFUSED := rfl
@[simp] theorem openWindow_refusedFor (d : WaitDir) (g : Int) (s : State) : (openWindow d g s).refusedFor = s.refusedFor := rfl
@[simp] theorem openWindow_freeCount (d : WaitDir) (g : Int) (s : State) : (openWindow d g s).freeCount = s.freeCount := rfl
@[simp] theorem openWindow_cfg (d : WaitDir) (g : Int) (s : State) : (openWindow d g s).cfg = s.cfg := rfl
@[simp] theorem openWindow_sched (d : WaitDir) (g : Int) (s : State) : (openWindow d g s).sched = s.sched := rfl

/-! ### writeTarget -/

@[simp] theorem writeTarget_SENS (t : F32) (s : State) : (writeTarget t s).SENS = s.SENS := rfl
@[simp] theorem writeTarget_QA (t : F32) (s : State) : (writeTarget t s).QA = s.QA := rfl
@[simp] theorem writeTarget_QB (t : F32) (s : State) : (writeTarget t s).QB = s.QB := rfl
@[simp] theorem writeTarget_ROTOR_OFFSET (t : F32) (s : State) : (writeTarget t s).ROTOR_OFFSET = s.ROTOR_OFFSET := rfl
@[simp] theorem writeTarget_PHASE_LEAD (t : F32) (s : State) : (writeTarget t s).PHASE_LEAD = s.PHASE_LEAD := rfl
@[simp] theorem writeTarget_ENC_ANGLE (t : F32) (s : State) : (writeTarget t s).ENC_ANGLE = s.ENC_ANGLE := rfl
@[simp] theorem writeTarget_DIR_FLAG (t : F32) (s : State) : (writeTarget t s).DIR_FLAG = s.DIR_FLAG := rfl
@[simp] theorem writeTarget_CONTROL_TARGET (t : F32) (s : State) : (writeTarget t s).CONTROL_TARGET = t := rfl
@[simp] theorem writeTarget_DUTY (t : F32) (s : State) : (writeTarget t s).DUTY = s.DUTY := rfl
@[simp] theorem writeTarget_OUT (t : F32) (s : State) : (writeTarget t s).OUT = s.OUT := rfl
@[simp] theorem writeTarget_PREV_STATE (t : F32) (s : State) : (writeTarget t s).PREV_STATE = s.PREV_STATE := rfl
@[simp] theorem writeTarget_CTRL_RUN (t : F32) (s : State) : (writeTarget t s).CTRL_RUN = s.CTRL_RUN := rfl
@[simp] theorem writeTarget_START_LEAD (t : F32) (s : State) : (writeTarget t s).START_LEAD = s.START_LEAD := rfl
@[simp] theorem writeTarget_CTRL_PHASE (t : F32) (s : State) : (writeTarget t s).CTRL_PHASE = s.CTRL_PHASE := rfl
@[simp] theorem writeTarget_WAIT_DIR (t : F32) (s : State) : (writeTarget t s).WAIT_DIR = s.WAIT_DIR := rfl
@[simp] theorem writeTarget_WAIT_GOAL (t : F32) (s : State) : (writeTarget t s).WAIT_GOAL = s.WAIT_GOAL := rfl
@[simp] theorem writeTarget_INTEG (t : F32) (s : State) : (writeTarget t s).INTEG = s.INTEG := rfl
@[simp] theorem writeTarget_LAST_ERR (t : F32) (s : State) : (writeTarget t s).LAST_ERR = s.LAST_ERR := rfl
@[simp] theorem writeTarget_TMR_RUN (t : F32) (s : State) : (writeTarget t s).TMR_RUN = s.TMR_RUN := rfl
@[simp] theorem writeTarget_TMR_ELAPSED (t : F32) (s : State) : (writeTarget t s).TMR_ELAPSED = s.TMR_ELAPSED := rfl
@[simp] theorem writeTarget_MODE (t : F32) (s : State) : (writeTarget t s).MODE = s.MODE := rfl
@[simp] theorem writeTarget_LINE_BUF (t : F32) (s : State) : (writeTarget t s).LINE_BUF = s.LINE_BUF := rfl
@[simp] theorem writeTarget_CMD_STATE (t : F32) (s : State) : (writeTarget t s).CMD_STATE = s.CMD_STATE := rfl
@[simp] theorem writeTarget_HOST_PENDING (t : F32) (s : State) : (writeTarget t s).HOST_PENDING = s.HOST_PENDING := rfl
@[simp] theorem writeTarget_TRACE (t : F32) (s : State) : (writeTarget t s).TRACE = s.TRACE := rfl
@[simp] theorem writeTarget_REFUSED (t : F32) (s : State) : (writeTarget t s).REFUSED = s.REFUSED := rfl
@[simp] theorem writeTarget_refusedFor (t : F32) (s : State) : (writeTarget t s).refusedFor = s.refusedFor := rfl
@[simp] theorem writeTarget_freeCount (t : F32) (s : State) : (writeTarget t s).freeCount = s.freeCount := rfl
@[simp] theorem writeTarget_cfg (t : F32) (s : State) : (writeTarget t s).cfg = s.cfg := rfl
@[simp] theorem writeTarget_sched (t : F32) (s : State) : (writeTarget t s).sched = s.sched := rfl

/-! ### stopController -/

@[simp] theorem stopController_SENS (s : State) : (stopController s).SENS = s.SENS := rfl
@[simp] theorem stopController_QA (s : State) : (stopController s).QA = s.QA := rfl
@[simp] theorem stopController_QB (s : State) : (stopController s).QB = s.QB := rfl
@[simp] theorem stopController_ROTOR_OFFSET (s : State) : (stopController s).ROTOR_OFFSET = s.ROTOR_OFFSET := rfl
@[simp] theorem stopController_PHASE_LEAD (s : State) : (stopController s).PHASE_LEAD = s.PHASE_LEAD := rfl
@[simp] theorem stopController_ENC_ANGLE (s : State) : (stopController s).ENC_ANGLE = s.ENC_ANGLE := rfl
@[simp] theorem stopController_DIR_FLAG (s : State) : (stopController s).DIR_FLAG = s.DIR_FLAG := rfl
@[simp] theorem stopController_CONTROL_TARGET (s : State) : (stopController s).CONTROL_TARGET = s.CONTROL_TARGET := rfl
@[simp] theorem stopController_DUTY (s : State) : (stopController s).DUTY = s.DUTY := rfl
@[simp] theorem stopController_OUT (s : State) : (stopController s).OUT = s.OUT := rfl
@[simp] theorem stopController_PREV_STATE (s : State) : (stopController s).PREV_STATE = s.PREV_STATE := rfl
@[simp] theorem stopController_CTRL_RUN (s : State) : (stopController s).CTRL_RUN = .stopped := rfl
@[simp] theorem stopController_START_LEAD (s : State) : (stopController s).START_LEAD = s.START_LEAD := rfl
@[simp] theorem stopController_CTRL_PHASE (s : State) : (stopController s).CTRL_PHASE = .top := rfl
@[simp] theorem stopController_WAIT_DIR (s : State) : (stopController s).WAIT_DIR = s.WAIT_DIR := rfl
@[simp] theorem stopController_WAIT_GOAL (s : State) : (stopController s).WAIT_GOAL = s.WAIT_GOAL := rfl
@[simp] theorem stopController_INTEG (s : State) : (stopController s).INTEG = s.INTEG := rfl
@[simp] theorem stopController_LAST_ERR (s : State) : (stopController s).LAST_ERR = s.LAST_ERR := rfl
@[simp] theorem stopController_TMR_RUN (s : State) : (stopController s).TMR_RUN = false := rfl
@[simp] theorem stopController_TMR_ELAPSED (s : State) : (stopController s).TMR_ELAPSED = s.TMR_ELAPSED := rfl
@[simp] theorem stopController_MODE (s : State) : (stopController s).MODE = s.MODE := rfl
@[simp] theorem stopController_LINE_BUF (s : State) : (stopController s).LINE_BUF = s.LINE_BUF := rfl
@[simp] theorem stopController_CMD_STATE (s : State) : (stopController s).CMD_STATE = s.CMD_STATE := rfl
@[simp] theorem stopController_HOST_PENDING (s : State) : (stopController s).HOST_PENDING = s.HOST_PENDING := rfl
@[simp] theorem stopController_TRACE (s : State) : (stopController s).TRACE = s.TRACE := rfl
@[simp] theorem stopController_REFUSED (s : State) : (stopController s).REFUSED = s.REFUSED := rfl
@[simp] theorem stopController_refusedFor (s : State) : (stopController s).refusedFor = s.refusedFor := rfl
@[simp] theorem stopController_freeCount (s : State) : (stopController s).freeCount = s.freeCount := rfl
@[simp] theorem stopController_cfg (s : State) : (stopController s).cfg = s.cfg := rfl
@[simp] theorem stopController_sched (s : State) : (stopController s).sched = s.sched := rfl

/-! ### writeLead -/

@[simp] theorem writeLead_SENS (l : Lead) (s : State) : (writeLead l s).SENS = s.SENS := rfl
@[simp] theorem writeLead_QA (l : Lead) (s : State) : (writeLead l s).QA = s.QA := rfl
@[simp] theorem writeLead_QB (l : Lead) (s : State) : (writeLead l s).QB = s.QB := rfl
@[simp] theorem writeLead_ROTOR_OFFSET (l : Lead) (s : State) : (writeLead l s).ROTOR_OFFSET = s.ROTOR_OFFSET := rfl
@[simp] theorem writeLead_PHASE_LEAD (l : Lead) (s : State) : (writeLead l s).PHASE_LEAD = l := rfl
@[simp] theorem writeLead_ENC_ANGLE (l : Lead) (s : State) : (writeLead l s).ENC_ANGLE = s.ENC_ANGLE := rfl
@[simp] theorem writeLead_DIR_FLAG (l : Lead) (s : State) : (writeLead l s).DIR_FLAG = s.DIR_FLAG := rfl
@[simp] theorem writeLead_CONTROL_TARGET (l : Lead) (s : State) : (writeLead l s).CONTROL_TARGET = s.CONTROL_TARGET := rfl
@[simp] theorem writeLead_DUTY (l : Lead) (s : State) : (writeLead l s).DUTY = s.DUTY := rfl
@[simp] theorem writeLead_OUT (l : Lead) (s : State) : (writeLead l s).OUT = s.OUT := rfl
@[simp] theorem writeLead_PREV_STATE (l : Lead) (s : State) : (writeLead l s).PREV_STATE = s.PREV_STATE := rfl
@[simp] theorem writeLead_CTRL_RUN (l : Lead) (s : State) : (writeLead l s).CTRL_RUN = s.CTRL_RUN := rfl
@[simp] theorem writeLead_START_LEAD (l : Lead) (s : State) : (writeLead l s).START_LEAD = s.START_LEAD := rfl
@[simp] theorem writeLead_CTRL_PHASE (l : Lead) (s : State) : (writeLead l s).CTRL_PHASE = s.CTRL_PHASE := rfl
@[simp] theorem writeLead_WAIT_DIR (l : Lead) (s : State) : (writeLead l s).WAIT_DIR = s.WAIT_DIR := rfl
@[simp] theorem writeLead_WAIT_GOAL (l : Lead) (s : State) : (writeLead l s).WAIT_GOAL = s.WAIT_GOAL := rfl
@[simp] theorem writeLead_INTEG (l : Lead) (s : State) : (writeLead l s).INTEG = s.INTEG := rfl
@[simp] theorem writeLead_LAST_ERR (l : Lead) (s : State) : (writeLead l s).LAST_ERR = s.LAST_ERR := rfl
@[simp] theorem writeLead_TMR_RUN (l : Lead) (s : State) : (writeLead l s).TMR_RUN = s.TMR_RUN := rfl
@[simp] theorem writeLead_TMR_ELAPSED (l : Lead) (s : State) : (writeLead l s).TMR_ELAPSED = s.TMR_ELAPSED := rfl
@[simp] theorem writeLead_MODE (l : Lead) (s : State) : (writeLead l s).MODE = s.MODE := rfl
@[simp] theorem writeLead_LINE_BUF (l : Lead) (s : State) : (writeLead l s).LINE_BUF = s.LINE_BUF := rfl
@[simp] theorem writeLead_CMD_STATE (l : Lead) (s : State) : (writeLead l s).CMD_STATE = s.CMD_STATE := rfl
@[simp] theorem writeLead_HOST_PENDING (l : Lead) (s : State) : (writeLead l s).HOST_PENDING = s.HOST_PENDING := rfl
@[simp] theorem writeLead_TRACE (l : Lead) (s : State) : (writeLead l s).TRACE = s.TRACE := rfl
@[simp] theorem writeLead_REFUSED (l : Lead) (s : State) : (writeLead l s).REFUSED = s.REFUSED := rfl
@[simp] theorem writeLead_refusedFor (l : Lead) (s : State) : (writeLead l s).refusedFor = s.refusedFor := rfl
@[simp] theorem writeLead_freeCount (l : Lead) (s : State) : (writeLead l s).freeCount = s.freeCount := rfl
@[simp] theorem writeLead_cfg (l : Lead) (s : State) : (writeLead l s).cfg = s.cfg := rfl
@[simp] theorem writeLead_sched (l : Lead) (s : State) : (writeLead l s).sched = s.sched := rfl

/-! ### zeroDuty -/

@[simp] theorem zeroDuty_SENS (s : State) : (zeroDuty s).SENS = s.SENS := rfl
@[simp] theorem zeroDuty_QA (s : State) : (zeroDuty s).QA = s.QA := rfl
@[simp] theorem zeroDuty_QB (s : State) : (zeroDuty s).QB = s.QB := rfl
@[simp] theorem zeroDuty_ROTOR_OFFSET (s : State) : (zeroDuty s).ROTOR_OFFSET = s.ROTOR_OFFSET := rfl
@[simp] theorem zeroDuty_PHASE_LEAD (s : State) : (zeroDuty s).PHASE_LEAD = s.PHASE_LEAD := rfl
@[simp] theorem zeroDuty_ENC_ANGLE (s : State) : (zeroDuty s).ENC_ANGLE = s.ENC_ANGLE := rfl
@[simp] theorem zeroDuty_DIR_FLAG (s : State) : (zeroDuty s).DIR_FLAG = s.DIR_FLAG := rfl
@[simp] theorem zeroDuty_CONTROL_TARGET (s : State) : (zeroDuty s).CONTROL_TARGET = s.CONTROL_TARGET := rfl
@[simp] theorem zeroDuty_DUTY (s : State) : (zeroDuty s).DUTY = .posZero := rfl
@[simp] theorem zeroDuty_OUT (s : State) : (zeroDuty s).OUT = s.OUT := rfl
@[simp] theorem zeroDuty_PREV_STATE (s : State) : (zeroDuty s).PREV_STATE = s.PREV_STATE := rfl
@[simp] theorem zeroDuty_CTRL_RUN (s : State) : (zeroDuty s).CTRL_RUN = s.CTRL_RUN := rfl
@[simp] theorem zeroDuty_START_LEAD (s : State) : (zeroDuty s).START_LEAD = s.START_LEAD := rfl
@[simp] theorem zeroDuty_CTRL_PHASE (s : State) : (zeroDuty s).CTRL_PHASE = s.CTRL_PHASE := rfl
@[simp] theorem zeroDuty_WAIT_DIR (s : State) : (zeroDuty s).WAIT_DIR = s.WAIT_DIR := rfl
@[simp] theorem zeroDuty_WAIT_GOAL (s : State) : (zeroDuty s).WAIT_GOAL = s.WAIT_GOAL := rfl
@[simp] theorem zeroDuty_INTEG (s : State) : (zeroDuty s).INTEG = s.INTEG := rfl
@[simp] theorem zeroDuty_LAST_ERR (s : State) : (zeroDuty s).LAST_ERR = s.LAST_ERR := rfl
@[simp] theorem zeroDuty_TMR_RUN (s : State) : (zeroDuty s).TMR_RUN = s.TMR_RUN := rfl
@[simp] theorem zeroDuty_TMR_ELAPSED (s : State) : (zeroDuty s).TMR_ELAPSED = s.TMR_ELAPSED := rfl
@[simp] theorem zeroDuty_MODE (s : State) : (zeroDuty s).MODE = s.MODE := rfl
@[simp] theorem zeroDuty_LINE_BUF (s : State) : (zeroDuty s).LINE_BUF = s.LINE_BUF := rfl
@[simp] theorem zeroDuty_CMD_STATE (s : State) : (zeroDuty s).CMD_STATE = s.CMD_STATE := rfl
@[simp] theorem zeroDuty_HOST_PENDING (s : State) : (zeroDuty s).HOST_PENDING = s.HOST_PENDING := rfl
@[simp] theorem zeroDuty_TRACE (s : State) : (zeroDuty s).TRACE = s.TRACE := rfl
@[simp] theorem zeroDuty_REFUSED (s : State) : (zeroDuty s).REFUSED = s.REFUSED := rfl
@[simp] theorem zeroDuty_refusedFor (s : State) : (zeroDuty s).refusedFor = s.refusedFor := rfl
@[simp] theorem zeroDuty_freeCount (s : State) : (zeroDuty s).freeCount = s.freeCount := rfl
@[simp] theorem zeroDuty_cfg (s : State) : (zeroDuty s).cfg = s.cfg := rfl
@[simp] theorem zeroDuty_sched (s : State) : (zeroDuty s).sched = s.sched := rfl

/-! ### startController -/

@[simp] theorem startController_SENS (l : Lead) (s : State) : (startController l s).SENS = s.SENS := rfl
@[simp] theorem startController_QA (l : Lead) (s : State) : (startController l s).QA = s.QA := rfl
@[simp] theorem startController_QB (l : Lead) (s : State) : (startController l s).QB = s.QB := rfl
@[simp] theorem startController_ROTOR_OFFSET (l : Lead) (s : State) : (startController l s).ROTOR_OFFSET = s.ROTOR_OFFSET := rfl
@[simp] theorem startController_PHASE_LEAD (l : Lead) (s : State) : (startController l s).PHASE_LEAD = s.PHASE_LEAD := rfl
@[simp] theorem startController_ENC_ANGLE (l : Lead) (s : State) : (startController l s).ENC_ANGLE = s.ENC_ANGLE := rfl
@[simp] theorem startController_DIR_FLAG (l : Lead) (s : State) : (startController l s).DIR_FLAG = s.DIR_FLAG := rfl
@[simp] theorem startController_CONTROL_TARGET (l : Lead) (s : State) : (startController l s).CONTROL_TARGET = s.CONTROL_TARGET := rfl
@[simp] theorem startController_DUTY (l : Lead) (s : State) : (startController l s).DUTY = s.DUTY := rfl
@[simp] theorem startController_OUT (l : Lead) (s : State) : (startController l s).OUT = s.OUT := rfl
@[simp] theorem startController_PREV_STATE (l : Lead) (s : State) : (startController l s).PREV_STATE = s.PREV_STATE := rfl
@[simp] theorem startController_CTRL_RUN (l : Lead) (s : State) : (startController l s).CTRL_RUN = .running := rfl
@[simp] theorem startController_START_LEAD (l : Lead) (s : State) : (startController l s).START_LEAD = some l := rfl
@[simp] theorem startController_CTRL_PHASE (l : Lead) (s : State) : (startController l s).CTRL_PHASE = .top := rfl
@[simp] theorem startController_WAIT_DIR (l : Lead) (s : State) : (startController l s).WAIT_DIR = s.WAIT_DIR := rfl
@[simp] theorem startController_WAIT_GOAL (l : Lead) (s : State) : (startController l s).WAIT_GOAL = s.WAIT_GOAL := rfl
@[simp] theorem startController_INTEG (l : Lead) (s : State) : (startController l s).INTEG = .posZero := rfl
@[simp] theorem startController_LAST_ERR (l : Lead) (s : State) : (startController l s).LAST_ERR = .posZero := rfl
@[simp] theorem startController_TMR_RUN (l : Lead) (s : State) : (startController l s).TMR_RUN = s.TMR_RUN := rfl
@[simp] theorem startController_TMR_ELAPSED (l : Lead) (s : State) : (startController l s).TMR_ELAPSED = s.TMR_ELAPSED := rfl
@[simp] theorem startController_MODE (l : Lead) (s : State) : (startController l s).MODE = s.MODE := rfl
@[simp] theorem startController_LINE_BUF (l : Lead) (s : State) : (startController l s).LINE_BUF = s.LINE_BUF := rfl
@[simp] theorem startController_CMD_STATE (l : Lead) (s : State) : (startController l s).CMD_STATE = s.CMD_STATE := rfl
@[simp] theorem startController_HOST_PENDING (l : Lead) (s : State) : (startController l s).HOST_PENDING = s.HOST_PENDING := rfl
@[simp] theorem startController_TRACE (l : Lead) (s : State) : (startController l s).TRACE = s.TRACE := rfl
@[simp] theorem startController_REFUSED (l : Lead) (s : State) : (startController l s).REFUSED = s.REFUSED := rfl
@[simp] theorem startController_refusedFor (l : Lead) (s : State) : (startController l s).refusedFor = s.refusedFor := rfl
@[simp] theorem startController_freeCount (l : Lead) (s : State) : (startController l s).freeCount = s.freeCount := rfl
@[simp] theorem startController_cfg (l : Lead) (s : State) : (startController l s).cfg = s.cfg := rfl
@[simp] theorem startController_sched (l : Lead) (s : State) : (startController l s).sched = s.sched := rfl

/-! ### syncSampleEffect -/

@[simp] theorem syncSampleEffect_SENS (s : State) : (syncSampleEffect s).SENS = s.SENS := rfl
@[simp] theorem syncSampleEffect_QA (s : State) : (syncSampleEffect s).QA = s.QA := rfl
@[simp] theorem syncSampleEffect_QB (s : State) : (syncSampleEffect s).QB = s.QB := rfl
@[simp] theorem syncSampleEffect_ROTOR_OFFSET (s : State) : (syncSampleEffect s).ROTOR_OFFSET = some (rotorRead s) := rfl
@[simp] theorem syncSampleEffect_PHASE_LEAD (s : State) : (syncSampleEffect s).PHASE_LEAD = s.PHASE_LEAD := rfl
@[simp] theorem syncSampleEffect_ENC_ANGLE (s : State) : (syncSampleEffect s).ENC_ANGLE = s.ENC_ANGLE := rfl
@[simp] theorem syncSampleEffect_DIR_FLAG (s : State) : (syncSampleEffect s).DIR_FLAG = s.DIR_FLAG := rfl
@[simp] theorem syncSampleEffect_CONTROL_TARGET (s : State) : (syncSampleEffect s).CONTROL_TARGET = s.CONTROL_TARGET := rfl
@[simp] theorem syncSampleEffect_DUTY (s : State) : (syncSampleEffect s).DUTY = s.DUTY := rfl
@[simp] theorem syncSampleEffect_OUT (s : State) : (syncSampleEffect s).OUT = s.OUT := rfl
@[simp] theorem syncSampleEffect_PREV_STATE (s : State) : (syncSampleEffect s).PREV_STATE = s.PREV_STATE := rfl
@[simp] theorem syncSampleEffect_CTRL_RUN (s : State) : (syncSampleEffect s).CTRL_RUN = s.CTRL_RUN := rfl
@[simp] theorem syncSampleEffect_START_LEAD (s : State) : (syncSampleEffect s).START_LEAD = s.START_LEAD := rfl
@[simp] theorem syncSampleEffect_CTRL_PHASE (s : State) : (syncSampleEffect s).CTRL_PHASE = s.CTRL_PHASE := rfl
@[simp] theorem syncSampleEffect_WAIT_DIR (s : State) : (syncSampleEffect s).WAIT_DIR = s.WAIT_DIR := rfl
@[simp] theorem syncSampleEffect_WAIT_GOAL (s : State) : (syncSampleEffect s).WAIT_GOAL = s.WAIT_GOAL := rfl
@[simp] theorem syncSampleEffect_INTEG (s : State) : (syncSampleEffect s).INTEG = s.INTEG := rfl
@[simp] theorem syncSampleEffect_LAST_ERR (s : State) : (syncSampleEffect s).LAST_ERR = s.LAST_ERR := rfl
@[simp] theorem syncSampleEffect_TMR_RUN (s : State) : (syncSampleEffect s).TMR_RUN = s.TMR_RUN := rfl
@[simp] theorem syncSampleEffect_TMR_ELAPSED (s : State) : (syncSampleEffect s).TMR_ELAPSED = s.TMR_ELAPSED := rfl
@[simp] theorem syncSampleEffect_MODE (s : State) : (syncSampleEffect s).MODE = .run := rfl
@[simp] theorem syncSampleEffect_LINE_BUF (s : State) : (syncSampleEffect s).LINE_BUF = s.LINE_BUF := rfl
@[simp] theorem syncSampleEffect_CMD_STATE (s : State) : (syncSampleEffect s).CMD_STATE = s.CMD_STATE := rfl
@[simp] theorem syncSampleEffect_HOST_PENDING (s : State) : (syncSampleEffect s).HOST_PENDING = s.HOST_PENDING := rfl
@[simp] theorem syncSampleEffect_TRACE (s : State) : (syncSampleEffect s).TRACE = s.TRACE := rfl
@[simp] theorem syncSampleEffect_REFUSED (s : State) : (syncSampleEffect s).REFUSED = s.REFUSED := rfl
@[simp] theorem syncSampleEffect_refusedFor (s : State) : (syncSampleEffect s).refusedFor = s.refusedFor := rfl
@[simp] theorem syncSampleEffect_freeCount (s : State) : (syncSampleEffect s).freeCount = s.freeCount := rfl
@[simp] theorem syncSampleEffect_cfg (s : State) : (syncSampleEffect s).cfg = s.cfg := rfl
@[simp] theorem syncSampleEffect_sched (s : State) : (syncSampleEffect s).sched = s.sched := rfl

/-! ### resetEffect -/

@[simp] theorem resetEffect_SENS (s : State) : (resetEffect s).SENS = s.SENS := rfl
@[simp] theorem resetEffect_QA (s : State) : (resetEffect s).QA = s.QA := rfl
@[simp] theorem resetEffect_QB (s : State) : (resetEffect s).QB = s.QB := rfl
@[simp] theorem resetEffect_ROTOR_OFFSET (s : State) : (resetEffect s).ROTOR_OFFSET = none := rfl
@[simp] theorem resetEffect_PHASE_LEAD (s : State) : (resetEffect s).PHASE_LEAD = .stopped := rfl
@[simp] theorem resetEffect_ENC_ANGLE (s : State) : (resetEffect s).ENC_ANGLE = 0 := rfl
@[simp] theorem resetEffect_DIR_FLAG (s : State) : (resetEffect s).DIR_FLAG = .stopped := rfl
@[simp] theorem resetEffect_CONTROL_TARGET (s : State) : (resetEffect s).CONTROL_TARGET = .posZero := rfl
@[simp] theorem resetEffect_DUTY (s : State) : (resetEffect s).DUTY = s.cfg.DUTY_RESET := rfl
@[simp] theorem resetEffect_OUT (s : State) : (resetEffect s).OUT = Vector.replicate 6 .posZero := rfl
@[simp] theorem resetEffect_PREV_STATE (s : State) : (resetEffect s).PREV_STATE = none := rfl
@[simp] theorem resetEffect_CTRL_RUN (s : State) : (resetEffect s).CTRL_RUN = .stopped := rfl
@[simp] theorem resetEffect_START_LEAD (s : State) : (resetEffect s).START_LEAD = none := rfl
@[simp] theorem resetEffect_CTRL_PHASE (s : State) : (resetEffect s).CTRL_PHASE = .top := rfl
@[simp] theorem resetEffect_WAIT_DIR (s : State) : (resetEffect s).WAIT_DIR = none := rfl
@[simp] theorem resetEffect_WAIT_GOAL (s : State) : (resetEffect s).WAIT_GOAL = none := rfl
@[simp] theorem resetEffect_INTEG (s : State) : (resetEffect s).INTEG = .posZero := rfl
@[simp] theorem resetEffect_LAST_ERR (s : State) : (resetEffect s).LAST_ERR = .posZero := rfl
@[simp] theorem resetEffect_TMR_RUN (s : State) : (resetEffect s).TMR_RUN = false := rfl
@[simp] theorem resetEffect_TMR_ELAPSED (s : State) : (resetEffect s).TMR_ELAPSED = .posZero := rfl
@[simp] theorem resetEffect_MODE (s : State) : (resetEffect s).MODE = .syncDrive := rfl
@[simp] theorem resetEffect_LINE_BUF (s : State) : (resetEffect s).LINE_BUF = [] := rfl
@[simp] theorem resetEffect_CMD_STATE (s : State) : (resetEffect s).CMD_STATE = CmdState.reset := rfl
@[simp] theorem resetEffect_HOST_PENDING (s : State) : (resetEffect s).HOST_PENDING = [] := rfl
@[simp] theorem resetEffect_TRACE (s : State) : (resetEffect s).TRACE = s.TRACE := rfl
@[simp] theorem resetEffect_REFUSED (s : State) : (resetEffect s).REFUSED = s.REFUSED := rfl
@[simp] theorem resetEffect_refusedFor (s : State) : (resetEffect s).refusedFor = s.refusedFor := rfl
@[simp] theorem resetEffect_freeCount (s : State) : (resetEffect s).freeCount = s.freeCount := rfl
@[simp] theorem resetEffect_cfg (s : State) : (resetEffect s).cfg = s.cfg := rfl
@[simp] theorem resetEffect_sched (s : State) : (resetEffect s).sched = s.sched := rfl

/-! ### The two drive passes -/

/-- The outputs after a pass. -/
def setAll (is : List (Fin 6)) (v : F32) (out : Vector F32 6) : Vector F32 6 :=
  is.foldl (fun (o : Vector F32 6) (i : Fin 6) => o.set i v) out

/-- A pass writes its outputs in order and records them in order; nothing else changes. -/
theorem writeAll_eq (is : List (Fin 6)) (v : F32) (s : State) :
    writeAll is v s = { s with
      OUT := setAll is v s.OUT
      TRACE := s.TRACE ++ is.map (fun i => Event.pwm i v) } := by
  unfold writeAll setAll
  induction is generalizing s with
  | nil => simp
  | cons i is ih => rw [List.foldl_cons, ih]; simp [writeOut, emit]

/-- The outputs after both passes, as one function of the outputs before. -/
def drivenOut (p : Dpat) (duty : F32) (out : Vector F32 6) : Vector F32 6 :=
  setAll (onOutputs p) duty (setAll (offOutputs p) .posZero out)

/-- The events of both passes. -/
def driveEvents (p : Dpat) (duty : F32) : List Event :=
  (offOutputs p).map (fun i => Event.pwm i .posZero) ++ (onOutputs p).map (fun i => Event.pwm i duty)

/-- A drive pattern changes the outputs and the trace, and nothing else. -/
theorem drivePattern_eq (p : Dpat) (duty : F32) (s : State) :
    drivePattern p duty s = { s with OUT := drivenOut p duty s.OUT, TRACE := s.TRACE ++ driveEvents p duty } := by
  unfold drivePattern
  rw [writeAll_eq, writeAll_eq]
  simp [drivenOut, driveEvents]

@[simp] theorem drivePattern_SENS (p : Dpat) (duty : F32) (s : State) : (drivePattern p duty s).SENS = s.SENS := by rw [drivePattern_eq]
@[simp] theorem drivePattern_QA (p : Dpat) (duty : F32) (s : State) : (drivePattern p duty s).QA = s.QA := by rw [drivePattern_eq]
@[simp] theorem drivePattern_QB (p : Dpat) (duty : F32) (s : State) : (drivePattern p duty s).QB = s.QB := by rw [drivePattern_eq]
@[simp] theorem drivePattern_ROTOR_OFFSET (p : Dpat) (duty : F32) (s : State) : (drivePattern p duty s).ROTOR_OFFSET = s.ROTOR_OFFSET := by rw [drivePattern_eq]
@[simp] theorem drivePattern_PHASE_LEAD (p : Dpat) (duty : F32) (s : State) : (drivePattern p duty s).PHASE_LEAD = s.PHASE_LEAD := by rw [drivePattern_eq]
@[simp] theorem drivePattern_ENC_ANGLE (p : Dpat) (duty : F32) (s : State) : (drivePattern p duty s).ENC_ANGLE = s.ENC_ANGLE := by rw [drivePattern_eq]
@[simp] theorem drivePattern_DIR_FLAG (p : Dpat) (duty : F32) (s : State) : (drivePattern p duty s).DIR_FLAG = s.DIR_FLAG := by rw [drivePattern_eq]
@[simp] theorem drivePattern_CONTROL_TARGET (p : Dpat) (duty : F32) (s : State) : (drivePattern p duty s).CONTROL_TARGET = s.CONTROL_TARGET := by rw [drivePattern_eq]
@[simp] theorem drivePattern_DUTY (p : Dpat) (duty : F32) (s : State) : (drivePattern p duty s).DUTY = s.DUTY := by rw [drivePattern_eq]
@[simp] theorem drivePattern_OUT (p : Dpat) (duty : F32) (s : State) : (drivePattern p duty s).OUT = drivenOut p duty s.OUT := by rw [drivePattern_eq]
@[simp] theorem drivePattern_PREV_STATE (p : Dpat) (duty : F32) (s : State) : (drivePattern p duty s).PREV_STATE = s.PREV_STATE := by rw [drivePattern_eq]
@[simp] theorem drivePattern_CTRL_RUN (p : Dpat) (duty : F32) (s : State) : (drivePattern p duty s).CTRL_RUN = s.CTRL_RUN := by rw [drivePattern_eq]
@[simp] theorem drivePattern_START_LEAD (p : Dpat) (duty : F32) (s : State) : (drivePattern p duty s).START_LEAD = s.START_LEAD := by rw [drivePattern_eq]
@[simp] theorem drivePattern_CTRL_PHASE (p : Dpat) (duty : F32) (s : State) : (drivePattern p duty s).CTRL_PHASE = s.CTRL_PHASE := by rw [drivePattern_eq]
@[simp] theorem drivePattern_WAIT_DIR (p : Dpat) (duty : F32) (s : State) : (drivePattern p duty s).WAIT_DIR = s.WAIT_DIR := by rw [drivePattern_eq]
@[simp] theorem drivePattern_WAIT_GOAL (p : Dpat) (duty : F32) (s : State) : (drivePattern p duty s).WAIT_GOAL = s.WAIT_GOAL := by rw [drivePattern_eq]
@[simp] theorem drivePattern_INTEG (p : Dpat) (duty : F32) (s : State) : (drivePattern p duty s).INTEG = s.INTEG := by rw [drivePattern_eq]
@[simp] theorem drivePattern_LAST_ERR (p : Dpat) (duty : F32) (s : State) : (drivePattern p duty s).LAST_ERR = s.LAST_ERR := by rw [drivePattern_eq]
@[simp] theorem drivePattern_TMR_RUN (p : Dpat) (duty : F32) (s : State) : (drivePattern p duty s).TMR_RUN = s.TMR_RUN := by rw [drivePattern_eq]
@[simp] theorem drivePattern_TMR_ELAPSED (p : Dpat) (duty : F32) (s : State) : (drivePattern p duty s).TMR_ELAPSED = s.TMR_ELAPSED := by rw [drivePattern_eq]
@[simp] theorem drivePattern_MODE (p : Dpat) (duty : F32) (s : State) : (drivePattern p duty s).MODE = s.MODE := by rw [drivePattern_eq]
@[simp] theorem drivePattern_LINE_BUF (p : Dpat) (duty : F32) (s : State) : (drivePattern p duty s).LINE_BUF = s.LINE_BUF := by rw [drivePattern_eq]
@[simp] theorem drivePattern_CMD_STATE (p : Dpat) (duty : F32) (s : State) : (drivePattern p duty s).CMD_STATE = s.CMD_STATE := by rw [drivePattern_eq]
@[simp] theorem drivePattern_HOST_PENDING (p : Dpat) (duty : F32) (s : State) : (drivePattern p duty s).HOST_PENDING = s.HOST_PENDING := by rw [drivePattern_eq]
@[simp] theorem drivePattern_TRACE (p : Dpat) (duty : F32) (s : State) : (drivePattern p duty s).TRACE = s.TRACE ++ driveEvents p duty := by rw [drivePattern_eq]
@[simp] theorem drivePattern_REFUSED (p : Dpat) (duty : F32) (s : State) : (drivePattern p duty s).REFUSED = s.REFUSED := by rw [drivePattern_eq]
@[simp] theorem drivePattern_refusedFor (p : Dpat) (duty : F32) (s : State) : (drivePattern p duty s).refusedFor = s.refusedFor := by rw [drivePattern_eq]
@[simp] theorem drivePattern_freeCount (p : Dpat) (duty : F32) (s : State) : (drivePattern p duty s).freeCount = s.freeCount := by rw [drivePattern_eq]
@[simp] theorem drivePattern_cfg (p : Dpat) (duty : F32) (s : State) : (drivePattern p duty s).cfg = s.cfg := by rw [drivePattern_eq]
@[simp] theorem drivePattern_sched (p : Dpat) (duty : F32) (s : State) : (drivePattern p duty s).sched = s.sched := by rw [drivePattern_eq]

/-- A pass sets exactly the outputs it lists. -/
theorem setAll_getElem (is : List (Fin 6)) (v : F32) (out : Vector F32 6) (j : Fin 6) :
    (setAll is v out)[j] = if j ∈ is then v else out[j] := by
  unfold setAll
  induction is generalizing out with
  | nil => simp
  | cons i is ih =>
    rw [List.foldl_cons, ih]
    by_cases h : j ∈ is
    · simp [h]
    · by_cases hij : j = i
      · subst hij; simp [h]
      · have : ¬ (i : Nat) = j := fun e => hij (Fin.ext e.symm)
        simp [h, hij, this]

theorem mem_onOutputs (p : Dpat) (j : Fin 6) : j ∈ onOutputs p ↔ p.getLsbD j = true := by
  have : j ∈ outputs := by revert j; decide
  simp [onOutputs, this]

theorem mem_offOutputs (p : Dpat) (j : Fin 6) : j ∈ offOutputs p ↔ p.getLsbD j = false := by
  have : j ∈ outputs := by revert j; decide
  simp [offOutputs, this]

/-- After both passes an output holds the duty if the pattern asserts it and +0.0 if not (R88). -/
@[simp] theorem drivenOut_getElem (p : Dpat) (duty : F32) (out : Vector F32 6) (j : Fin 6) :
    (drivenOut p duty out)[j] = if p.getLsbD j then duty else .posZero := by
  unfold drivenOut
  rw [setAll_getElem, setAll_getElem]
  simp only [mem_onOutputs, mem_offOutputs]
  cases p.getLsbD j <;> simp

/-! ### An edge -/

@[simp] theorem edge_SENS (ch : Channel) (pol : Bool) (s : State) : (edge ch pol s).SENS = s.SENS := by cases ch <;> rfl
@[simp] theorem edge_ROTOR_OFFSET (ch : Channel) (pol : Bool) (s : State) : (edge ch pol s).ROTOR_OFFSET = s.ROTOR_OFFSET := by cases ch <;> rfl
@[simp] theorem edge_PHASE_LEAD (ch : Channel) (pol : Bool) (s : State) : (edge ch pol s).PHASE_LEAD = s.PHASE_LEAD := by cases ch <;> rfl
@[simp] theorem edge_CONTROL_TARGET (ch : Channel) (pol : Bool) (s : State) : (edge ch pol s).CONTROL_TARGET = s.CONTROL_TARGET := by cases ch <;> rfl
@[simp] theorem edge_DUTY (ch : Channel) (pol : Bool) (s : State) : (edge ch pol s).DUTY = s.DUTY := by cases ch <;> rfl
@[simp] theorem edge_OUT (ch : Channel) (pol : Bool) (s : State) : (edge ch pol s).OUT = s.OUT := by cases ch <;> rfl
@[simp] theorem edge_PREV_STATE (ch : Channel) (pol : Bool) (s : State) : (edge ch pol s).PREV_STATE = s.PREV_STATE := by cases ch <;> rfl
@[simp] theorem edge_CTRL_RUN (ch : Channel) (pol : Bool) (s : State) : (edge ch pol s).CTRL_RUN = s.CTRL_RUN := by cases ch <;> rfl
@[simp] theorem edge_START_LEAD (ch : Channel) (pol : Bool) (s : State) : (edge ch pol s).START_LEAD = s.START_LEAD := by cases ch <;> rfl
@[simp] theorem edge_CTRL_PHASE (ch : Channel) (pol : Bool) (s : State) : (edge ch pol s).CTRL_PHASE = s.CTRL_PHASE := by cases ch <;> rfl
@[simp] theorem edge_WAIT_DIR (ch : Channel) (pol : Bool) (s : State) : (edge ch pol s).WAIT_DIR = s.WAIT_DIR := by cases ch <;> rfl
@[simp] theorem edge_WAIT_GOAL (ch : Channel) (pol : Bool) (s : State) : (edge ch pol s).WAIT_GOAL = s.WAIT_GOAL := by cases ch <;> rfl
@[simp] theorem edge_INTEG (ch : Channel) (pol : Bool) (s : State) : (edge ch pol s).INTEG = s.INTEG := by cases ch <;> rfl
@[simp] theorem edge_LAST_ERR (ch : Channel) (pol : Bool) (s : State) : (edge ch pol s).LAST_ERR = s.LAST_ERR := by cases ch <;> rfl
@[simp] theorem edge_TMR_RUN (ch : Channel) (pol : Bool) (s : State) : (edge ch pol s).TMR_RUN = s.TMR_RUN := by cases ch <;> rfl
@[simp] theorem edge_TMR_ELAPSED (ch : Channel) (pol : Bool) (s : State) : (edge ch pol s).TMR_ELAPSED = s.TMR_ELAPSED := by cases ch <;> rfl
@[simp] theorem edge_MODE (ch : Channel) (pol : Bool) (s : State) : (edge ch pol s).MODE = s.MODE := by cases ch <;> rfl
@[simp] theorem edge_LINE_BUF (ch : Channel) (pol : Bool) (s : State) : (edge ch pol s).LINE_BUF = s.LINE_BUF := by cases ch <;> rfl
@[simp] theorem edge_CMD_STATE (ch : Channel) (pol : Bool) (s : State) : (edge ch pol s).CMD_STATE = s.CMD_STATE := by cases ch <;> rfl
@[simp] theorem edge_HOST_PENDING (ch : Channel) (pol : Bool) (s : State) : (edge ch pol s).HOST_PENDING = s.HOST_PENDING := by cases ch <;> rfl
@[simp] theorem edge_TRACE (ch : Channel) (pol : Bool) (s : State) : (edge ch pol s).TRACE = s.TRACE := by cases ch <;> rfl
@[simp] theorem edge_REFUSED (ch : Channel) (pol : Bool) (s : State) : (edge ch pol s).REFUSED = s.REFUSED := by cases ch <;> rfl
@[simp] theorem edge_refusedFor (ch : Channel) (pol : Bool) (s : State) : (edge ch pol s).refusedFor = s.refusedFor := by cases ch <;> rfl
@[simp] theorem edge_freeCount (ch : Channel) (pol : Bool) (s : State) : (edge ch pol s).freeCount = s.freeCount := by cases ch <;> rfl
@[simp] theorem edge_cfg (ch : Channel) (pol : Bool) (s : State) : (edge ch pol s).cfg = s.cfg := by cases ch <;> rfl
@[simp] theorem edge_sched (ch : Channel) (pol : Bool) (s : State) : (edge ch pol s).sched = s.sched := by cases ch <;> rfl

@[simp] theorem edge_ENC_ANGLE (ch : Channel) (pol : Bool) (s : State) :
    (edge ch pol s).ENC_ANGLE = s.ENC_ANGLE + edgeDelta (qev ch pol (level (otherChannel ch) s)) := by cases ch <;> rfl
@[simp] theorem edge_DIR_FLAG (ch : Channel) (pol : Bool) (s : State) :
    (edge ch pol s).DIR_FLAG = edgeDir (qev ch pol (level (otherChannel ch) s)) := by cases ch <;> rfl
@[simp] theorem edge_a_QA (pol : Bool) (s : State) : (edge .a pol s).QA = pol := rfl
@[simp] theorem edge_a_QB (pol : Bool) (s : State) : (edge .a pol s).QB = s.QB := rfl
@[simp] theorem edge_b_QA (pol : Bool) (s : State) : (edge .b pol s).QA = s.QA := rfl
@[simp] theorem edge_b_QB (pol : Bool) (s : State) : (edge .b pol s).QB = pol := rfl

/-- An edge never leaves DIR_FLAG at 0 (10_state.md R27). -/
theorem edgeDir_ne_stopped (q : BitVec 3) : edgeDir q ≠ .stopped := by unfold edgeDir; split <;> simp

/-! ### The close of a window -/

/-- The duty a window leaves (42_speed_controller.md R114 to R116). -/
def closedDuty (m : F32) (s : State) : F32 :=
  clampDuty (fadd s.DUTY (pidUpdate s.cfg (fsub m s.CONTROL_TARGET) (fadd s.INTEG (fsub m s.CONTROL_TARGET))
    (fsub (fsub m s.CONTROL_TARGET) s.LAST_ERR))) s.DIR_FLAG s.START_LEAD

@[simp] theorem ctrlDoneEffect_SENS (m : F32) (s : State) : (ctrlDoneEffect m s).SENS = s.SENS := rfl
@[simp] theorem ctrlDoneEffect_QA (m : F32) (s : State) : (ctrlDoneEffect m s).QA = s.QA := rfl
@[simp] theorem ctrlDoneEffect_QB (m : F32) (s : State) : (ctrlDoneEffect m s).QB = s.QB := rfl
@[simp] theorem ctrlDoneEffect_ROTOR_OFFSET (m : F32) (s : State) : (ctrlDoneEffect m s).ROTOR_OFFSET = s.ROTOR_OFFSET := rfl
@[simp] theorem ctrlDoneEffect_PHASE_LEAD (m : F32) (s : State) : (ctrlDoneEffect m s).PHASE_LEAD = s.PHASE_LEAD := rfl
@[simp] theorem ctrlDoneEffect_ENC_ANGLE (m : F32) (s : State) : (ctrlDoneEffect m s).ENC_ANGLE = s.ENC_ANGLE := rfl
@[simp] theorem ctrlDoneEffect_DIR_FLAG (m : F32) (s : State) : (ctrlDoneEffect m s).DIR_FLAG = s.DIR_FLAG := rfl
@[simp] theorem ctrlDoneEffect_CONTROL_TARGET (m : F32) (s : State) : (ctrlDoneEffect m s).CONTROL_TARGET = s.CONTROL_TARGET := rfl
@[simp] theorem ctrlDoneEffect_DUTY (m : F32) (s : State) : (ctrlDoneEffect m s).DUTY = closedDuty m s := rfl
@[simp] theorem ctrlDoneEffect_OUT (m : F32) (s : State) : (ctrlDoneEffect m s).OUT = s.OUT := rfl
@[simp] theorem ctrlDoneEffect_PREV_STATE (m : F32) (s : State) : (ctrlDoneEffect m s).PREV_STATE = s.PREV_STATE := rfl
@[simp] theorem ctrlDoneEffect_CTRL_RUN (m : F32) (s : State) : (ctrlDoneEffect m s).CTRL_RUN = s.CTRL_RUN := rfl
@[simp] theorem ctrlDoneEffect_START_LEAD (m : F32) (s : State) : (ctrlDoneEffect m s).START_LEAD = s.START_LEAD := rfl
@[simp] theorem ctrlDoneEffect_CTRL_PHASE (m : F32) (s : State) : (ctrlDoneEffect m s).CTRL_PHASE = .top := rfl
@[simp] theorem ctrlDoneEffect_WAIT_DIR (m : F32) (s : State) : (ctrlDoneEffect m s).WAIT_DIR = s.WAIT_DIR := rfl
@[simp] theorem ctrlDoneEffect_WAIT_GOAL (m : F32) (s : State) : (ctrlDoneEffect m s).WAIT_GOAL = s.WAIT_GOAL := rfl
@[simp] theorem ctrlDoneEffect_INTEG (m : F32) (s : State) : (ctrlDoneEffect m s).INTEG = fadd s.INTEG (fsub m s.CONTROL_TARGET) := rfl
@[simp] theorem ctrlDoneEffect_LAST_ERR (m : F32) (s : State) : (ctrlDoneEffect m s).LAST_ERR = fsub m s.CONTROL_TARGET := rfl
@[simp] theorem ctrlDoneEffect_TMR_RUN (m : F32) (s : State) : (ctrlDoneEffect m s).TMR_RUN = false := rfl
@[simp] theorem ctrlDoneEffect_TMR_ELAPSED (m : F32) (s : State) : (ctrlDoneEffect m s).TMR_ELAPSED = m := rfl
@[simp] theorem ctrlDoneEffect_MODE (m : F32) (s : State) : (ctrlDoneEffect m s).MODE = s.MODE := rfl
@[simp] theorem ctrlDoneEffect_LINE_BUF (m : F32) (s : State) : (ctrlDoneEffect m s).LINE_BUF = s.LINE_BUF := rfl
@[simp] theorem ctrlDoneEffect_CMD_STATE (m : F32) (s : State) : (ctrlDoneEffect m s).CMD_STATE = s.CMD_STATE := rfl
@[simp] theorem ctrlDoneEffect_HOST_PENDING (m : F32) (s : State) : (ctrlDoneEffect m s).HOST_PENDING = s.HOST_PENDING := rfl
@[simp] theorem ctrlDoneEffect_TRACE (m : F32) (s : State) : (ctrlDoneEffect m s).TRACE = s.TRACE := rfl
@[simp] theorem ctrlDoneEffect_REFUSED (m : F32) (s : State) : (ctrlDoneEffect m s).REFUSED = s.REFUSED := rfl
@[simp] theorem ctrlDoneEffect_refusedFor (m : F32) (s : State) : (ctrlDoneEffect m s).refusedFor = s.refusedFor := rfl
@[simp] theorem ctrlDoneEffect_freeCount (m : F32) (s : State) : (ctrlDoneEffect m s).freeCount = s.freeCount := rfl
@[simp] theorem ctrlDoneEffect_cfg (m : F32) (s : State) : (ctrlDoneEffect m s).cfg = s.cfg := rfl
@[simp] theorem ctrlDoneEffect_sched (m : F32) (s : State) : (ctrlDoneEffect m s).sched = s.sched := rfl

/-- The reading of a CTRL_DONE is one the environment can draw, whatever its operand (42_speed_controller.md R111). -/
theorem isReading_readingOf (m : BitVec 32) (s : State) : isReading (readingOf m s) = true := by
  unfold readingOf
  split
  · assumption
  · have hv := (Config.freeReading s.freeCount).isLt
    generalize (Config.freeReading s.freeCount).val = v at hv
    have hn : (BitVec.ofNat 32 v).toNat = v := by rw [BitVec.toNat_ofNat]; omega
    have hs : signBit (BitVec.ofNat 32 v) = false := by
      have h : v < 2 ^ 31 := by omega
      simp [signBit, BitVec.getLsbD, hn, Nat.testBit_lt_two_pow h]
    have hm : magBits (BitVec.ofNat 32 v) = v := by rw [magBits_eq, hn]; omega
    simp only [isReading, isFinite, classify, hm, hs]
    rw [if_neg (by unfold infBits; omega), if_neg (by unfold infBits; omega)]
    rfl

/-- An operand the environment can draw is the reading, and no free one is taken. -/
theorem readingOf_of_isReading {m : BitVec 32} (h : isReading m = true) (s : State) :
    readingOf m s = m ∧ freeCountAfter m s = s.freeCount := ⟨if_pos h, if_pos h⟩

@[simp] theorem closeWindow_SENS (m : BitVec 32) (s : State) : (closeWindow m s).SENS = (ctrlDoneEffect (.word (readingOf m s)) s).SENS := rfl
@[simp] theorem closeWindow_QA (m : BitVec 32) (s : State) : (closeWindow m s).QA = (ctrlDoneEffect (.word (readingOf m s)) s).QA := rfl
@[simp] theorem closeWindow_QB (m : BitVec 32) (s : State) : (closeWindow m s).QB = (ctrlDoneEffect (.word (readingOf m s)) s).QB := rfl
@[simp] theorem closeWindow_ROTOR_OFFSET (m : BitVec 32) (s : State) : (closeWindow m s).ROTOR_OFFSET = (ctrlDoneEffect (.word (readingOf m s)) s).ROTOR_OFFSET := rfl
@[simp] theorem closeWindow_PHASE_LEAD (m : BitVec 32) (s : State) : (closeWindow m s).PHASE_LEAD = (ctrlDoneEffect (.word (readingOf m s)) s).PHASE_LEAD := rfl
@[simp] theorem closeWindow_ENC_ANGLE (m : BitVec 32) (s : State) : (closeWindow m s).ENC_ANGLE = (ctrlDoneEffect (.word (readingOf m s)) s).ENC_ANGLE := rfl
@[simp] theorem closeWindow_DIR_FLAG (m : BitVec 32) (s : State) : (closeWindow m s).DIR_FLAG = (ctrlDoneEffect (.word (readingOf m s)) s).DIR_FLAG := rfl
@[simp] theorem closeWindow_CONTROL_TARGET (m : BitVec 32) (s : State) : (closeWindow m s).CONTROL_TARGET = (ctrlDoneEffect (.word (readingOf m s)) s).CONTROL_TARGET := rfl
@[simp] theorem closeWindow_DUTY (m : BitVec 32) (s : State) : (closeWindow m s).DUTY = (ctrlDoneEffect (.word (readingOf m s)) s).DUTY := rfl
@[simp] theorem closeWindow_OUT (m : BitVec 32) (s : State) : (closeWindow m s).OUT = (ctrlDoneEffect (.word (readingOf m s)) s).OUT := rfl
@[simp] theorem closeWindow_PREV_STATE (m : BitVec 32) (s : State) : (closeWindow m s).PREV_STATE = (ctrlDoneEffect (.word (readingOf m s)) s).PREV_STATE := rfl
@[simp] theorem closeWindow_CTRL_RUN (m : BitVec 32) (s : State) : (closeWindow m s).CTRL_RUN = (ctrlDoneEffect (.word (readingOf m s)) s).CTRL_RUN := rfl
@[simp] theorem closeWindow_START_LEAD (m : BitVec 32) (s : State) : (closeWindow m s).START_LEAD = (ctrlDoneEffect (.word (readingOf m s)) s).START_LEAD := rfl
@[simp] theorem closeWindow_CTRL_PHASE (m : BitVec 32) (s : State) : (closeWindow m s).CTRL_PHASE = (ctrlDoneEffect (.word (readingOf m s)) s).CTRL_PHASE := rfl
@[simp] theorem closeWindow_WAIT_DIR (m : BitVec 32) (s : State) : (closeWindow m s).WAIT_DIR = (ctrlDoneEffect (.word (readingOf m s)) s).WAIT_DIR := rfl
@[simp] theorem closeWindow_WAIT_GOAL (m : BitVec 32) (s : State) : (closeWindow m s).WAIT_GOAL = (ctrlDoneEffect (.word (readingOf m s)) s).WAIT_GOAL := rfl
@[simp] theorem closeWindow_INTEG (m : BitVec 32) (s : State) : (closeWindow m s).INTEG = (ctrlDoneEffect (.word (readingOf m s)) s).INTEG := rfl
@[simp] theorem closeWindow_LAST_ERR (m : BitVec 32) (s : State) : (closeWindow m s).LAST_ERR = (ctrlDoneEffect (.word (readingOf m s)) s).LAST_ERR := rfl
@[simp] theorem closeWindow_TMR_RUN (m : BitVec 32) (s : State) : (closeWindow m s).TMR_RUN = (ctrlDoneEffect (.word (readingOf m s)) s).TMR_RUN := rfl
@[simp] theorem closeWindow_TMR_ELAPSED (m : BitVec 32) (s : State) : (closeWindow m s).TMR_ELAPSED = (ctrlDoneEffect (.word (readingOf m s)) s).TMR_ELAPSED := rfl
@[simp] theorem closeWindow_MODE (m : BitVec 32) (s : State) : (closeWindow m s).MODE = (ctrlDoneEffect (.word (readingOf m s)) s).MODE := rfl
@[simp] theorem closeWindow_LINE_BUF (m : BitVec 32) (s : State) : (closeWindow m s).LINE_BUF = (ctrlDoneEffect (.word (readingOf m s)) s).LINE_BUF := rfl
@[simp] theorem closeWindow_CMD_STATE (m : BitVec 32) (s : State) : (closeWindow m s).CMD_STATE = (ctrlDoneEffect (.word (readingOf m s)) s).CMD_STATE := rfl
@[simp] theorem closeWindow_HOST_PENDING (m : BitVec 32) (s : State) : (closeWindow m s).HOST_PENDING = (ctrlDoneEffect (.word (readingOf m s)) s).HOST_PENDING := rfl
@[simp] theorem closeWindow_TRACE (m : BitVec 32) (s : State) : (closeWindow m s).TRACE = (ctrlDoneEffect (.word (readingOf m s)) s).TRACE := rfl
@[simp] theorem closeWindow_REFUSED (m : BitVec 32) (s : State) : (closeWindow m s).REFUSED = (ctrlDoneEffect (.word (readingOf m s)) s).REFUSED := rfl
@[simp] theorem closeWindow_refusedFor (m : BitVec 32) (s : State) : (closeWindow m s).refusedFor = (ctrlDoneEffect (.word (readingOf m s)) s).refusedFor := rfl
@[simp] theorem closeWindow_freeCount (m : BitVec 32) (s : State) : (closeWindow m s).freeCount = freeCountAfter m s := rfl
@[simp] theorem closeWindow_cfg (m : BitVec 32) (s : State) : (closeWindow m s).cfg = (ctrlDoneEffect (.word (readingOf m s)) s).cfg := rfl
@[simp] theorem closeWindow_sched (m : BitVec 32) (s : State) : (closeWindow m s).sched = (ctrlDoneEffect (.word (readingOf m s)) s).sched := rfl

/-! ### The other composed effects -/

@[simp] theorem syncDriveEffect_SENS (s : State) : (syncDriveEffect s).SENS = s.SENS := by simp [syncDriveEffect]
@[simp] theorem syncDriveEffect_QA (s : State) : (syncDriveEffect s).QA = s.QA := by simp [syncDriveEffect]
@[simp] theorem syncDriveEffect_QB (s : State) : (syncDriveEffect s).QB = s.QB := by simp [syncDriveEffect]
@[simp] theorem syncDriveEffect_ROTOR_OFFSET (s : State) : (syncDriveEffect s).ROTOR_OFFSET = s.ROTOR_OFFSET := by simp [syncDriveEffect]
@[simp] theorem syncDriveEffect_PHASE_LEAD (s : State) : (syncDriveEffect s).PHASE_LEAD = s.PHASE_LEAD := by simp [syncDriveEffect]
@[simp] theorem syncDriveEffect_ENC_ANGLE (s : State) : (syncDriveEffect s).ENC_ANGLE = s.ENC_ANGLE := by simp [syncDriveEffect]
@[simp] theorem syncDriveEffect_DIR_FLAG (s : State) : (syncDriveEffect s).DIR_FLAG = s.DIR_FLAG := by simp [syncDriveEffect]
@[simp] theorem syncDriveEffect_CONTROL_TARGET (s : State) : (syncDriveEffect s).CONTROL_TARGET = s.CONTROL_TARGET := by simp [syncDriveEffect]
@[simp] theorem syncDriveEffect_DUTY (s : State) : (syncDriveEffect s).DUTY = s.DUTY := by simp [syncDriveEffect]
@[simp] theorem syncDriveEffect_PREV_STATE (s : State) : (syncDriveEffect s).PREV_STATE = s.PREV_STATE := by simp [syncDriveEffect]
@[simp] theorem syncDriveEffect_CTRL_RUN (s : State) : (syncDriveEffect s).CTRL_RUN = s.CTRL_RUN := by simp [syncDriveEffect]
@[simp] theorem syncDriveEffect_START_LEAD (s : State) : (syncDriveEffect s).START_LEAD = s.START_LEAD := by simp [syncDriveEffect]
@[simp] theorem syncDriveEffect_CTRL_PHASE (s : State) : (syncDriveEffect s).CTRL_PHASE = s.CTRL_PHASE := by simp [syncDriveEffect]
@[simp] theorem syncDriveEffect_WAIT_DIR (s : State) : (syncDriveEffect s).WAIT_DIR = s.WAIT_DIR := by simp [syncDriveEffect]
@[simp] theorem syncDriveEffect_WAIT_GOAL (s : State) : (syncDriveEffect s).WAIT_GOAL = s.WAIT_GOAL := by simp [syncDriveEffect]
@[simp] theorem syncDriveEffect_INTEG (s : State) : (syncDriveEffect s).INTEG = s.INTEG := by simp [syncDriveEffect]
@[simp] theorem syncDriveEffect_LAST_ERR (s : State) : (syncDriveEffect s).LAST_ERR = s.LAST_ERR := by simp [syncDriveEffect]
@[simp] theorem syncDriveEffect_TMR_RUN (s : State) : (syncDriveEffect s).TMR_RUN = s.TMR_RUN := by simp [syncDriveEffect]
@[simp] theorem syncDriveEffect_TMR_ELAPSED (s : State) : (syncDriveEffect s).TMR_ELAPSED = s.TMR_ELAPSED := by simp [syncDriveEffect]
@[simp] theorem syncDriveEffect_LINE_BUF (s : State) : (syncDriveEffect s).LINE_BUF = s.LINE_BUF := by simp [syncDriveEffect]
@[simp] theorem syncDriveEffect_CMD_STATE (s : State) : (syncDriveEffect s).CMD_STATE = s.CMD_STATE := by simp [syncDriveEffect]
@[simp] theorem syncDriveEffect_HOST_PENDING (s : State) : (syncDriveEffect s).HOST_PENDING = s.HOST_PENDING := by simp [syncDriveEffect]
@[simp] theorem syncDriveEffect_REFUSED (s : State) : (syncDriveEffect s).REFUSED = s.REFUSED := by simp [syncDriveEffect]
@[simp] theorem syncDriveEffect_refusedFor (s : State) : (syncDriveEffect s).refusedFor = s.refusedFor := by simp [syncDriveEffect]
@[simp] theorem syncDriveEffect_freeCount (s : State) : (syncDriveEffect s).freeCount = s.freeCount := by simp [syncDriveEffect]
@[simp] theorem syncDriveEffect_cfg (s : State) : (syncDriveEffect s).cfg = s.cfg := by simp [syncDriveEffect]
@[simp] theorem syncDriveEffect_sched (s : State) : (syncDriveEffect s).sched = s.sched := by simp [syncDriveEffect]
@[simp] theorem syncDriveEffect_MODE (s : State) : (syncDriveEffect s).MODE = .syncSettle := rfl
@[simp] theorem syncDriveEffect_OUT (s : State) :
    (syncDriveEffect s).OUT = drivenOut (driveTableAt s.cfg 0) s.cfg.SYNC_DUTY s.OUT := by simp [syncDriveEffect]
@[simp] theorem syncDriveEffect_TRACE (s : State) :
    (syncDriveEffect s).TRACE = s.TRACE ++ driveEvents (driveTableAt s.cfg 0) s.cfg.SYNC_DUTY := by
  simp [syncDriveEffect]

@[simp] theorem appendByte_SENS (b : Byte) (s : State) : (appendByte b s).SENS = s.SENS := by unfold appendByte; split <;> rfl
@[simp] theorem appendByte_QA (b : Byte) (s : State) : (appendByte b s).QA = s.QA := by unfold appendByte; split <;> rfl
@[simp] theorem appendByte_QB (b : Byte) (s : State) : (appendByte b s).QB = s.QB := by unfold appendByte; split <;> rfl
@[simp] theorem appendByte_ROTOR_OFFSET (b : Byte) (s : State) : (appendByte b s).ROTOR_OFFSET = s.ROTOR_OFFSET := by unfold appendByte; split <;> rfl
@[simp] theorem appendByte_PHASE_LEAD (b : Byte) (s : State) : (appendByte b s).PHASE_LEAD = s.PHASE_LEAD := by unfold appendByte; split <;> rfl
@[simp] theorem appendByte_ENC_ANGLE (b : Byte) (s : State) : (appendByte b s).ENC_ANGLE = s.ENC_ANGLE := by unfold appendByte; split <;> rfl
@[simp] theorem appendByte_DIR_FLAG (b : Byte) (s : State) : (appendByte b s).DIR_FLAG = s.DIR_FLAG := by unfold appendByte; split <;> rfl
@[simp] theorem appendByte_CONTROL_TARGET (b : Byte) (s : State) : (appendByte b s).CONTROL_TARGET = s.CONTROL_TARGET := by unfold appendByte; split <;> rfl
@[simp] theorem appendByte_DUTY (b : Byte) (s : State) : (appendByte b s).DUTY = s.DUTY := by unfold appendByte; split <;> rfl
@[simp] theorem appendByte_OUT (b : Byte) (s : State) : (appendByte b s).OUT = s.OUT := by unfold appendByte; split <;> rfl
@[simp] theorem appendByte_PREV_STATE (b : Byte) (s : State) : (appendByte b s).PREV_STATE = s.PREV_STATE := by unfold appendByte; split <;> rfl
@[simp] theorem appendByte_CTRL_RUN (b : Byte) (s : State) : (appendByte b s).CTRL_RUN = s.CTRL_RUN := by unfold appendByte; split <;> rfl
@[simp] theorem appendByte_START_LEAD (b : Byte) (s : State) : (appendByte b s).START_LEAD = s.START_LEAD := by unfold appendByte; split <;> rfl
@[simp] theorem appendByte_CTRL_PHASE (b : Byte) (s : State) : (appendByte b s).CTRL_PHASE = s.CTRL_PHASE := by unfold appendByte; split <;> rfl
@[simp] theorem appendByte_WAIT_DIR (b : Byte) (s : State) : (appendByte b s).WAIT_DIR = s.WAIT_DIR := by unfold appendByte; split <;> rfl
@[simp] theorem appendByte_WAIT_GOAL (b : Byte) (s : State) : (appendByte b s).WAIT_GOAL = s.WAIT_GOAL := by unfold appendByte; split <;> rfl
@[simp] theorem appendByte_INTEG (b : Byte) (s : State) : (appendByte b s).INTEG = s.INTEG := by unfold appendByte; split <;> rfl
@[simp] theorem appendByte_LAST_ERR (b : Byte) (s : State) : (appendByte b s).LAST_ERR = s.LAST_ERR := by unfold appendByte; split <;> rfl
@[simp] theorem appendByte_TMR_RUN (b : Byte) (s : State) : (appendByte b s).TMR_RUN = s.TMR_RUN := by unfold appendByte; split <;> rfl
@[simp] theorem appendByte_TMR_ELAPSED (b : Byte) (s : State) : (appendByte b s).TMR_ELAPSED = s.TMR_ELAPSED := by unfold appendByte; split <;> rfl
@[simp] theorem appendByte_MODE (b : Byte) (s : State) : (appendByte b s).MODE = s.MODE := by unfold appendByte; split <;> rfl
@[simp] theorem appendByte_CMD_STATE (b : Byte) (s : State) : (appendByte b s).CMD_STATE = s.CMD_STATE := by unfold appendByte; split <;> rfl
@[simp] theorem appendByte_HOST_PENDING (b : Byte) (s : State) : (appendByte b s).HOST_PENDING = s.HOST_PENDING := by unfold appendByte; split <;> rfl
@[simp] theorem appendByte_TRACE (b : Byte) (s : State) : (appendByte b s).TRACE = s.TRACE := by unfold appendByte; split <;> rfl
@[simp] theorem appendByte_REFUSED (b : Byte) (s : State) : (appendByte b s).REFUSED = s.REFUSED := by unfold appendByte; split <;> rfl
@[simp] theorem appendByte_refusedFor (b : Byte) (s : State) : (appendByte b s).refusedFor = s.refusedFor := by unfold appendByte; split <;> rfl
@[simp] theorem appendByte_freeCount (b : Byte) (s : State) : (appendByte b s).freeCount = s.freeCount := by unfold appendByte; split <;> rfl
@[simp] theorem appendByte_cfg (b : Byte) (s : State) : (appendByte b s).cfg = s.cfg := by unfold appendByte; split <;> rfl
@[simp] theorem appendByte_sched (b : Byte) (s : State) : (appendByte b s).sched = s.sched := by unfold appendByte; split <;> rfl

end Sys2Proof.Machine
end

