-- ==== Sys2Proof/Laws/Step.lean ====
section
/-! SUPPORT. What a step can do, said once: the three ways a meaning ends (held, refused, taken), and the effect of each
operation when it is taken. Later proofs cite `exec_next_cases` instead of unfolding exec. -/

namespace Sys2Proof.Machine

/-! ### The shared operations -/

theorem gate_next {b : Bool} {s t : State} {o : StepOutcome} (h : gate b s o = .next t) :
    (b = false ∧ t = s) ∨ (b = true ∧ o = .next t) := by
  unfold gate hold at h
  cases b with
  | false => cases h; exact .inl ⟨rfl, rfl⟩
  | true => exact .inr ⟨rfl, h⟩

@[simp] theorem gate_true (s : State) (o : StepOutcome) : gate true s o = o := rfl
@[simp] theorem gate_false (s : State) (o : StepOutcome) : gate false s o = .next s := rfl

theorem takeStep_next {n : Nat} {s t : State} (h : takeStep n s = .next t) : t = s.retire n := by
  unfold takeStep at h
  cases h
  rfl

theorem takeOrRefuse_next {n : Nat} {e : Except RefuseReason State} {s t : State}
    (h : takeOrRefuse n e s = .next t) :
    (∃ u, e = .ok u ∧ t = u.retire n) ∨ (∃ r, e = .error r ∧ t = (refuse r s).retire n) := by
  cases e with
  | ok u => exact .inl ⟨u, rfl, takeStep_next h⟩
  | error r => exact .inr ⟨r, rfl, takeStep_next h⟩

@[simp] theorem takeOrRefuse_ok (n : Nat) (u s : State) : takeOrRefuse n (.ok u) s = .next (u.retire n) := rfl
@[simp] theorem takeOrRefuse_error (n : Nat) (r : RefuseReason) (s : State) :
    takeOrRefuse n (.error r) s = .next ((refuse r s).retire n) := rfl
@[simp] theorem takeStep_eq (n : Nat) (s : State) : takeStep n s = .next (s.retire n) := rfl

/-- HOST_RX's effect does not depend on the echo: the line and the command state are those of the state before. -/
theorem cmdAfterLine_emit (e : Event) (s : State) : cmdAfterLine (emit e s) = cmdAfterLine s := rfl

/-- The state after a line that ends, with the queue `ops`. -/
def lineEnded (b : Byte) (ops : List CpOp) (s : State) : State :=
  { emit (.echo b) s with CMD_STATE := cmdAfterLine s, LINE_BUF := [], HOST_PENDING := ops }

/-! ### The effect of each operation -/

/-- `Does i s u`: taken from `s`, the operation `i` has the effect `u` (its step word not yet used up). -/
def Does (i : Instr) (s u : State) : Prop :=
  match i with
  | .envSense raw => u = presentSensors raw s
  | .qaFall => u = edge .a false s
  | .qaRise => u = edge .a true s
  | .qbFall => u = edge .b false s
  | .qbRise => u = edge .b true s
  | .poll =>
    (s.PREV_STATE = some (rotorRead s) ∧ u = s) ∨
    (s.PREV_STATE ≠ some (rotorRead s) ∧ ∃ o, s.ROTOR_OFFSET = some o ∧
      u = applyPattern (rotorRead s) s.PHASE_LEAD o s.DUTY { s with PREV_STATE := some (rotorRead s) })
  | .apply => False
  | .rotorRead => False
  | .ctrlTop => u = ctrlTopEffect s
  | .ctrlDone m => u = closeWindow m s
  | .cpWriteTarget t => u = writeTarget (.word t) s
  | .cpStop => u = stopController s
  | .cpWriteLead L => ∃ l, leadOfByte L = some l ∧ u = writeLead l s
  | .cpZeroDuty => u = zeroDuty s
  | .cpStart L => ∃ l, leadOfByte L = some l ∧ l ≠ .stopped ∧ s.CTRL_RUN = .stopped ∧ u = startController l s
  | .reset => u = resetEffect s
  | .syncDrive => u = syncDriveEffect s
  | .syncSample => u = syncSampleEffect s
  | .hostRx b =>
    (isCr b = false ∧ u = appendByte b (emit (.echo b) s)) ∨
    (isCr b = true ∧ ∃ ops, setSpeedOps s.cfg.TAF (cmdAfterLine s).speedTarget = .ok ops ∧ u = lineEnded b ops s)
  | .hostIssue => ∃ op rest, s.HOST_PENDING = op :: rest ∧ performCp op { s with HOST_PENDING := rest } = .ok u

/-- `Refuses i s r`: taken from `s`, the operation `i` is refused for the reason `r` (60_exceptions.md R160). -/
def Refuses (i : Instr) (s : State) (r : RefuseReason) : Prop :=
  match i with
  | .apply => r = .internalOp
  | .rotorRead => r = .internalOp
  | .cpWriteLead L => leadOfByte L = none ∧ r = .badLead
  | .cpStart L =>
    (leadOfByte L = none ∧ r = .badLead) ∨ (leadOfByte L = some .stopped ∧ r = .badLead) ∨
    (∃ l, leadOfByte L = some l ∧ l ≠ .stopped ∧ s.CTRL_RUN = .running ∧ r = .running)
  | .hostRx b => isCr b = true ∧ isnan (cmdAfterLine s).speedTarget = true ∧ r = .badSpeed
  | .hostIssue => ∃ op rest, s.HOST_PENDING = op :: rest ∧ performCp op { s with HOST_PENDING := rest } = .error r
  | .envSense _ | .qaFall | .qaRise | .qbFall | .qbRise | .poll | .ctrlTop | .ctrlDone _ | .cpWriteTarget _ | .cpStop
  | .cpZeroDuty | .reset | .syncDrive | .syncSample => False

theorem performCp_stop (s : State) : performCp .stop s = .ok (stopController s) := rfl

theorem performCp_start_ok {l : Lead} {s u : State} (h : performCp (.start l) s = .ok u) :
    l ≠ .stopped ∧ s.CTRL_RUN = .stopped ∧ u = startController l s := by
  simp only [performCp] at h
  split at h
  · cases h
  · split at h
    · cases h
    · cases h
      rename_i h1 h2
      refine ⟨h1, ?_, rfl⟩
      cases hs : s.CTRL_RUN
      · rfl
      · exact absurd hs h2

theorem performCp_start_error {l : Lead} {s : State} {r : RefuseReason} (h : performCp (.start l) s = .error r) :
    (l = .stopped ∧ r = .badLead) ∨ (l ≠ .stopped ∧ s.CTRL_RUN = .running ∧ r = .running) := by
  simp only [performCp] at h
  split at h
  · cases h
    exact .inl ⟨by assumption, rfl⟩
  · split at h
    · cases h
      exact .inr ⟨by assumption, by assumption, rfl⟩
    · cases h

/-- What a step can do when it answers a next state: it was not enabled and nothing changed; or it was refused and
only the mark is set; or it had its effect. In the last two cases its step word is used up. -/
theorem exec_next_cases {i : Instr} {s t : State} (h : exec i s = .next t) :
    (enabled i s = false ∧ t = s) ∨
    (enabled i s = true ∧ ∃ r, Refuses i s r ∧ t = (refuse r s).retire (wordLength i)) ∨
    (enabled i s = true ∧ ∃ u, Does i s u ∧ t = u.retire (wordLength i)) := by
  cases i with
  | envSense raw => exact .inr (.inr ⟨rfl, _, rfl, takeStep_next h⟩)
  | qaFall => exact (gate_next h).imp id fun ⟨e, h⟩ => .inr ⟨e, _, rfl, takeStep_next h⟩
  | qaRise => exact (gate_next h).imp id fun ⟨e, h⟩ => .inr ⟨e, _, rfl, takeStep_next h⟩
  | qbFall => exact (gate_next h).imp id fun ⟨e, h⟩ => .inr ⟨e, _, rfl, takeStep_next h⟩
  | qbRise => exact (gate_next h).imp id fun ⟨e, h⟩ => .inr ⟨e, _, rfl, takeStep_next h⟩
  | poll =>
    refine (gate_next h).imp id fun ⟨e, h⟩ => .inr ⟨e, ?_⟩
    unfold pollOnce at h
    dsimp only at h
    split at h
    · exact ⟨_, .inl ⟨by assumption, rfl⟩, takeStep_next h⟩
    · split at h
      · cases h
      · exact ⟨_, .inr ⟨by assumption, _, by assumption, rfl⟩, takeStep_next h⟩
  | apply => exact .inr (.inl ⟨rfl, _, rfl, takeStep_next h⟩)
  | rotorRead => exact .inr (.inl ⟨rfl, _, rfl, takeStep_next h⟩)
  | ctrlTop => exact (gate_next h).imp id fun ⟨e, h⟩ => .inr ⟨e, _, rfl, takeStep_next h⟩
  | ctrlDone m => exact (gate_next h).imp id fun ⟨e, h⟩ => .inr ⟨e, _, rfl, takeStep_next h⟩
  | cpWriteTarget t =>
    refine (gate_next h).imp id fun ⟨e, h⟩ => .inr ⟨e, ?_⟩
    exact ⟨_, rfl, takeStep_next h⟩
  | cpStop =>
    refine (gate_next h).imp id fun ⟨e, h⟩ => .inr ⟨e, ?_⟩
    exact ⟨_, rfl, takeStep_next h⟩
  | cpWriteLead L =>
    refine (gate_next h).imp id fun ⟨e, h⟩ => ?_
    rcases takeOrRefuse_next h with ⟨u, hu, ht⟩ | ⟨r, hr, ht⟩
    · refine .inr ⟨e, u, ?_, ht⟩
      unfold performWithLead at hu
      split at hu
      · cases hu
      · cases hu; exact ⟨_, by assumption, rfl⟩
    · refine .inl ⟨e, r, ?_, ht⟩
      unfold performWithLead at hr
      split at hr
      · cases hr; exact ⟨by assumption, rfl⟩
      · cases hr
  | cpZeroDuty =>
    refine (gate_next h).imp id fun ⟨e, h⟩ => .inr ⟨e, ?_⟩
    exact ⟨_, rfl, takeStep_next h⟩
  | cpStart L =>
    refine (gate_next h).imp id fun ⟨e, h⟩ => ?_
    rcases takeOrRefuse_next h with ⟨u, hu, ht⟩ | ⟨r, hr, ht⟩
    · refine .inr ⟨e, u, ?_, ht⟩
      unfold performWithLead at hu
      split at hu
      · cases hu
      · have := performCp_start_ok hu
        exact ⟨_, by assumption, this.1, this.2.1, this.2.2⟩
    · refine .inl ⟨e, r, ?_, ht⟩
      unfold performWithLead at hr
      split at hr
      · cases hr; exact .inl ⟨by assumption, rfl⟩
      · rename_i l hl
        rcases performCp_start_error hr with ⟨rfl, hr2⟩ | ⟨h1, h2, hr2⟩
        · exact .inr (.inl ⟨hl, hr2⟩)
        · exact .inr (.inr ⟨l, hl, h1, h2, hr2⟩)
  | reset => exact .inr (.inr ⟨rfl, _, rfl, takeStep_next h⟩)
  | syncDrive => exact (gate_next h).imp id fun ⟨e, h⟩ => .inr ⟨e, _, rfl, takeStep_next h⟩
  | syncSample => exact (gate_next h).imp id fun ⟨e, h⟩ => .inr ⟨e, _, rfl, takeStep_next h⟩
  | hostRx b =>
    refine (gate_next h).imp id fun ⟨e, h⟩ => ?_
    rcases takeOrRefuse_next h with ⟨u, hu, ht⟩ | ⟨r, hr, ht⟩
    · refine .inr ⟨e, u, ?_, ht⟩
      unfold receiveByte at hu
      dsimp only at hu
      split at hu
      · rename_i hb
        unfold endLine at hu
        dsimp only at hu
        split at hu
        · cases hu
        · rename_i ops hops
          cases hu
          exact .inr ⟨hb, ops, hops, rfl⟩
      · rename_i hb
        cases hu
        exact .inl ⟨by simpa using hb, rfl⟩
    · refine .inl ⟨e, r, ?_, ht⟩
      unfold receiveByte at hr
      dsimp only at hr
      split at hr
      · rename_i hb
        unfold endLine at hr
        dsimp only at hr
        split at hr
        · rename_i r' hr'
          cases hr
          unfold setSpeedOps at hr'
          split at hr'
          · rename_i hn
            cases hr'
            exact ⟨hb, hn, rfl⟩
          · cases hr'
        · cases hr
      · cases hr
  | hostIssue =>
    refine (gate_next h).imp id fun ⟨e, h⟩ => ?_
    rcases takeOrRefuse_next h with ⟨u, hu, ht⟩ | ⟨r, hr, ht⟩
    · refine .inr ⟨e, u, ?_, ht⟩
      unfold issueNext at hu
      split at hu
      · rename_i hp
        exfalso
        simp [enabled, hostIssueEnabled, hp] at e
      · exact ⟨_, _, by assumption, hu⟩
    · refine .inl ⟨e, r, ?_, ht⟩
      unfold issueNext at hr
      split at hr
      · cases hr
      · exact ⟨_, _, by assumption, hr⟩

/-- A step that is not enabled holds (00_scope.md R10). -/
theorem exec_of_not_enabled {i : Instr} {s : State} (h : enabled i s = false) : exec i s = .next s := by
  cases i <;> first
    | exact Bool.noConfusion (show true = false from h)
    | exact (congrArg (fun b => gate b s _) h).trans rfl

/-- The converse of the last case of `exec_next_cases`: an enabled operation with an effect answers that effect. -/
theorem exec_of_does {i : Instr} {s u : State} (he : enabled i s = true) (h : Does i s u) :
    exec i s = .next (u.retire (wordLength i)) := by
  have taken : ∀ o : StepOutcome, gate (enabled i s) s o = o := fun o => by rw [he]; rfl
  cases i with
  | envSense raw => cases h; rfl
  | qaFall => cases h; exact taken _
  | qaRise => cases h; exact taken _
  | qbFall => cases h; exact taken _
  | qbRise => cases h; exact taken _
  | poll =>
    refine (taken _).trans ?_
    unfold pollOnce
    rcases h with ⟨hp, rfl⟩ | ⟨hp, o, ho, rfl⟩
    · simp only [hp, if_true]; rfl
    · simp only [hp, if_false, ho]; rfl
  | apply => exact h.elim
  | rotorRead => exact h.elim
  | ctrlTop => cases h; exact taken _
  | ctrlDone m => cases h; exact taken _
  | cpWriteTarget t => cases h; exact taken _
  | cpStop => cases h; exact taken _
  | cpWriteLead L =>
    obtain ⟨l, hl, rfl⟩ := h
    refine (taken _).trans ?_
    simp only [performWithLead, hl]; rfl
  | cpZeroDuty => cases h; exact taken _
  | cpStart L =>
    obtain ⟨l, hl, h1, h2, rfl⟩ := h
    refine (taken _).trans ?_
    simp only [performWithLead, hl, performCp, h1, if_false, h2, reduceCtorEq]; rfl
  | reset => cases h; rfl
  | syncDrive => cases h; exact taken _
  | syncSample => cases h; exact taken _
  | hostRx b =>
    refine (taken _).trans ?_
    rcases h with ⟨hb, rfl⟩ | ⟨hb, ops, hops, rfl⟩
    · simp only [receiveByte, hb, Bool.false_eq_true, if_false]; rfl
    · have hops' : setSpeedOps (emit (.echo b) s).cfg.TAF (cmdAfterLine (emit (.echo b) s)).speedTarget = .ok ops := hops
      simp only [receiveByte, hb, if_true, endLine, hops']; rfl
  | hostIssue =>
    obtain ⟨op, rest, hp, hu⟩ := h
    refine (taken _).trans ?_
    simp only [issueNext, hp, hu]; rfl

/-- An enabled CTRL_DONE closes the window, whatever its operand (42_speed_controller.md R114; entry 5). -/
theorem exec_ctrlDone {m : BitVec 32} {s : State} (h : enabled (.ctrlDone m) s = true) :
    exec (.ctrlDone m) s = .next ((closeWindow m s).retire 5) :=
  exec_of_does (i := .ctrlDone m) (u := closeWindow m s) h rfl

/-! ### The queue -/

/-- The SET_SPEED sequence has four operations, and its second is CP_STOP (43_command_port.md R130). -/
theorem setSpeedOps_ok {taf speed : F32} {ops : List CpOp} (h : setSpeedOps taf speed = .ok ops) :
    isnan speed = false ∧ ops = [.writeTarget (targetOf taf speed), .stop, .writeLead (leadOfSpeed speed),
      if leadOfSpeed speed = .stopped then .zeroDuty else .start (leadOfSpeed speed)] := by
  unfold setSpeedOps at h
  split at h
  · cases h
  · rename_i hn
    cases h
    exact ⟨by simpa using hn, rfl⟩

theorem setSpeedOps_of_not_nan {taf speed : F32} (h : isnan speed = false) : ∃ ops, setSpeedOps taf speed = .ok ops := by
  unfold setSpeedOps
  rw [if_neg (by simp [h])]
  exact ⟨_, rfl⟩

/-! ### The listing -/

@[simp] theorem stepBytes_byte (b : Byte) (rest : List Entry) : stepBytes (.byte b :: rest) = b :: stepBytes rest := rfl
@[simp] theorem stepBytes_setSpeed (v : F32) (rest : List Entry) : stepBytes (.setSpeed v :: rest) = [] := rfl

/-- Bytes at the head of a listing are what is fetched. -/
@[simp] theorem stepBytes_append (bytes : List Byte) (rest : List Entry) :
    stepBytes (bytes.map .byte ++ rest) = bytes ++ stepBytes rest := by
  induction bytes with
  | nil => rfl
  | cons b bytes ih => exact congrArg (b :: ·) ih

/-- A SET_SPEED at the head leaves no bytes to fetch. -/
theorem stepBytes_of_nextSpeed {l : List Entry} {v : F32} (h : nextSpeed l = some v) :
    stepBytes l = [] ∧ l = .setSpeed v :: l.drop 1 := by
  unfold nextSpeed at h
  split at h
  · cases h
  · cases h
  · cases h; exact ⟨rfl, rfl⟩

/-- SET_SPEED in a listing holds, is refused for a NaN speed, or gives way to the step words of its sequence
(43_command_port.md R130; entry 19). -/
theorem execSetSpeed_cases (v : F32) (s : State) :
    (hostIdle s = false ∧ execSetSpeed v s = .next s) ∨
    (hostIdle s = true ∧ isnan v = true ∧ execSetSpeed v s = .next ((refuse .badSpeed s).retire 1)) ∨
    (hostIdle s = true ∧ isnan v = false ∧ ∃ ops, setSpeedOps s.cfg.TAF v = .ok ops ∧
      execSetSpeed v s = .next { s with sched := wordEntries (ops.map cpWord) ++ s.sched.drop 1 }) := by
  unfold execSetSpeed setSpeedWords
  cases hostIdle s with
  | false => exact .inl ⟨rfl, rfl⟩
  | true =>
    refine .inr ?_
    cases hn : isnan v with
    | true =>
      have : setSpeedOps s.cfg.TAF v = .error .badSpeed := by unfold setSpeedOps; rw [if_pos hn]
      rw [this]
      exact .inl ⟨rfl, rfl, rfl⟩
    | false =>
      obtain ⟨ops, hops⟩ := setSpeedOps_of_not_nan (taf := s.cfg.TAF) hn
      rw [hops]
      exact .inr ⟨rfl, rfl, ops, rfl, rfl⟩

/-- A step of the machine that answers a next state ran the decoded operation, refused a reserved OPID, or took the
SET_SPEED at the head of the listing. -/
theorem step_next_cases {s t : State} (h : step s = .next t) :
    s.cfg.wf = true ∧
    ((∃ i rest, decode (stepBytes s.sched) = .ok (i, rest) ∧ exec i s = .next t) ∨
     (decode (stepBytes s.sched) = .error .badOpid ∧ t = (refuse .badOpid s).retire 1) ∨
     (∃ v, nextSpeed s.sched = some v ∧ execSetSpeed v s = .next t)) := by
  unfold step at h
  split at h
  · rename_i hwf
    refine ⟨hwf, ?_⟩
    split at h
    · exact .inr (.inr ⟨_, by assumption, h⟩)
    · split at h
      · exact .inl ⟨_, _, by assumption, h⟩
      · rename_i e he
        unfold stepWithoutOperation at h
        split at h
        · exact .inr (.inl ⟨he, takeStep_next h⟩)
        · cases h
        · cases h
  · cases h

end Sys2Proof.Machine
end

