-- ==== Sys2Proof/Laws/Invariant.lean ====
section
/-! SUPPORT. Every effect keeps the invariant of Sys2Proof/Safety.lean: one lemma per effect, and the range lemmas they
rest on. -/

namespace Sys2Proof.Machine

/-! ### Ranges -/

theorem inUnit_posZero : inUnitInterval .posZero = true := by decide +kernel
theorem inUnit_one : inUnitInterval .one = true := by decide +kernel

/-- The clamp leaves a value in [0,1] that is neither a NaN nor -0.0, whatever it is given except -0.0
(42_speed_controller.md R116). -/
theorem clampDuty_inUnit {v : F32} (hv : v ≠ .negZero) (d : Lead) (L : Option Lead) :
    inUnitInterval (clampDuty v d L) = true := by
  unfold clampDuty
  dsimp only
  by_cases h1 : fgt v .one = true
  · rw [if_pos h1]
    split
    · exact inUnit_posZero
    · exact inUnit_one
  · rw [if_neg h1]
    split
    · exact inUnit_posZero
    · rename_i h2
      simp only [Bool.or_eq_true, Bool.not_eq_true', decide_eq_true_eq, not_or, Bool.not_eq_false] at h2
      obtain ⟨w⟩ := v
      have hge := h2.1
      unfold fge ordered at hge
      unfold fgt ordered at h1
      simp only [Bool.and_eq_true, Bool.not_eq_true', decide_eq_true_eq, not_and, Int.not_lt] at hge h1
      have hone : isnan (.word 0x3F800000#32) = false := by decide +kernel
      have hk1 : orderKey 0x3F800000#32 = 0x3F800000 := by decide +kernel
      have hk0 : orderKey 0x00000000#32 = 0 := by decide +kernel
      have h3 := h1 ⟨hge.1.1, hone⟩
      have h4 := hge.2
      rw [hk1] at h3
      rw [hk0] at h4
      have hw := word_toNat w
      unfold orderKey signedUnits at h3 h4
      cases hs : signBit w with
      | true =>
        rw [hs] at h3 h4 hw
        simp only [if_true] at h3 h4 hw
        have hz : w.toNat = 2 ^ 31 := by omega
        exact absurd (congrArg F32.word (BitVec.eq_of_toNat_eq (by rw [hz]; decide +kernel))) hv
      | false =>
        rw [hs] at h3 h4 hw
        simp only [Bool.false_eq_true, if_false] at h3 h4 hw
        simp only [inUnitInterval, decide_eq_true_eq]
        omega

/-- The clamp forces a NaN candidate to +0.0 (42_speed_controller.md R116). -/
theorem clampDuty_of_isnan {v : F32} (h : isnan v = true) (d : Lead) (L : Option Lead) : clampDuty v d L = .posZero := by
  simp [clampDuty, fgt, fge, ordered, h]

theorem closedDuty_inUnit {m : F32} {s : State} (h : inUnitInterval s.DUTY = true) :
    inUnitInterval (closedDuty m s) = true :=
  clampDuty_inUnit (fadd_ne_negZero h) _ _

/-- The parameters' ranges (00_scope.md R8). -/
theorem paramsOk_ranges {c : Config} (h : c.wf = true) :
    1 ≤ c.TICKS ∧ isFinite c.KP = true ∧ isFinite c.KI = true ∧ isFinite c.KD = true ∧ isFinite c.TAF = true ∧
    fgt c.TAF .posZero = true ∧ inUnitInterval c.SYNC_DUTY = true ∧ inUnitInterval c.DUTY_RESET = true ∧
    1 ≤ c.BUF_CAP ∧ stateMapOk c.STATE_MAP = true ∧ driveTableOk c.DRIVE_TABLE = true := by
  simp only [Config.wf, paramsOk, Bool.and_eq_true, decide_eq_true_eq] at h
  obtain ⟨⟨⟨⟨⟨⟨⟨⟨⟨⟨h1, h2⟩, h3⟩, h4⟩, h5⟩, h6⟩, h7⟩, h8⟩, h9⟩, h10⟩, h11⟩ := h
  exact ⟨h1, h2, h3, h4, h5, h6, h7, h8, h9, h10, h11⟩

/-- Every entry of a well-formed DRIVE_TABLE is a legal pattern (R86). -/
theorem driveTableAt_legal {c : Config} (h : c.wf = true) (i : Fin 8) : legalPattern (driveTableAt c i) = true := by
  have := (paramsOk_ranges h).2.2.2.2.2.2.2.2.2.2
  simp only [driveTableOk, List.all_cons, List.all_nil, Bool.and_true, Bool.and_eq_true] at this
  obtain ⟨⟨⟨h0, h1, h2, h3, h4, h5, h6, h7⟩, -⟩, -⟩ := this
  fin_cases i <;> assumption

theorem selectPattern_legal {c : Config} (h : c.wf = true) (state offset : Csc) (lead : Lead) :
    legalPattern (selectPattern c state offset lead) = true := by
  unfold selectPattern
  split
  · decide
  · exact driveTableAt_legal h _

/-- A legal pattern leaves one output of every phase at +0.0 (R66, R90). -/
theorem drivenOut_noShootThrough {p : Dpat} (h : legalPattern p = true) (duty : F32) (out : Vector F32 6) :
    NoShootThrough (drivenOut p duty out) := by
  have e : ∀ j : Fin 6, (drivenOut p duty out)[j] = if p.getLsbD j then duty else .posZero :=
    drivenOut_getElem p duty out
  have e0 := e 0
  have e1 := e 1
  have e2 := e 2
  have e3 := e 3
  have e4 := e 4
  have e5 := e 5
  simp only [legalPattern, Bool.and_eq_true, Bool.not_eq_true', Bool.and_eq_false_iff] at h
  obtain ⟨⟨h0, h2⟩, h4⟩ := h
  refine ⟨h0.imp (fun x => ?_) (fun x => ?_), h2.imp (fun x => ?_) (fun x => ?_), h4.imp (fun x => ?_) (fun x => ?_)⟩
  · exact e0.trans (if_neg (Bool.eq_false_iff.mp x))
  · exact e1.trans (if_neg (Bool.eq_false_iff.mp x))
  · exact e2.trans (if_neg (Bool.eq_false_iff.mp x))
  · exact e3.trans (if_neg (Bool.eq_false_iff.mp x))
  · exact e4.trans (if_neg (Bool.eq_false_iff.mp x))
  · exact e5.trans (if_neg (Bool.eq_false_iff.mp x))

theorem drivenOut_inUnit {p : Dpat} {duty : F32} {out : Vector F32 6} (h : inUnitInterval duty = true) (i : Fin 6) :
    inUnitInterval (drivenOut p duty out)[i] = true := by
  rw [drivenOut_getElem]
  split
  · exact h
  · exact inUnit_posZero

theorem isnan_atof32 (f : List Byte) : isnan (atof32 f) = false := by
  unfold atof32
  dsimp only
  split
  · decide +kernel
  · exact isnan_ofSignMag _ (decimalMag_le_inf _ _)

/-- A recognised line gives a speed that is not a NaN (44_host_front_end.md R142). -/
theorem isnan_parseLine {buf : List Byte} {c : CmdState} (h : parseLine buf = some c) : isnan c.speedTarget = false := by
  unfold parseLine at h
  split at h
  · cases h
  · split at h
    · cases h; exact isnan_atof32 _
    · split at h
      · cases h
        unfold parseR
        split
        · show isnan .posZero = false
          decide +kernel
        · exact isnan_atof32 _
      · cases h

theorem isnan_cmdAfterLine {s : State} (h : isnan s.CMD_STATE.speedTarget = false) :
    isnan (cmdAfterLine s).speedTarget = false := by
  unfold cmdAfterLine
  cases hp : parseLine s.LINE_BUF with
  | none => exact h
  | some c => exact isnan_parseLine hp

/-! ### The effects -/

section
variable {s : State}

theorem inv_retire (n : Nat) (h : Inv s) : Inv (s.retire n) :=
  ⟨h.params, h.duty, h.outputs, h.phases, h.offset, h.boot, h.started, h.startLead, h.window, h.timer, h.reading,
    h.buffer, h.speed, h.pending⟩

theorem inv_refuse (r : RefuseReason) (h : Inv s) : Inv (refuse r s) :=
  ⟨h.params, h.duty, h.outputs, h.phases, h.offset, h.boot, h.started, h.startLead, h.window, h.timer, h.reading,
    h.buffer, h.speed, h.pending⟩

/-- The listing is no part of the invariant. -/
theorem inv_sched (l : List Entry) (h : Inv s) : Inv { s with sched := l } :=
  ⟨h.params, h.duty, h.outputs, h.phases, h.offset, h.boot, h.started, h.startLead, h.window, h.timer, h.reading,
    h.buffer, h.speed, h.pending⟩

/-- SET_SPEED in a listing keeps the invariant. -/
theorem inv_execSetSpeed {v : F32} {t : State} (h : Inv s) (ht : execSetSpeed v s = .next t) : Inv t := by
  rcases execSetSpeed_cases v s with ⟨-, e⟩ | ⟨-, -, e⟩ | ⟨-, -, ops, -, e⟩ <;> cases ht.symm.trans e
  · exact h
  · exact inv_retire 1 (inv_refuse _ h)
  · exact inv_sched _ h

theorem inv_emit (e : Event) (h : Inv s) : Inv (emit e s) :=
  ⟨h.params, h.duty, h.outputs, h.phases, h.offset, h.boot, h.started, h.startLead, h.window, h.timer, h.reading,
    h.buffer, h.speed, h.pending⟩

theorem inv_presentSensors (raw : Rsv) (h : Inv s) : Inv (presentSensors raw s) :=
  ⟨h.params, h.duty, h.outputs, h.phases, h.offset, h.boot, h.started, h.startLead, h.window, h.timer, h.reading,
    h.buffer, h.speed, h.pending⟩

theorem inv_edge (ch : Channel) (pol : Bool) (h : Inv s) : Inv (edge ch pol s) := by
  cases ch <;> exact
    ⟨h.params, h.duty, h.outputs, h.phases, h.offset, h.boot, h.started, h.startLead,
      fun hw => ⟨(h.window hw).1, (h.window hw).2.1, (h.window hw).2.2.1, edgeDir_ne_stopped _⟩, h.timer, h.reading,
      h.buffer, h.speed, h.pending⟩

theorem inv_drivePattern {p : Dpat} {duty : F32} (hp : legalPattern p = true) (hd : inUnitInterval duty = true)
    (h : Inv s) : Inv (drivePattern p duty s) := by
  rw [drivePattern_eq]
  exact ⟨h.params, h.duty, fun i => drivenOut_inUnit hd i, drivenOut_noShootThrough hp duty s.OUT, h.offset, h.boot,
    h.started, h.startLead, h.window, h.timer, h.reading, h.buffer, h.speed, h.pending⟩

theorem inv_poll {o : Csc} {r : Csc} (hm : s.MODE = .run) (h : Inv s) :
    Inv (applyPattern r s.PHASE_LEAD o s.DUTY { s with PREV_STATE := some r }) :=
  inv_drivePattern (selectPattern_legal h.params _ _ _) h.duty
    ⟨h.params, h.duty, h.outputs, h.phases, h.offset, fun hb => absurd hm hb, h.started, h.startLead, h.window, h.timer,
      h.reading, h.buffer, h.speed, h.pending⟩

theorem isReading_zero : ∃ w, F32.posZero = .word w ∧ isReading w = true := ⟨_, rfl, by decide +kernel⟩

theorem inv_ctrlTop (hr : s.CTRL_RUN = .running) (h : Inv s) : Inv (ctrlTopEffect s) := by
  unfold ctrlTopEffect
  split
  · exact h
  · rename_i hd
    exact ⟨h.params, h.duty, h.outputs, h.phases, h.offset, h.boot, h.started, h.startLead,
      fun _ => ⟨hr, rfl, rfl, fun e => Lead.noConfusion (e.symm.trans hd)⟩, ⟨fun _ => rfl, fun _ => rfl⟩, isReading_zero,
      h.buffer, h.speed, h.pending⟩
  · rename_i hd
    exact ⟨h.params, h.duty, h.outputs, h.phases, h.offset, h.boot, h.started, h.startLead,
      fun _ => ⟨hr, rfl, rfl, fun e => Lead.noConfusion (e.symm.trans hd)⟩, ⟨fun _ => rfl, fun _ => rfl⟩, isReading_zero,
      h.buffer, h.speed, h.pending⟩

theorem inv_ctrlDone (m : BitVec 32) (h : Inv s) : Inv (closeWindow m s) :=
  ⟨h.params, closedDuty_inUnit h.duty, h.outputs, h.phases, h.offset, h.boot, h.started, h.startLead,
    fun hw => CtrlPhase.noConfusion hw, ⟨fun hw => Bool.noConfusion hw, fun hw => CtrlPhase.noConfusion hw⟩, ⟨_, rfl, isReading_readingOf m s⟩,
    h.buffer, h.speed, h.pending⟩

theorem inv_writeTarget (t : F32) (h : Inv s) : Inv (writeTarget t s) :=
  ⟨h.params, h.duty, h.outputs, h.phases, h.offset, h.boot, h.started, h.startLead, h.window, h.timer, h.reading,
    h.buffer, h.speed, h.pending⟩

theorem inv_writeLead (l : Lead) (h : Inv s) : Inv (writeLead l s) :=
  ⟨h.params, h.duty, h.outputs, h.phases, h.offset, h.boot, h.started, h.startLead, h.window, h.timer, h.reading,
    h.buffer, h.speed, h.pending⟩

theorem inv_zeroDuty (h : Inv s) : Inv (zeroDuty s) :=
  ⟨h.params, inUnit_posZero, h.outputs, h.phases, h.offset, h.boot, h.started, h.startLead, h.window, h.timer,
    h.reading, h.buffer, h.speed, h.pending⟩

theorem inv_stopController (h : Inv s) : Inv (stopController s) :=
  ⟨h.params, h.duty, h.outputs, h.phases, h.offset, fun hb => ⟨rfl, (h.boot hb).2⟩, fun e => CtrlRun.noConfusion e,
    h.startLead, fun hw => CtrlPhase.noConfusion hw,
    ⟨fun hw => Bool.noConfusion hw, fun hw => CtrlPhase.noConfusion hw⟩, h.reading, h.buffer, h.speed,
    let ⟨ops, n, h1, h2, h3, _⟩ := h.pending
    ⟨ops, n, h1, h2, h3, fun _ => rfl⟩⟩

/-- A start keeps the invariant in RUN, with a lead other than 0, when nothing of a sequence is left. -/
theorem inv_startController {l : Lead} (hl : l ≠ .stopped) (hm : s.MODE = .run) (hs : s.CTRL_RUN = .stopped)
    (hp : s.HOST_PENDING = []) (h : Inv s) : Inv (startController l s) where
  params := h.params
  duty := h.duty
  outputs := h.outputs
  phases := h.phases
  offset := h.offset
  boot := fun hb => absurd hm hb
  started := fun _ => rfl
  startLead := fun e => hl (Option.some.inj e)
  window := fun hw => CtrlPhase.noConfusion hw
  timer := by
    constructor
    · intro ht
      have hw := (h.window (h.timer.mp ht)).1
      rw [hs] at hw
      cases hw
    · intro hw
      cases hw
  reading := h.reading
  buffer := h.buffer
  speed := h.speed
  pending := by
    obtain ⟨ops, hops⟩ := setSpeedOps_of_not_nan (taf := s.cfg.TAF) h.speed
    refine ⟨ops, 4, hops, ?_, Nat.le_refl 4, by simp⟩
    obtain ⟨-, rfl⟩ := setSpeedOps_ok hops
    exact hp

theorem inv_syncDrive (hm : s.MODE = .syncDrive) (h : Inv s) : Inv (syncDriveEffect s) := by
  have h' := inv_drivePattern (p := driveTableAt s.cfg 0) (duty := s.cfg.SYNC_DUTY) (driveTableAt_legal h.params 0)
    (paramsOk_ranges h.params).2.2.2.2.2.2.1 h
  have hne : s.MODE ≠ .run := by rw [hm]; simp
  refine ⟨h'.params, h'.duty, h'.outputs, h'.phases, ?_, ?_, h'.started, h'.startLead, h'.window, h'.timer, h'.reading,
    h'.buffer, h'.speed, h'.pending⟩
  · rw [syncDriveEffect_ROTOR_OFFSET, syncDriveEffect_MODE, h.offset]
    simp [hm]
  · intro _
    simpa using h.boot hne

theorem inv_syncSample (h : Inv s) : Inv (syncSampleEffect s) :=
  ⟨h.params, h.duty, h.outputs, h.phases, ⟨fun _ => rfl, fun _ => rfl⟩, fun hb => absurd rfl hb, h.started, h.startLead,
    h.window, h.timer, h.reading, h.buffer, h.speed, h.pending⟩

theorem inv_reset (h : Inv s) : Inv (resetEffect s) where
  params := h.params
  duty := (paramsOk_ranges h.params).2.2.2.2.2.2.2.1
  outputs := by intro i; fin_cases i <;> exact inUnit_posZero
  phases := ⟨.inl rfl, .inl rfl, .inl rfl⟩
  offset := ⟨fun e => Bool.noConfusion e, fun e => Mode.noConfusion e⟩
  boot := fun _ => ⟨rfl, rfl, rfl, rfl⟩
  started := fun e => CtrlRun.noConfusion e
  startLead := fun e => Option.noConfusion rfl (heq_of_eq e)
  window := fun e => CtrlPhase.noConfusion e
  timer := ⟨fun e => Bool.noConfusion e, fun e => CtrlPhase.noConfusion e⟩
  reading := isReading_zero
  buffer := Nat.zero_le _
  speed := by show isnan .posZero = false; decide +kernel
  pending := by
    obtain ⟨ops, hops⟩ := setSpeedOps_of_not_nan (taf := s.cfg.TAF) (speed := .posZero) (by decide +kernel)
    refine ⟨ops, 4, hops, ?_, Nat.le_refl 4, by simp⟩
    obtain ⟨-, rfl⟩ := setSpeedOps_ok hops
    rfl

theorem inv_appendByte (b : Byte) (hm : s.MODE = .run) (h : Inv s) : Inv (appendByte b s) := by
  unfold appendByte
  split
  · rename_i hl
    exact ⟨h.params, h.duty, h.outputs, h.phases, h.offset, fun hb => absurd hm hb, h.started, h.startLead, h.window,
      h.timer, h.reading, by simpa using hl, h.speed, h.pending⟩
  · exact h

theorem inv_lineEnded {ops : List CpOp} (b : Byte) (hm : s.MODE = .run)
    (hops : setSpeedOps s.cfg.TAF (cmdAfterLine s).speedTarget = .ok ops) (h : Inv s) : Inv (lineEnded b ops s) :=
  ⟨h.params, h.duty, h.outputs, h.phases, h.offset, fun hb => absurd hm hb, h.started, h.startLead, h.window, h.timer,
    h.reading, Nat.zero_le _, isnan_cmdAfterLine h.speed, ops, 0, hops, rfl, Nat.zero_le 4, fun e => by omega⟩

/-- What HOST_ISSUE finds at the head of the queue: the sequence of the last speed, operation by operation. -/
theorem pending_head {op : CpOp} {rest : List CpOp} (h : Inv s) (hp : s.HOST_PENDING = op :: rest) :
    ∃ ops n, setSpeedOps s.cfg.TAF s.CMD_STATE.speedTarget = .ok ops ∧ rest = ops.drop (n + 1) ∧ n < 4 ∧
      ((n = 0 ∧ op = .writeTarget (targetOf s.cfg.TAF s.CMD_STATE.speedTarget)) ∨
       (n = 1 ∧ op = .stop) ∨
       (n = 2 ∧ s.CTRL_RUN = .stopped ∧ op = .writeLead (leadOfSpeed s.CMD_STATE.speedTarget)) ∨
       (n = 3 ∧ s.CTRL_RUN = .stopped ∧ rest = [] ∧
        ((leadOfSpeed s.CMD_STATE.speedTarget = .stopped ∧ op = .zeroDuty) ∨
         (leadOfSpeed s.CMD_STATE.speedTarget ≠ .stopped ∧ op = .start (leadOfSpeed s.CMD_STATE.speedTarget))))) := by
  obtain ⟨ops, n, hops, hn, hle, hst⟩ := h.pending
  refine ⟨ops, n, hops, ?_⟩
  obtain ⟨-, rfl⟩ := setSpeedOps_ok hops
  rw [hp] at hn
  have h4 : n = 0 ∨ n = 1 ∨ n = 2 ∨ n = 3 ∨ n = 4 := by omega
  rcases h4 with rfl | rfl | rfl | rfl | rfl
  · simp only [List.drop_zero, List.cons.injEq] at hn
    simp [hn.1, hn.2]
  · simp only [List.drop_succ_cons, List.drop_zero, List.cons.injEq] at hn
    simp [hn.1, hn.2]
  · simp only [List.drop_succ_cons, List.drop_zero, List.cons.injEq] at hn
    simp [hn.1, hn.2, hst (.inl rfl)]
  · simp only [List.drop_succ_cons, List.drop_zero, List.cons.injEq] at hn
    refine ⟨by simp [hn.2], by omega, .inr (.inr (.inr ⟨rfl, hst (.inr rfl), hn.2, ?_⟩))⟩
    rw [hn.1]
    by_cases hl : leadOfSpeed s.CMD_STATE.speedTarget = .stopped
    · exact .inl ⟨hl, by simp [hl]⟩
    · exact .inr ⟨hl, by simp [hl]⟩
  · simp at hn

/-- The queue loses its head: what stays is the rest of the same sequence. -/
theorem inv_dropHead {ops : List CpOp} {n : Nat} (hm : s.MODE = .run)
    (hops : setSpeedOps s.cfg.TAF s.CMD_STATE.speedTarget = .ok ops) (hn : n ≤ 4)
    (hst : n = 2 ∨ n = 3 → s.CTRL_RUN = .stopped) (h : Inv s) : Inv { s with HOST_PENDING := ops.drop n } :=
  ⟨h.params, h.duty, h.outputs, h.phases, h.offset, fun hb => absurd hm hb, h.started, h.startLead, h.window, h.timer,
    h.reading, h.buffer, h.speed, ops, n, hops, rfl, hn, hst⟩

/-- HOST_ISSUE keeps the invariant. -/
theorem inv_issue {op : CpOp} {rest : List CpOp} {u : State} (hm : s.MODE = .run) (h : Inv s)
    (hp : s.HOST_PENDING = op :: rest) (hu : performCp op { s with HOST_PENDING := rest } = .ok u) : Inv u := by
  obtain ⟨ops, n, hops, rfl, hn, ⟨rfl, rfl⟩ | ⟨rfl, rfl⟩ | ⟨rfl, hs, rfl⟩ | ⟨rfl, hs, hr, ⟨hl, rfl⟩ | ⟨hl, rfl⟩⟩⟩ :=
    pending_head h hp
  · cases hu
    exact inv_writeTarget _ (inv_dropHead hm hops (by omega) (by omega) h)
  · cases hu
    have h1 : Inv { s with HOST_PENDING := ops.drop 1 } := inv_dropHead hm hops (by omega) (by omega) h
    have h2 := inv_stopController h1
    exact inv_dropHead (s := stopController { s with HOST_PENDING := ops.drop 1 }) (ops := ops) (n := 2) hm hops
      (by omega) (fun _ => rfl) h2
  · cases hu
    exact inv_writeLead _ (inv_dropHead hm hops (by omega) (fun _ => hs) h)
  · cases hu
    exact inv_zeroDuty (inv_dropHead hm hops (by omega) (by omega) h)
  · obtain ⟨-, -, rfl⟩ := performCp_start_ok hu
    exact inv_startController hl hm hs hr (inv_dropHead hm hops (by omega) (by omega) h)

/-- Under the invariant HOST_ISSUE is never refused (44_host_front_end.md R136, 60_exceptions.md R160). -/
theorem issue_not_refused {op : CpOp} {rest : List CpOp} (h : Inv s) (hp : s.HOST_PENDING = op :: rest) :
    ∃ u, performCp op { s with HOST_PENDING := rest } = .ok u := by
  obtain ⟨ops, n, -, -, -, ⟨-, rfl⟩ | ⟨-, rfl⟩ | ⟨-, -, rfl⟩ | ⟨-, hs, -, ⟨-, rfl⟩ | ⟨hl, rfl⟩⟩⟩ := pending_head h hp
  · exact ⟨_, rfl⟩
  · exact ⟨_, rfl⟩
  · exact ⟨_, rfl⟩
  · exact ⟨_, rfl⟩
  · refine ⟨startController (leadOfSpeed s.CMD_STATE.speedTarget) { s with HOST_PENDING := rest }, ?_⟩
    simp [performCp, hl, hs]

end

end Sys2Proof.Machine
end

