-- ==== Sys2Proof/Laws/PerInstr.lean ====
section
/-! SUPPORT. A statement about every operation as syntax, one lemma per constructor: the OPID alone fixes the length of
the step word (30_encoding.md R77). -/

namespace Sys2Proof.Laws.WordLength

/-- The step word of `i` has as many bytes as its OPID gives it, and that is 1, 2 or 5 (R77). -/
def Statement (i : Instr) : Prop := wordLength i = lengthByOpid (opid i) ∧ wordLength i ∈ [1, 2, 5]

theorem envSense (raw : Rsv) : Statement (.envSense raw) := by
  refine ⟨?_, by simp [wordLength, encode, operandBytesOf]⟩
  show 1 = lengthByOpid (raw.setWidth 8)
  revert raw
  decide

theorem qaFall : Statement .qaFall := by unfold Statement; decide
theorem qaRise : Statement .qaRise := by unfold Statement; decide
theorem qbFall : Statement .qbFall := by unfold Statement; decide
theorem qbRise : Statement .qbRise := by unfold Statement; decide
theorem poll : Statement .poll := by unfold Statement; decide
theorem apply : Statement .apply := by unfold Statement; decide
theorem rotorRead : Statement .rotorRead := by unfold Statement; decide
theorem ctrlTop : Statement .ctrlTop := by unfold Statement; decide
theorem ctrlDone (m : BitVec 32) : Statement (.ctrlDone m) := by
  show 5 = lengthByOpid 0x31 ∧ 5 ∈ [1, 2, 5]
  decide
theorem cpWriteTarget (t : BitVec 32) : Statement (.cpWriteTarget t) := by
  show 5 = lengthByOpid 0x40 ∧ 5 ∈ [1, 2, 5]
  decide
theorem cpStop : Statement .cpStop := by unfold Statement; decide
theorem cpWriteLead (l : Byte) : Statement (.cpWriteLead l) := by
  show 2 = lengthByOpid 0x42 ∧ 2 ∈ [1, 2, 5]
  decide
theorem cpZeroDuty : Statement .cpZeroDuty := by unfold Statement; decide
theorem cpStart (l : Byte) : Statement (.cpStart l) := by
  show 2 = lengthByOpid 0x44 ∧ 2 ∈ [1, 2, 5]
  decide
theorem reset : Statement .reset := by unfold Statement; decide
theorem syncDrive : Statement .syncDrive := by unfold Statement; decide
theorem syncSample : Statement .syncSample := by unfold Statement; decide
theorem hostRx (b : Byte) : Statement (.hostRx b) := by
  show 2 = lengthByOpid 0x60 ∧ 2 ∈ [1, 2, 5]
  decide
theorem hostIssue : Statement .hostIssue := by unfold Statement; decide

end Sys2Proof.Laws.WordLength
end

