-- ==== Sys2Proof/Tests/Slice0.lean ====
section
/-! SUPPORT. Tests: the checks of WellFormed, the step words written out from 30_encoding.md R72 and R73, one or two steps
per operation with the results that 95_test_vectors.md gives, and a witness for every statement with hypotheses. -/

set_option Elab.async false

namespace Sys2Proof.Tests

open Sys2Proof.Machine

/-! ### WellFormed refuses -/

theorem test_wf_refuses_the_internal_operations : Instr.wf .apply = false ∧ Instr.wf .rotorRead = false := by decide

/-- No draw: a NaN, an infinity, a negative reading (42_speed_controller.md R111); -0.0 has its sign bit set. -/
theorem test_wf_refuses_readings_no_environment_draws :
    Instr.wf (.ctrlDone 0x7FC00000) = false ∧ Instr.wf (.ctrlDone 0x7F800000) = false ∧
    Instr.wf (.ctrlDone 0xBE800000) = false ∧ Instr.wf (.ctrlDone 0x80000000) = false ∧
    Instr.wf (.ctrlDone 0x00000000) = true := by decide +kernel

/-- A reserved LEAD code, and a byte with L[7:3] not 0 (vectors C6, C7). -/
theorem test_wf_refuses_bad_leads :
    Instr.wf (.cpWriteLead 0x07) = false ∧ Instr.wf (.cpWriteLead 0x09) = false ∧ Instr.wf (.cpWriteLead 0x06) = true := by
  decide

/-- Lead 0 for CP_START (vector C10). -/
theorem test_wf_refuses_a_start_at_lead_zero :
    Instr.wf (.cpStart 0x00) = false ∧ Instr.wf (.cpStart 0x03) = false ∧ Instr.wf (.cpStart 0x01) = true := by decide

/-- Each check of 00_scope.md R8, broken on its own. -/
theorem test_wf_refuses_parameters :
    let c := Config.ofTestVectors
    c.wf = true ∧ Config.wf { c with TICKS := 0 } = false ∧ Config.wf { c with KP := .posInf } = false ∧
    Config.wf { c with KI := .word 0x7FC00000 } = false ∧ Config.wf { c with KD := .posInf } = false ∧
    Config.wf { c with TAF := .posZero } = false ∧ Config.wf { c with TAF := .posInf } = false ∧
    Config.wf { c with SYNC_DUTY := .negZero } = false ∧ Config.wf { c with DUTY_RESET := .word 0x3F800001 } = false ∧
    Config.wf { c with BUF_CAP := 0 } = false ∧
    Config.wf { c with STATE_MAP := #v[5, 7, 3, 4, 1, 0, 2, 7] } = false ∧
    Config.wf { c with STATE_MAP := #v[7, 5, 5, 4, 1, 0, 2, 7] } = false ∧
    Config.wf { c with DRIVE_TABLE := #v[0x03, 0x18, 0x09, 0x21, 0x24, 0x06, 0x00, 0x00] } = false ∧
    Config.wf { c with DRIVE_TABLE := #v[0x12, 0x18, 0x09, 0x21, 0x24, 0x06, 0x01, 0x00] } = false := by decide +kernel

/-! ### Step words (30_encoding.md R72, R73; vectors E1 to E12) -/

/-- What the decoder reads, without the bytes left over. -/
def decoded (bytes : List Byte) : Option Instr :=
  match decode bytes with
  | .ok (i, []) => some i
  | .ok (_, _ :: _) => none
  | .error _ => none

/-- The reason the decoder refuses. -/
def refusal (bytes : List Byte) : Option DecodeError :=
  match decode bytes with
  | .ok _ => none
  | .error e => some e

theorem test_decode_env : decoded [0b00000101] = some (.envSense 5) ∧ decoded [0b00000000] = some (.envSense 0) := by decide
theorem test_decode_edges :
    decoded [0b00010000] = some .qaFall ∧ decoded [0b00010001] = some .qaRise ∧ decoded [0b00010010] = some .qbFall ∧
    decoded [0b00010011] = some .qbRise := by decide
theorem test_decode_poll :
    decoded [0b00100000] = some .poll ∧ decoded [0b00100001] = some .apply ∧ decoded [0b00100010] = some .rotorRead := by
  decide
theorem test_decode_spd :
    decoded [0b00110000] = some .ctrlTop ∧
    decoded [0b00110001, 0b00111110, 0b10000000, 0b00000000, 0b00000001] = some (.ctrlDone 0x3E800001) := by decide
theorem test_decode_command_port :
    decoded [0b01000000, 0b01111111, 0b10000000, 0b00000000, 0b00000010] = some (.cpWriteTarget 0x7F800002) ∧
    decoded [0b01000001] = some .cpStop ∧ decoded [0b01000010, 0b00000110] = some (.cpWriteLead 6) ∧
    decoded [0b01000011] = some .cpZeroDuty ∧ decoded [0b01000100, 0b00000001] = some (.cpStart 1) := by decide
theorem test_decode_boot :
    decoded [0b01010000] = some .reset ∧ decoded [0b01010001] = some .syncDrive ∧
    decoded [0b01010010] = some .syncSample := by decide
theorem test_decode_host :
    decoded [0b01100000, 0b00001101] = some (.hostRx 0x0D) ∧ decoded [0b01100001] = some .hostIssue := by decide

/-- The reserved OPIDs at the edges of each range (R75), no byte at all, and words cut short. -/
theorem test_decode_refuses :
    refusal [0x08] = some .badOpid ∧ refusal [0x0F] = some .badOpid ∧ refusal [0x14] = some .badOpid ∧
    refusal [0x1F] = some .badOpid ∧ refusal [0x23] = some .badOpid ∧ refusal [0x2F] = some .badOpid ∧
    refusal [0x32] = some .badOpid ∧ refusal [0x3F] = some .badOpid ∧ refusal [0x45] = some .badOpid ∧
    refusal [0x4F] = some .badOpid ∧ refusal [0x53] = some .badOpid ∧ refusal [0x5F] = some .badOpid ∧
    refusal [0x62] = some .badOpid ∧ refusal [0xFF] = some .badOpid ∧ refusal [] = some .noWord ∧
    refusal [0x31, 0, 0, 0] = some .truncated ∧ refusal [0x60] = some .truncated := by decide

/-- The opcode table numbers the bits of a word from its first byte up. -/
theorem test_table_words :
    decodeTableWord 8 0x05 = some (.envSense 5) ∧ decodeTableWord 40 0x0000803E31 = some (.ctrlDone 0x3E800000) ∧
    decodeTableWord 8 0x31 = some (.ctrlDone 0) ∧ decodeTableWord 16 0x0642 = some (.cpWriteLead 6) ∧
    decodeTableWord 8 0x45 = none := by decide

/-! ### Small states -/

/-- 95_test_vectors.md part 1: SYNC_DRIVE, SYNC_SAMPLE and POLL have run with raw = 5; the trace is left out. -/
def booted : State :=
  { State.reset with
    SENS := ⟨true, false, true⟩
    ROTOR_OFFSET := some 0
    PREV_STATE := some 0
    OUT := #v[.posZero, .half, .posZero, .posZero, .half, .posZero]
    MODE := .run }

/-- The controller runs forward, at TOP. -/
def running : State :=
  { booted with CTRL_RUN := .running, START_LEAD := some .forward, DIR_FLAG := .forward, PHASE_LEAD := .forward }

/-- A window whose goal is reached, against the target 0.125 (vector D1). -/
def window : State :=
  { running with
    CONTROL_TARGET := .word 0x3E000000, CTRL_PHASE := .wait, TMR_RUN := true
    WAIT_DIR := some .fwd, WAIT_GOAL := some 120, ENC_ANGLE := 120 }

/-- What a field holds after a step. -/
def after {α : Type} (o : StepOutcome) (f : State → α) : Option α :=
  match o with
  | .next t => some (f t)
  | .fault _ => none
  | .refused _ => none

/-- A listing in front of a state. -/
def listing (bytes : List Byte) (s : State) : State := { s with sched := bytes.map .byte }

/-- The goal of `window` is reached, so it closes, with every operand. -/
theorem window_closes (m : BitVec 32) : exec (.ctrlDone m) window = .next ((closeWindow m window).retire 5) :=
  exec_ctrlDone (by rfl)

/-! ### One step each (95_test_vectors.md part 3) -/

/-- R82, its example. -/
theorem test_envSense : after (exec (.envSense 5) State.reset) (·.SENS) = some ⟨true, false, true⟩ := by decide

/-- Vectors Q1, Q2. -/
theorem test_qaFall :
    after (exec .qaFall { booted with QA := true, ENC_ANGLE := 10 }) (fun t => (t.QA, t.QB, t.ENC_ANGLE, t.DIR_FLAG)) =
      some (false, false, 9, .backward) ∧
    after (exec .qaFall { booted with QA := true, QB := true, ENC_ANGLE := 10 }) (fun t => (t.QA, t.QB, t.ENC_ANGLE, t.DIR_FLAG)) =
      some (false, true, 11, .forward) := by decide

/-- Vectors Q3, Q4. -/
theorem test_qaRise :
    after (exec .qaRise { booted with ENC_ANGLE := 10 }) (fun t => (t.QA, t.QB, t.ENC_ANGLE, t.DIR_FLAG)) =
      some (true, false, 11, .forward) ∧
    after (exec .qaRise { booted with QB := true, ENC_ANGLE := 10 }) (fun t => (t.QA, t.QB, t.ENC_ANGLE, t.DIR_FLAG)) =
      some (true, true, 9, .backward) := by decide

/-- Vectors Q5, Q6. -/
theorem test_qbFall :
    after (exec .qbFall { booted with QB := true, ENC_ANGLE := 10 }) (fun t => (t.QA, t.QB, t.ENC_ANGLE, t.DIR_FLAG)) =
      some (false, false, 11, .forward) ∧
    after (exec .qbFall { booted with QA := true, QB := true, ENC_ANGLE := 10 }) (fun t => (t.QA, t.QB, t.ENC_ANGLE, t.DIR_FLAG)) =
      some (true, false, 9, .backward) := by decide

/-- Vectors Q7, Q8. -/
theorem test_qbRise :
    after (exec .qbRise { booted with ENC_ANGLE := 10 }) (fun t => (t.QA, t.QB, t.ENC_ANGLE, t.DIR_FLAG)) =
      some (false, true, 9, .backward) ∧
    after (exec .qbRise { booted with QA := true, ENC_ANGLE := 10 }) (fun t => (t.QA, t.QB, t.ENC_ANGLE, t.DIR_FLAG)) =
      some (true, true, 11, .forward) := by decide

/-- Vector L3 with trace A2. -/
theorem test_poll_applies :
    after (exec .poll { booted with SENS := ⟨false, false, true⟩, PHASE_LEAD := .forward }) (fun t => (t.PREV_STATE, t.TRACE)) =
      some (some 1, [.pwm 1 .posZero, .pwm 2 .posZero, .pwm 4 .posZero, .pwm 5 .posZero, .pwm 0 .half, .pwm 3 .half]) := by
  decide

/-- Vector L5: raw 0 and raw 7 read the same sentinel. -/
theorem test_poll_stutters :
    after (exec .poll { booted with SENS := ⟨true, true, true⟩, PREV_STATE := some 7 }) (fun t => (t.PREV_STATE, t.TRACE)) =
      some (some 7, []) := by decide

/-- Vectors E8, E9. -/
theorem test_internal_operations :
    after (exec .apply booted) (fun t => (t.REFUSED, t.OUT)) = some (true, booted.OUT) ∧
    after (exec .rotorRead booted) (fun t => (t.REFUSED, t.refusedFor)) = some (true, some .internalOp) := by decide

/-- Vectors T1, T2. -/
theorem test_ctrlTop :
    after (exec .ctrlTop { running with ENC_ANGLE := 37 }) (fun t => (t.WAIT_DIR, t.WAIT_GOAL, t.TMR_RUN, t.CTRL_PHASE)) =
      some (some .fwd, some 157, true, .wait) ∧
    after (exec .ctrlTop { running with DIR_FLAG := .backward, ENC_ANGLE := -4 }) (fun t => (t.WAIT_DIR, t.WAIT_GOAL)) =
      some (some .bwd, some (-124)) := by decide

/-- Vectors D1, D8. -/
theorem test_ctrlDone_updates :
    after (exec (.ctrlDone 0x3E800000) window) (fun t => (t.DUTY, t.INTEG, t.LAST_ERR, t.CTRL_PHASE, t.TMR_RUN)) =
      some (.word 0x3F100000, .word 0x3E000000, .word 0x3E000000, .top, false) ∧
    after (exec (.ctrlDone 0x3E800000) { window with CONTROL_TARGET := .posInf }) (·.INTEG) = some (.word 0xFF800000) ∧
    after (exec (.ctrlDone 0x3E800000) { window with CONTROL_TARGET := .posInf }) (·.DUTY) = some .posZero := by
  refine ⟨by decide +kernel, by decide +kernel, ?_⟩
  rw [exec_ctrlDone (s := { window with CONTROL_TARGET := .posInf }) (by rfl)]
  refine congrArg some (clampDuty_of_isnan (isnan_fadd (.inr (isnan_fadd (.inr ?_)))) _ _)
  exact isnan_fmul_zero_inf (s := false) (t := true) (by decide +kernel) (by decide +kernel)

/-- 3.8, window 3 (KI = 0.25, KD = 0.125), and vector D4. -/
theorem test_ctrlDone_integral_and_mismatch :
    after (exec (.ctrlDone 0x3D800000) { window with
      cfg := { window.cfg with KI := .word 0x3E800000, KD := .word 0x3E000000 }
      DUTY := .word 0x3F200000, INTEG := .word 0x3E000000, LAST_ERR := .posZero }) (fun t => (t.DUTY, t.INTEG, t.LAST_ERR)) =
      some (.word 0x3F1A0000, .word 0x3D800000, .word 0xBD800000) ∧
    after (exec (.ctrlDone 0x3E800000) { window with DIR_FLAG := .backward }) (·.DUTY) = some .posZero := by decide +kernel

/-- Vectors C1, E4. -/
theorem test_cpWriteTarget :
    after (exec (.cpWriteTarget 0x3E000000) booted) (·.CONTROL_TARGET) = some (.word 0x3E000000) := by decide

/-- Vector C2. -/
theorem test_cpStop :
    after (exec .cpStop window) (fun t => (t.CTRL_RUN, t.CTRL_PHASE, t.TMR_RUN, t.DUTY)) =
      some (.stopped, .top, false, .half) := by decide

/-- Vectors C4, C7. -/
theorem test_cpWriteLead :
    after (exec (.cpWriteLead 0x06) booted) (·.PHASE_LEAD) = some .backward ∧
    after (exec (.cpWriteLead 0x09) booted) (fun t => (t.PHASE_LEAD, t.refusedFor)) = some (.stopped, some .badLead) := by
  decide

/-- Vector C8. -/
theorem test_cpZeroDuty : after (exec .cpZeroDuty booted) (fun t => (t.DUTY, t.OUT)) = some (.posZero, booted.OUT) := by
  decide

/-- Vectors C9, C11. -/
theorem test_cpStart :
    after (exec (.cpStart 0x01) { booted with INTEG := .half, LAST_ERR := .half })
      (fun t => (t.CTRL_RUN, t.START_LEAD, t.INTEG, t.LAST_ERR, t.DUTY)) =
      some (.running, some .forward, .posZero, .posZero, .half) ∧
    after (exec (.cpStart 0x06) running) (fun t => (t.START_LEAD, t.refusedFor)) = some (some .forward, some .running) := by
  decide

/-- Vector B8, program P7 step 8. -/
theorem test_reset :
    after (exec .reset window) (fun t => (t.MODE, t.ENC_ANGLE, t.DIR_FLAG, t.DUTY)) =
      some (.syncDrive, 0, .stopped, .half) ∧
    after (exec .reset window) (fun t => (t.ROTOR_OFFSET, t.SENS)) = some (none, ⟨true, false, true⟩) := by decide

/-- Vector B1. -/
theorem test_syncDrive :
    after (exec .syncDrive State.reset) (fun t => (t.MODE, t.TRACE)) =
      some (.syncSettle,
        [.pwm 0 .posZero, .pwm 2 .posZero, .pwm 3 .posZero, .pwm 5 .posZero, .pwm 1 .one, .pwm 4 .one]) := by decide

/-- Vectors B3, B4. -/
theorem test_syncSample :
    after (exec .syncSample { State.reset with MODE := .syncSettle, SENS := ⟨false, false, true⟩ }) (fun t => (t.ROTOR_OFFSET, t.MODE)) =
      some (some 1, .run) ∧
    after (exec .syncSample { State.reset with MODE := .syncSettle, SENS := ⟨true, true, true⟩ }) (·.ROTOR_OFFSET) =
      some (some 7) := by decide

/-- 44_host_front_end.md R134, its example. -/
theorem test_hostRx_ends_a_line :
    after (exec (.hostRx 0x0D) { booted with LINE_BUF := [0x56, 0x38] }) (fun t => (t.CMD_STATE, t.LINE_BUF, t.HOST_PENDING, t.TRACE)) =
      some (⟨.word 0x41000000, .posZero, true, false⟩, [],
        [.writeTarget (.word 0x3E000000), .stop, .writeLead .forward, .start .forward], [.echo 0x0D]) := by decide +kernel

/-- Vectors H3, H10: a full buffer drops the byte, and 0x00 is an ordinary byte. -/
theorem test_hostRx_stores_or_drops :
    after (exec (.hostRx 0x31) { booted with LINE_BUF := List.replicate 16 0x30 }) (fun t => (t.LINE_BUF, t.TRACE)) =
      some (List.replicate 16 0x30, [.echo 0x31]) ∧
    after (exec (.hostRx 0x00) { booted with LINE_BUF := [0x56] }) (·.LINE_BUF) = some [0x56, 0x00] := by decide

/-- Vector H8. -/
theorem test_hostIssue :
    after (exec .hostIssue { running with HOST_PENDING := [.stop, .writeLead .forward, .start .forward] })
      (fun t => (t.CTRL_RUN, t.HOST_PENDING)) = some (.stopped, [.writeLead .forward, .start .forward]) := by decide

/-- R114 with an operand that is no reading (a NaN, an infinity, -0.0): every effect that does not depend on the reading
(entry 5). -/
theorem test_ctrlDone_free_reading :
    (isReading 0x7FC00000 = false ∧ isReading 0x7F800000 = false ∧ isReading 0x80000000 = false) ∧
    ∀ m, isReading m = false →
      after (exec (.ctrlDone m) window) (fun t => (t.CTRL_PHASE, t.TMR_RUN, t.freeCount, t.REFUSED)) =
        some (.top, false, 1, false) ∧
      after (exec (.ctrlDone m) { window with DIR_FLAG := .backward }) (·.DUTY) = some .posZero := by
  refine ⟨by decide +kernel, fun m hr => ?_⟩
  rw [window_closes, exec_ctrlDone (s := { window with DIR_FLAG := .backward }) (by rfl)]
  refine ⟨?_, congrArg some (if_pos (by simp [window, running]))⟩
  simp [after, freeCountAfter, hr, window, running, booted, State.reset]

/-- The pseudo-operations (R79, R130): SET_SPEED 8 and SET_SPEED -0.0 as step words, and QCYCLE_FWD x2. -/
theorem test_pseudo :
    setSpeedWords .one (.word 0x41000000) =
      .ok [.cpWriteTarget 0x3E000000, .cpStop, .cpWriteLead 0x01, .cpStart 0x01] ∧
    setSpeedWords .one .negZero = .ok [.cpWriteTarget 0x7F800000, .cpStop, .cpWriteLead 0x00, .cpZeroDuty] ∧
    qcycleFwdTimes 2 = [.qaRise, .qbRise, .qaFall, .qbFall, .qaRise, .qbRise, .qaFall, .qbFall] := by decide +kernel

/-- Vectors S1, S8: SET_SPEED in a listing gives way to its words; for a NaN it is refused with BadSpeed, and nothing is
written. -/
theorem test_setSpeed_in_a_listing :
    after (step { booted with sched := [.setSpeed (.word 0x41000000), .byte 0x20] }) (fun t => (t.sched, t.REFUSED)) =
      some ([0x40, 0x3E, 0x00, 0x00, 0x00, 0x41, 0x42, 0x01, 0x44, 0x01, 0x20].map .byte, false) ∧
    after (step { booted with sched := [.setSpeed (.word 0x7FC00000), .byte 0x20] })
      (fun t => decide (t = { booted with REFUSED := true, refusedFor := some .badSpeed, sched := [.byte 0x20] })) =
      some true := by decide +kernel

/-- Steps that hold: vectors Q9, T6, C12, H7, H9, L8. -/
theorem test_holds :
    after (exec .qaRise { booted with QA := true }) (·.ENC_ANGLE) = some 0 ∧
    after (exec (.ctrlDone 0) { window with ENC_ANGLE := 119 }) (·.CTRL_PHASE) = some .wait ∧
    after (exec .cpStop { running with HOST_PENDING := [.stop] }) (·.CTRL_RUN) = some .running ∧
    after (exec (.hostRx 0x56) { booted with HOST_PENDING := [.stop] }) (·.TRACE) = some [] ∧
    after (exec .hostIssue booted) (·.REFUSED) = some false ∧
    after (exec .poll { State.reset with MODE := .syncSettle }) (·.PREV_STATE) = some none := by decide

/-- Number conversion: vectors H1b, H1f, H1g, H1h, H1j, H1k, H1m, H1n, H1o. -/
theorem test_atof32 :
    atof32 [0x33] = .word 0x40400000 ∧ atof32 [0x31, 0x65, 0x31] = .word 0x41200000 ∧
    atof32 [0x31, 0x65] = .one ∧ atof32 [0x20, 0x37] = .word 0x40E00000 ∧ atof32 [0x31, 0x65, 0x33, 0x39] = .posInf ∧
    atof32 [0x2D, 0x30] = .negZero ∧ atof32 [0x30, 0x2E, 0x31] = .word 0x3DCCCCCD ∧
    atof32 [0x30, 0x78, 0x31, 0x30] = .posZero ∧ atof32 [0x31, 0x65, 0x2D, 0x34, 0x36] = .posZero := by decide +kernel

/-- Targets: vectors S1, S4, S5, S6, S7, S9. -/
theorem test_targets :
    targetOf .one (.word 0x41000000) = .word 0x3E000000 ∧ targetOf .one .negZero = .posInf ∧
    targetOf .one (.word 0x41480000) = .word 0x3DA3D70A ∧ targetOf .one (.word 0x000AE398) = .posInf ∧
    targetOf .one .posInf = .posZero ∧ targetOf .one (.word 0x40400000) = .word 0x3EAAAAAB := by decide +kernel

/-- The fetch: a listing's first word runs, and a reserved OPID is refused (vectors E1, E7). -/
theorem test_step :
    after (step (listing [0x05, 0x20] State.reset)) (fun t => (t.SENS, t.sched)) = some (⟨true, false, true⟩, [.byte 0x20]) ∧
    after (step (listing [0x08, 0x20] State.reset)) (fun t => (t.refusedFor, t.sched)) = some (some .badOpid, [.byte 0x20]) ∧
    after (step (State.reset.withFetchWord 40 0x0000803E40)) (·.MODE) = some .syncDrive := by decide +kernel
/-! ### Witnesses: states and operands that meet the hypotheses of each statement -/

theorem witness_EncodeOfDecodeIsTheWord : decode [0x60, 0x0D, 0x20] = .ok (.hostRx 0x0D, [0x20]) := rfl

/-- The first and the last OPID of each reserved range. -/
theorem witness_ReservedOpidsAreRefused :
    ∀ op ∈ [0x08, 0x0F, 0x14, 0x1F, 0x23, 0x2F, 0x32, 0x3F, 0x45, 0x4F, 0x53, 0x5F, 0x62, (0xFF : Byte)],
      (listing [op, 0x20] State.reset).cfg.wf = true ∧ (listing [op, 0x20] State.reset).sched = .byte op :: [.byte 0x20] ∧
      (0x08 ≤ op.toNat ∧ op.toNat ≤ 0x0F ∨ 0x14 ≤ op.toNat ∧ op.toNat ≤ 0x1F ∨
        0x23 ≤ op.toNat ∧ op.toNat ≤ 0x2F ∨ 0x32 ≤ op.toNat ∧ op.toNat ≤ 0x3F ∨
        0x45 ≤ op.toNat ∧ op.toNat ≤ 0x4F ∨ 0x53 ≤ op.toNat ∧ op.toNat ≤ 0x5F ∨ 0x62 ≤ op.toNat) := by decide +kernel

theorem witness_StepRunsTheDecodedOperation :
    (listing [0x05, 0x20] State.reset).cfg.wf = true ∧
    decode (stepBytes (listing [0x05, 0x20] State.reset).sched) = .ok (.envSense 5, [0x20]) ∧
    (listing [0x05, 0x20] State.reset).sched = (encode (.envSense 5)).map .byte ++ [.byte 0x20] := ⟨by decide +kernel, rfl, rfl⟩

theorem witness_EveryTakenStepMovesPastItsWord :
    enabled .poll State.reset = false ∧
    ∃ t, exec (.envSense 5) State.reset = .next t ∧ enabled (.envSense 5) State.reset = true :=
  ⟨rfl, _, rfl, rfl⟩

theorem witness_AgentsHoldUntilRun :
    State.reset.MODE ≠ .run ∧ State.MODE { State.reset with MODE := .syncSettle } ≠ .run ∧
    Instr.agent (.ctrlDone 0) = .spd ∧ Instr.agent .hostIssue = .host ∧ Instr.agent (.cpStart 1) = .host := by decide

theorem witness_EncoderEdgesCountOneAndSetTheDirection :
    booted.QA = false ∧ booted.QB = false ∧ State.QA { booted with QA := true, QB := true } = true ∧
    State.QB { booted with QA := true, QB := true } = true := by decide

theorem witness_AngleIsTheNetCountOfEdges :
    (∃ t, EdgeRun booted [true, false] t) ∧ booted.QA = false ∧ booted.QB = false :=
  ⟨⟨_, .edge .qaFall (.other .poll (.edge .qaRise (.start booted) rfl rfl rfl) (.inl (by decide)) (by decide) rfl)
    rfl rfl rfl⟩, rfl, rfl⟩

theorem witness_RotorReadFollowsTheSensorMap :
    booted.cfg.wf = true ∧ booted.cfg.STATE_MAP = Config.defaultStateMap ∧
    ∀ a b c : Bool, State.SENS { booted with SENS := ⟨a, b, c⟩ } = ⟨a, b, c⟩ :=
  ⟨by decide +kernel, rfl, fun _ _ _ => rfl⟩

theorem witness_PatternSelectionUsesTheEuclideanIndex :
    6 ≤ (6 : Csc).toNat ∧ 6 ≤ (7 : Csc).toNat ∧ (5 : Csc).toNat < 6 ∧ (0 : Csc).toNat < 6 := by decide

theorem witness_PatternAtLeadZeroAndOffsetZero : Config.ofTestVectors.wf = true := by decide +kernel

theorem witness_PollIsOneLoopIteration :
    State.reset.MODE ≠ .run ∧ (booted.MODE = .run ∧ booted.PREV_STATE = some (rotorRead booted)) ∧
    let s := { booted with PREV_STATE := none }
    s.MODE = .run ∧ s.PREV_STATE ≠ some (rotorRead s) ∧ s.ROTOR_OFFSET = some 0 := by decide

/-- A POLL that drives a pattern. -/
theorem witness_NoTurnOffFollowsATurnOn :
    ∃ t, exec .poll { booted with PREV_STATE := none } = .next t ∧ (newEvents booted t).length = 6 := ⟨_, rfl, rfl⟩

theorem witness_NoShootThroughAtAnyWrite :
    let s := listing [0x20] { booted with PREV_STATE := none }
    s.cfg.wf = true ∧ NoShootThrough s.OUT ∧ after (step s) (fun t => (newEvents s t).length) = some 6 := by
  decide +kernel

theorem witness_TraceRecordsEveryOutputWrite :
    (∃ t, exec .syncDrive State.reset = .next t) ∧ (∃ t, exec .reset booted = .next t) := ⟨⟨_, rfl⟩, _, rfl⟩

theorem witness_SyncDriveHoldsCommutationStateZero : booted.MODE ≠ .syncDrive ∧ State.reset.MODE = .syncDrive := by decide

theorem witness_SyncSampleCapturesTheOffset :
    booted.MODE ≠ .syncSettle ∧ State.MODE { booted with MODE := .syncSettle } = .syncSettle := by decide

theorem witness_EveryOutputValueHasASource :
    after (exec .syncDrive State.reset) (fun t => decide (t.OUT ≠ State.reset.OUT)) = some true := by decide

theorem witness_CtrlTopOpensTheWindow :
    State.reset.MODE ≠ .run ∧ booted.CTRL_RUN = .stopped ∧ window.CTRL_PHASE = .wait ∧
    (running.MODE = .run ∧ running.CTRL_RUN = .running ∧ running.CTRL_PHASE = .top) ∧ running.DIR_FLAG = .forward ∧
    State.DIR_FLAG { running with DIR_FLAG := .backward } = .backward ∧
    State.DIR_FLAG { running with DIR_FLAG := .stopped } = .stopped := by decide

/-- The goal reached exactly, either way, with the smallest and the largest reading. -/
theorem witness_CtrlDoneUpdatesTheDuty :
    (window.MODE = .run ∧ window.CTRL_RUN = .running ∧ window.CTRL_PHASE = .wait ∧ window.WAIT_GOAL = some 120) ∧
    (window.WAIT_DIR = some .fwd ∧ (120 : Int) ≤ window.ENC_ANGLE) ∧
    (State.WAIT_DIR { window with WAIT_DIR := some .bwd } = some .bwd ∧ window.ENC_ANGLE ≤ 120) ∧
    isFinite (.word 0x00000000) = true ∧ (0x00000000#32).getLsbD 31 = false ∧
    isFinite (.word 0x7F7FFFFF) = true ∧ (0x7F7FFFFF#32).getLsbD 31 = false := by decide +kernel

/-- One edge short of the goal, either way, and the unwritten window. -/
theorem witness_CtrlDoneHoldsBeforeTheGoal :
    State.reset.MODE ≠ .run ∧ booted.CTRL_RUN = .stopped ∧ running.CTRL_PHASE = .top ∧ window.WAIT_GOAL = some 120 ∧
    State.ENC_ANGLE { window with ENC_ANGLE := 119 } < 120 ∧
    (120 : Int) < State.ENC_ANGLE { window with ENC_ANGLE := 121, WAIT_DIR := some .bwd } ∧
    booted.WAIT_DIR = none ∧ booted.WAIT_GOAL = none := by decide

theorem witness_OnlyAnEdgeLiftsTheWait :
    let s := { window with ENC_ANGLE := 119 }
    s.CTRL_PHASE = .wait ∧ s.CTRL_RUN = .running ∧ s.MODE = .run ∧ enabled (.ctrlDone 0) s = false ∧
    after (exec .qaRise s) (fun t => enabled (.ctrlDone 0) t) = some true := by decide

theorem witness_DutyStaysInTheUnitInterval :
    window.cfg.wf = true ∧ inUnitInterval window.DUTY = true ∧
    (∃ t, exec (.ctrlDone 0x3E800000) window = .next t) ∧ enabled (.ctrlDone 0x3E800000) window = true ∧
    State.START_LEAD { window with DIR_FLAG := .backward } ≠ some .backward ∧
    isnan (pidUpdate window.cfg (fsub (.word 0) .posInf) (fadd .posZero (fsub (.word 0) .posInf))
      (fsub (fsub (.word 0) .posInf) .posZero)) = true :=
  ⟨by decide +kernel, by decide +kernel, ⟨_, window_closes _⟩, by decide, by decide,
    isnan_fadd (.inr (isnan_fmul_zero_inf (s := false) (t := true) (by decide +kernel) (by decide +kernel)))⟩

theorem witness_ControllerWritesOnlyItsFields :
    Instr.agent .ctrlTop = .spd ∧ ∃ t, exec .ctrlTop running = .next t := ⟨rfl, _, rfl⟩

theorem witness_AgentsWriteOnlyTheirFields :
    (∃ t, exec (.envSense 3) booted = .next t) ∧ (∃ t, exec .qaRise booted = .next t) ∧
    (∃ t, exec .poll { booted with PREV_STATE := none } = .next t) ∧ (∃ t, exec (.hostRx 0x56) booted = .next t) ∧
    (∃ t, exec .syncDrive State.reset = .next t) := ⟨⟨_, rfl⟩, ⟨_, rfl⟩, ⟨_, rfl⟩, ⟨_, rfl⟩, _, rfl⟩

theorem witness_ProportionalOnlyUpdate :
    window.cfg.wf = true ∧ inUnitInterval window.DUTY = true ∧ window.cfg.KI = .posZero ∧ window.cfg.KD = .posZero ∧
    enabled (.ctrlDone 0x3E800000) window = true ∧ (∃ t, exec (.ctrlDone 0x3E800000) window = .next t) ∧
    isFinite (fadd window.INTEG (fsub (.word 0x3E800000) window.CONTROL_TARGET)) = true ∧
    isFinite (fsub (fsub (.word 0x3E800000) window.CONTROL_TARGET) window.LAST_ERR) = true ∧
    isFinite (fadd window.INTEG (fsub (.word 0x3E800000) .posInf)) = false :=
  ⟨by decide +kernel, by decide +kernel, rfl, rfl, by decide, ⟨_, window_closes _⟩, by decide +kernel, by decide +kernel,
    by decide +kernel⟩

/-- The close at 0.25, slower than the target, and at 0.0625, faster. -/
theorem witness_SlowMotorNeverLowersTheDuty :
    let slow := closeWindow 0x3E800000 window
    let fast := closeWindow 0x3D800000 window
    fgt window.cfg.KP .posZero = true ∧ window.START_LEAD = some window.DIR_FLAG ∧
    isFinite (fadd window.INTEG (fsub slow.TMR_ELAPSED window.CONTROL_TARGET)) = true ∧
    isFinite (fsub (fsub slow.TMR_ELAPSED window.CONTROL_TARGET) window.LAST_ERR) = true ∧
    fgt slow.TMR_ELAPSED window.CONTROL_TARGET = true ∧
    isFinite (fadd window.INTEG (fsub fast.TMR_ELAPSED window.CONTROL_TARGET)) = true ∧
    isFinite (fsub (fsub fast.TMR_ELAPSED window.CONTROL_TARGET) window.LAST_ERR) = true ∧
    flt fast.TMR_ELAPSED window.CONTROL_TARGET = true := by decide +kernel

/-- One closed window, a target rewritten by the queue's head, and the next window opened. -/
theorem witness_DutySequenceIsTheAccumulator :
    (∃ t, PidRun { window with HOST_PENDING := [.writeTarget .one] } [⟨.word 0x3E800000, .word 0x3E000000, .forward⟩] t ∧
      t.CONTROL_TARGET = .one ∧ t.CTRL_PHASE = .wait) ∧
    (performed (.cpStart 1) booted = some (.start .forward) ∧ enabled (.cpStart 1) booted = true ∧
      booted.CTRL_RUN = .stopped ∧ ∃ t, exec (.cpStart 1) booted = .next t) := by
  refine ⟨?_, rfl, by decide, rfl, _, rfl⟩
  generalize hw : ({ window with HOST_PENDING := [.writeTarget .one] } : State) = w
  have hm : enabled (.ctrlDone 0x3E800000) w = true := by subst hw; decide
  have hr : readingOf 0x3E800000 w = 0x3E800000 := (readingOf_of_isReading (by decide +kernel) w).1
  have ht : w.CONTROL_TARGET = .word 0x3E000000 := by subst hw; rfl
  have hd : w.DIR_FLAG = .forward := by subst hw; rfl
  have h1 := PidRun.close 0x3E800000 (.start w) hm (exec_of_does hm rfl)
  simp only [retire_TMR_ELAPSED, closeWindow_TMR_ELAPSED, ctrlDoneEffect_TMR_ELAPSED, hr, ht, hd, List.nil_append] at h1
  have h2 := PidRun.other .hostIssue h1 (fun _ e => Instr.noConfusion e) (by decide)
    (by simp [performed, ← hw]) (by simp [performed, ← hw])
    (exec_of_does (u := writeTarget .one { (closeWindow 0x3E800000 w).retire 5 with HOST_PENDING := [] })
      (by simp [enabled, hostIssueEnabled, inRun, ← hw, window, running, booted])
      ⟨.writeTarget .one, [], by simp [← hw], rfl⟩)
  have h3 := PidRun.other .ctrlTop h2 (fun _ e => Instr.noConfusion e) (by decide) (by simp [performed])
    (by simp [performed])
    (exec_of_does (by simp [enabled, ctrlTopEnabled, inRun, ← hw, window, running, booted]) rfl)
  exact ⟨_, h3, by simp [ctrlTopEffect, hd], by simp [ctrlTopEffect, hd]⟩

theorem witness_CommandPortOperationsWriteTheirRegisters :
    booted.MODE = .run ∧ booted.HOST_PENDING = [] ∧ State.reset.MODE ≠ .run ∧
    State.HOST_PENDING { booted with HOST_PENDING := [.stop] } ≠ [] := by decide

/-- The three legal bytes, and illegal ones next to them. -/
theorem witness_LeadOperationsWriteOrAreRefused :
    booted.MODE = .run ∧ booted.HOST_PENDING = [] ∧ booted.CTRL_RUN = .stopped ∧ running.CTRL_RUN = .running ∧
    (∀ L ∈ [0x02, 0x05, 0x07, 0x08, 0xFF], L ≠ 0x01#8 ∧ L ≠ 0x00#8 ∧ L ≠ 0x06#8) ∧ State.reset.MODE ≠ .run := by decide

/-- A NaN, the smallest speeds of either sign, and the two zeros; a state where SET_SPEED is taken, and two where it waits. -/
theorem witness_SetSpeedIsTheFixedSequence :
    booted.cfg.wf = true ∧ State.sched { booted with sched := [.setSpeed .negZero] } = .setSpeed .negZero :: [] ∧
    booted.MODE = .run ∧ booted.HOST_PENDING = [] ∧ State.reset.MODE ≠ .run ∧
    State.HOST_PENDING { booted with HOST_PENDING := [.stop] } ≠ [] ∧
    fabs (fdiv booted.cfg.TAF (.word 0xC0000000)) = .word ((0x3F : Byte) ++ (0x00 : Byte) ++ (0x00 : Byte) ++ (0x00 : Byte)) ∧
    isnan (.word 0x7FC00000) = true ∧ fgt (.word 0x00000001) .posZero = true ∧ flt (.word 0x80000001) .posZero = true := by
  decide +kernel

theorem witness_TargetIsNeverNaNNorNegative :
    Config.ofTestVectors.wf = true ∧ isnan (.word 0x00000001) = false ∧ isnan .posZero = false ∧ isnan .negZero = false ∧
    isnan .posInf = false ∧ isFinite .posInf = false := by decide +kernel

theorem booted_outputs : ∀ i : Fin 6, inUnitInterval booted.OUT[i] = true := by decide +kernel

theorem zero_speed_ops :
    setSpeedOps .one .posZero = .ok [.writeTarget (targetOf .one .posZero), .stop, .writeLead .stopped, .zeroDuty] := by
  decide +kernel

/-- A booted state with a queue meets the invariant. -/
theorem inv_of_queue (q : List CpOp)
    (hq : ∃ n, q = List.drop n [.writeTarget (targetOf .one .posZero), .stop, .writeLead .stopped, .zeroDuty] ∧ n ≤ 4) :
    Inv { booted with HOST_PENDING := q } where
  params := (by decide +kernel : booted.cfg.wf = true)
  duty := (by decide +kernel : inUnitInterval booted.DUTY = true)
  outputs := booted_outputs
  phases := (by decide : NoShootThrough booted.OUT)
  offset := (by decide : booted.ROTOR_OFFSET.isSome = true ↔ booted.MODE = .run)
  boot := fun h => absurd rfl h
  started := fun h => CtrlRun.noConfusion h
  startLead := (by decide : booted.START_LEAD ≠ some .stopped)
  window := fun h => CtrlPhase.noConfusion h
  timer := (by decide : booted.TMR_RUN = true ↔ booted.CTRL_PHASE = .wait)
  reading := ⟨0, rfl, by decide +kernel⟩
  buffer := (by decide : booted.LINE_BUF.length ≤ booted.cfg.BUF_CAP)
  speed := (by decide +kernel : isnan booted.CMD_STATE.speedTarget = false)
  pending := by
    obtain ⟨n, rfl, hn⟩ := hq
    exact ⟨_, n, zero_speed_ops, rfl, hn, fun _ => rfl⟩

/-- The last step of a zero-speed queue. -/
theorem witness_SetSpeedEndState_lasts :
    let s := { booted with HOST_PENDING := [.zeroDuty] }
    Inv s ∧ s.HOST_PENDING ≠ [] ∧ s.CMD_STATE.speedTarget = .posZero ∧ ∃ t, RunOf keepsStop s t ∧ t.HOST_PENDING = [] :=
  ⟨inv_of_queue _ ⟨3, rfl, by decide⟩, List.cons_ne_nil _ _, rfl, _,
    .step .hostIssue (.start _) ⟨by decide, by decide, fun _ e => Instr.noConfusion e⟩ rfl, rfl⟩

theorem witness_SetSpeedEndState :
    let ops : List CpOp := [.writeTarget (.word 0x3E000000), .stop, .writeLead .forward, .start .forward]
    State.MODE { running with HOST_PENDING := ops } = .run ∧ setSpeedOps .one (.word 0x41000000) = .ok ops ∧
    fgt (.word 0x41000000) .posZero = true ∧
    setSpeedOps .one (.word 0xC0000000) = .ok [.writeTarget .half, .stop, .writeLead .backward, .start .backward] ∧
    flt (.word 0xC0000000) .posZero = true ∧
    setSpeedOps .one .negZero = .ok [.writeTarget .posInf, .stop, .writeLead .stopped, .zeroDuty] :=
  by decide +kernel

theorem witness_HostIssuePerformsTheHead :
    State.reset.MODE ≠ .run ∧ booted.HOST_PENDING = [] ∧
    ∀ op, State.MODE { booted with HOST_PENDING := [op] } = .run ∧
      State.HOST_PENDING { booted with HOST_PENDING := [op] } = op :: [] ∧
      State.CTRL_RUN { booted with HOST_PENDING := [op] } = .stopped ∧
      State.CTRL_RUN { running with HOST_PENDING := [op] } = .running :=
  ⟨by decide, rfl, fun _ => ⟨rfl, rfl, rfl, rfl⟩⟩

/-- A buffer with one place left, and a full one. -/
theorem witness_HostRxTakesOneByte :
    booted.MODE = .run ∧ booted.HOST_PENDING = [] ∧ (List.replicate 15 (0x30 : Byte)).length < booted.cfg.BUF_CAP ∧
    booted.cfg.BUF_CAP ≤ (List.replicate 16 (0x30 : Byte)).length ∧ isnan booted.CMD_STATE.speedTarget = false := by
  decide +kernel

theorem witness_ParseRecognisesTheCommands :
    (∀ b ∈ [(0x31 : Byte), 0x30], b ∉ [(0x56 : Byte), 0x76]) ∧ (0x56 : Byte) ∈ [(0x56 : Byte), 0x76] ∧
    (0x72 : Byte) ∈ [(0x52 : Byte), 0x72] ∧ (0x20 : Byte) ∉ [(0x56 : Byte), 0x76, 0x52, 0x72] := by decide

theorem witness_LineIsTruncatedAndParsed :
    booted.MODE = .run ∧ booted.HOST_PENDING = [] ∧ booted.LINE_BUF = [] ∧ isnan booted.CMD_STATE.speedTarget = false ∧
    (0x0D : Byte) ∉ 0x56 :: List.replicate 17 (0x30 : Byte) := by decide +kernel

/-- White space, a sign, "12" or "12.5", "e+3" and a rest "x" meet all the clauses but the last, which "-x", ".x" and,
after a sign, " 5" and "-5" meet. -/
theorem witness_NumberFieldsReadTheirLongestNumber :
    (∀ b ∈ [(0x20 : Byte)], b ∈ [(0x20 : Byte), 0x09, 0x0A, 0x0B, 0x0C, 0x0D]) ∧
    [(0x2D : Byte)] ∈ [[], [(0x2B : Byte)], [0x2D]] ∧ (∀ b ∈ [(0x31 : Byte), 0x32], isDigit b = true) ∧
    (∀ b ∈ [(0x35 : Byte)], isDigit b = true) ∧ (0x65 : Byte) ∈ [(0x65 : Byte), 0x45] ∧
    [(0x33 : Byte)] ≠ [] ∧ [(0x31 : Byte), 0x32] ++ [0x35] ≠ [] ∧
    (∀ b, [(0x78 : Byte)].head? = some b → isDigit b = false ∧ b ∉ [(0x65 : Byte), 0x45, 0x2E] ∧ b ∉ [(0x2B : Byte), 0x2D] ∧
      b ∉ [(0x20 : Byte), 0x09, 0x0A, 0x0B, 0x0C, 0x0D, 0x2B, 0x2D]) ∧
    (∀ tail, [(0x2E : Byte), 0x78] = 0x2E :: tail → ∀ b, tail.head? = some b → isDigit b = false) ∧
    (∀ b, [(0x2E : Byte), 0x78].head? = some b → isDigit b = false ∧
      b ∉ [(0x20 : Byte), 0x09, 0x0A, 0x0B, 0x0C, 0x0D, 0x2B, 0x2D]) ∧
    (∀ r ∈ [[(0x20 : Byte), 0x35], [0x2D, 0x35]], ∀ b, r.head? = some b → isDigit b = false) := by
  refine ⟨by decide, by decide, by decide, by decide, by decide, by decide, by decide, fun b h => ?_, fun tail h b hb => ?_,
    fun b h => ?_, by decide⟩
  · cases h; decide
  · cases h; cases hb; decide
  · cases h; decide

/-- A decimal that overflows, and one that does not. -/
theorem witness_DecimalConversionRoundsOnce : decimalMag 1 39 = infBits ∧ decimalMag 1 38 < infBits := by decide +kernel

theorem witness_PhasesChangeOnlyAsListed :
    (∃ t, exec .syncDrive State.reset = .next t ∧ t.MODE ≠ State.reset.MODE) ∧
    (∃ t, exec .reset booted = .next t ∧ t.ROTOR_OFFSET ≠ booted.ROTOR_OFFSET) ∧
    (∃ t, exec (.cpStart 1) booted = .next t ∧ t.CTRL_RUN ≠ booted.CTRL_RUN) ∧
    (∃ t, exec .ctrlTop running = .next t ∧ t.CTRL_PHASE ≠ running.CTRL_PHASE) ∧
    (∃ t, exec .cpStop running = .next t ∧ t.CTRL_RUN ≠ running.CTRL_RUN) ∧
    (∃ t, exec .hostIssue { booted with HOST_PENDING := [.stop] } = .next t ∧ t.HOST_PENDING ≠ [.stop]) :=
  ⟨⟨_, rfl, by decide⟩, ⟨_, rfl, by decide⟩, ⟨_, rfl, by decide⟩, ⟨_, rfl, by decide⟩, ⟨_, rfl, by decide⟩, _, rfl,
    by decide⟩

/-- A step that is refused, from a state without the mark and from one with it. -/
theorem witness_RefusedMarkIsSticky :
    after (step (listing [0x21] booted)) (·.REFUSED) = some true ∧ booted.REFUSED = false ∧
    after (step (listing [0x20] { booted with REFUSED := true })) (·.REFUSED) = some true := by decide +kernel

theorem witness_ConfigurationIsNeverWritten : after (step (listing [0x50] booted)) (·.MODE) = some .syncDrive := by
  decide +kernel

/-- Two states that differ in every field no step reads. -/
theorem witness_UnreadFieldsDoNotMatter :
    let s := listing [0x20] booted
    let s' := { s with
      CMD_STATE := ⟨.posZero, .one, true, true⟩, TMR_RUN := true, TMR_ELAPSED := .one, REFUSED := true
      cfg := { s.cfg with SETTLE_TIME := .one, PWM_PERIOD := .one, TIMER_RES := .one } }
    readPart s = readPart s' ∧ s ≠ s' ∧ after (step s) (·.MODE) = some .run := by decide +kernel

theorem witness_EveryStepKeepsTheInvariant :
    let s := listing [0x61] { booted with HOST_PENDING := [.zeroDuty] }
    Inv s ∧ after (step s) (·.DUTY) = some .posZero :=
  ⟨{ inv_of_queue [.zeroDuty] ⟨3, rfl, by decide⟩ with }, by decide +kernel⟩

theorem witness_EveryStopIsNamed :
    Config.wf { Config.ofTestVectors with TICKS := 0 } = false ∧ booted.cfg.wf = true ∧ booted.sched = [] ∧
    stepBytes (listing [0x31, 0x3E] booted).sched ++ [0x80, 0x00, 0x00] = encode (.ctrlDone 0x3E800000) ∧
    enabled (.ctrlDone 0x80000000) window = true ∧ ¬ (isFinite (.word 0x80000000) = true ∧ (0x80000000#32).getLsbD 31 = false) ∧
    isFinite (.word 0x7F800000) = false := by decide +kernel

theorem witness_TheBlockNeverFaults :
    Inv { booted with HOST_PENDING := [.zeroDuty] } ∧
    (∃ t, exec .hostIssue { booted with HOST_PENDING := [.zeroDuty] } = .next t) ∧
    Inv { booted with HOST_PENDING := [] } ∧ enabled (.hostRx 0x56) { booted with HOST_PENDING := [] } = true ∧
    (∃ t, exec (.hostRx 0x56) { booted with HOST_PENDING := [] } = .next t) :=
  ⟨inv_of_queue _ ⟨3, rfl, by decide⟩, ⟨_, rfl⟩, inv_of_queue _ ⟨4, rfl, by decide⟩, rfl, _, rfl⟩

/-- A tie: 1 + 2^-24 lies halfway between 1 and its successor. -/
theorem witness_SumsAreCorrectlyRounded :
    isFinite .one = true ∧ isFinite (.word 0x33800000) = true ∧ isFinite (.word 0x3F800001) = true ∧
    fadd .one (.word 0x33800000) = .one ∧
    (unitsOf .one - (unitsOf .one + unitsOf (.word 0x33800000))).natAbs =
      (unitsOf (.word 0x3F800001) - (unitsOf .one + unitsOf (.word 0x33800000))).natAbs ∧
    isFinite (fsub .one (.word 0x33800000)) = true := by decide +kernel

theorem witness_ProductsAndQuotientsAreCorrectlyRounded :
    fmul .half (.word 0x40400000) = .word 0x3FC00000 ∧ fdiv .one (.word 0x40400000) = .word 0x3EAAAAAB ∧
    unitsOf (.word 0x40400000) ≠ 0 ∧ isFinite (fdiv .one (.word 0x40400000)) = true := by decide +kernel

theorem witness_ComparisonsAreTheOrderOfValues :
    isnan (.word 0xFFFFFFFF) = true ∧ isnan (.word 0x7F800001) = true ∧ isFinite .negZero = true ∧ isFinite .posZero = true := by
  decide +kernel

/-- A run that performs one queued operation and then waits. -/
def drainingRun : Run where
  state n := match n with
    | 0 => { booted with HOST_PENDING := [.zeroDuty] }
    | _ + 1 => { booted with HOST_PENDING := [], DUTY := .posZero }
  word _ := .hostIssue
  step n := match n with
    | 0 => rfl
    | _ + 1 => rfl

theorem witness_QueueDrainsUnderWeakFairness :
    Inv (drainingRun.state 0) ∧ (drainingRun.state 0).MODE = .run ∧ (∀ n, drainingRun.word n ≠ .reset) ∧
    drainingRun.weaklyFair .hostIssue :=
  ⟨inv_of_queue _ ⟨3, rfl, by decide⟩, rfl, fun _ e => Instr.noConfusion e, fun n _ => ⟨n, Nat.le_refl n, rfl⟩⟩

theorem witness_QuiescenceIsCharacterised :
    Inv { booted with HOST_PENDING := [] } ∧ State.MODE { booted with HOST_PENDING := [] } = .run :=
  ⟨inv_of_queue _ ⟨4, rfl, by decide⟩, rfl⟩

end Sys2Proof.Tests
end

section
/-! SUPPORT. Finite binary32 values by their sign and bits 30:0, and correct rounding said once: the value that
`roundMag` gives, with its sign, is the nearest one to the exact result, whatever the operation (00_scope.md R12). -/

namespace Sys2Proof.Machine

/-! ### Finite values -/

/-- The finite values are those whose bits 30:0 lie below the bits of infinity. -/
theorem isFinite_iff (a : F32) : isFinite a = true ↔ magBits a.bits < infBits := by
  unfold isFinite classify
  by_cases hnan : infBits < magBits a.bits
  · simp [hnan, Nat.le_of_lt hnan]
  · by_cases hinf : magBits a.bits = infBits
    · simp [hinf]
    · simp [hnan, hinf]
      omega

theorem classify_of_isFinite {a : F32} (h : isFinite a = true) :
    classify a = .fin (signBit a.bits) (magUnits (magBits a.bits)) := by
  have hlt := (isFinite_iff a).mp h
  unfold classify
  rw [if_neg (by omega), if_neg (by omega)]

theorem isnan_of_isFinite {a : F32} (h : isFinite a = true) : isnan a = false := by
  rw [isnan_eq, classify_of_isFinite h]
  rfl

theorem unitsOf_of_classify {a : F32} {s : Bool} {n : Nat} (h : classify a = .fin s n) :
    unitsOf a = signedUnits s n := by
  unfold unitsOf
  rw [h]

theorem unitsOf_of_isFinite {a : F32} (h : isFinite a = true) :
    unitsOf a = signedUnits (signBit a.bits) (magUnits (magBits a.bits)) :=
  unitsOf_of_classify (classify_of_isFinite h)

theorem unitsOf_ofSignMag (s : Bool) {m : Nat} (h : m < infBits) :
    unitsOf (ofSignMag s m) = signedUnits s (magUnits m) :=
  unitsOf_of_classify (classify_ofSignMag_fin s h)

theorem isFinite_ofSignMag_iff (s : Bool) {m : Nat} (h : m < 2 ^ 31) :
    isFinite (ofSignMag s m) = true ↔ m < infBits := by
  rw [isFinite_iff, ofSignMag, magBits_ofSignMag s h]

/-- Bit 0 of a value is the parity of its bits 30:0. -/
theorem ofSignMag_bit_zero (s : Bool) (m : Nat) : (ofSignMag s m).bits.getLsbD 0 = decide (m % 2 = 1) := by
  have parity : (if s then 2 ^ 31 + m else m) % 2 = m % 2 := by
    cases s with
    | false => rfl
    | true => exact Nat.mul_add_mod 2 (2 ^ 30) m
  rw [ofSignMag, BitVec.getLsbD_ofNat, Nat.testBit_zero, parity]
  rfl

/-! ### Signed magnitudes -/

@[simp] theorem signedUnits_false (n : Nat) : signedUnits false n = n := rfl
@[simp] theorem signedUnits_true (n : Nat) : signedUnits true n = -(n : Int) := rfl

@[simp] theorem natAbs_signedUnits (s : Bool) (n : Nat) : (signedUnits s n).natAbs = n := by
  cases s <;> simp

theorem signedUnits_zero (s : Bool) : signedUnits s 0 = 0 := by cases s <;> rfl

theorem signedUnits_not (s : Bool) (n : Nat) : signedUnits (!s) n = -signedUnits s n := by
  cases s <;> simp

theorem signedUnits_sign_natAbs (z : Int) : signedUnits (decide (z < 0)) z.natAbs = z := by
  by_cases h : z < 0
  · rw [decide_eq_true h, signedUnits_true, Int.ofNat_natAbs_of_nonpos (Int.le_of_lt h), Int.neg_neg]
  · rw [decide_eq_false h, signedUnits_false, Int.natAbs_of_nonneg (Int.not_lt.mp h)]

theorem signedUnits_xor_mul (s t : Bool) (m n : Nat) :
    signedUnits (s ^^ t) (m * n) = signedUnits s m * signedUnits t n := by
  cases s <;> cases t <;> simp

theorem signedUnits_mul_two_pow (s : Bool) (m k : Nat) : signedUnits s m * 2 ^ k = signedUnits s (m * 2 ^ k) := by
  cases s <;> simp

theorem signedUnits_mul_sign (s t : Bool) {n : Nat} (m : Nat) (hn : n ≠ 0) :
    signedUnits s m * (signedUnits t n).sign = signedUnits (s ^^ t) m := by
  have hs : ((n : Int)).sign = 1 := Int.sign_eq_one_of_pos (by omega)
  cases s <;> cases t <;> simp [hs]

/-! ### Negation -/

theorem magBits_fneg (a : F32) : magBits (fneg a).bits = magBits a.bits := by
  simp [magBits, fneg, Nat.and_xor_distrib_right]

theorem signBit_fneg (a : F32) : signBit (fneg a).bits = !signBit a.bits := by
  simp [signBit, fneg]

theorem isFinite_fneg (a : F32) : isFinite (fneg a) = isFinite a := by
  rw [Bool.eq_iff_iff, isFinite_iff, isFinite_iff, magBits_fneg]

theorem unitsOf_fneg {a : F32} (h : isFinite a = true) : unitsOf (fneg a) = -unitsOf a := by
  rw [unitsOf_of_isFinite h, unitsOf_of_isFinite ((isFinite_fneg a).trans h), magBits_fneg, signBit_fneg,
    signedUnits_not]

/-! ### Correct rounding -/

/-- `Rounds x den a`: `a` is `x / den` units, correctly rounded: it is finite exactly below the overflow threshold, and
then no finite value is nearer, and where another value is as near, the last bit of `a` is 0 (00_scope.md R12; entry 15). -/
structure Rounds (x : Int) (den : Nat) (a : F32) : Prop where
  finite_iff : isFinite a = true ↔ x.natAbs < (2 ^ 25 - 1) * 2 ^ 252 * den
  nearest : ∀ c, isFinite c = true → isFinite a = true → (unitsOf a * den - x).natAbs ≤ (unitsOf c * den - x).natAbs
  tie : ∀ c, isFinite c = true → isFinite a = true → (unitsOf a * den - x).natAbs = (unitsOf c * den - x).natAbs →
    unitsOf c ≠ unitsOf a → a.bits.getLsbD 0 = false

/-- Values of one sign are as far apart as their magnitudes are. -/
theorem natAbs_signedUnits_sub_same (s : Bool) (u den num : Nat) :
    (signedUnits s u * den - signedUnits s num).natAbs = ((u * den : Nat) - num : Int).natAbs := by
  cases s with
  | false => simp
  | true => rw [signedUnits_true, signedUnits_true, Nat.cast_mul, Int.neg_mul]; omega

/-- A value of the other sign lies on the other side of zero. -/
theorem natAbs_signedUnits_sub_opposite {s t : Bool} (h : t ≠ s) (u den num : Nat) :
    (signedUnits t u * den - signedUnits s num).natAbs = u * den + num := by
  cases s with
  | false =>
    rw [(Bool.not_eq_false t).mp h, signedUnits_true, signedUnits_false, Int.neg_mul, ← Nat.cast_mul]
    omega
  | true =>
    rw [(Bool.not_eq_true t).mp h, signedUnits_true, signedUnits_false, ← Nat.cast_mul]
    omega

/-- `roundMag_nearest` with signs: a value of the other sign is no nearer than zero is. -/
theorem roundMag_nearest_signed (s t : Bool) (num den w : Nat) (hd : 0 < den) (hfin : roundMag num den < infBits) :
    (signedUnits s (magUnits (roundMag num den)) * den - signedUnits s num).natAbs ≤
      (signedUnits t (magUnits w) * den - signedUnits s num).natAbs ∧
    ((signedUnits s (magUnits (roundMag num den)) * den - signedUnits s num).natAbs =
      (signedUnits t (magUnits w) * den - signedUnits s num).natAbs →
      signedUnits t (magUnits w) ≠ signedUnits s (magUnits (roundMag num den)) → roundMag num den % 2 = 0) := by
  rw [natAbs_signedUnits_sub_same]
  by_cases hts : t = s
  · subst hts
    rw [natAbs_signedUnits_sub_same]
    obtain ⟨near, even⟩ := roundMag_nearest num den w hd hfin
    exact ⟨near, fun e hne => even e fun hw => hne (by rw [hw])⟩
  · rw [natAbs_signedUnits_sub_opposite hts]
    obtain ⟨near, even⟩ := roundMag_nearest num den 0 hd hfin
    rw [magUnits_zero] at near even
    refine ⟨by omega, fun e hne => even (by omega) fun hr => hne ?_⟩
    have hw : magUnits w * den = 0 := by omega
    rw [(Nat.mul_eq_zero.mp hw).resolve_right (Nat.ne_of_gt hd), ← hr, magUnits_zero, signedUnits_zero, signedUnits_zero]

/-- The one rounding step of every operation: `roundMag` with the sign of the exact result. -/
theorem rounds_ofSignMag (s : Bool) (num den : Nat) (hd : 0 < den) :
    Rounds (signedUnits s num) den (ofSignMag s (roundMag num den)) := by
  have hle := roundMag_le_inf num den
  have fin := isFinite_ofSignMag_iff s (Nat.lt_of_le_of_lt hle infBits_lt)
  refine ⟨?_, fun c hc ha => ?_, fun c hc ha => ?_⟩
  · rw [natAbs_signedUnits]
    calc isFinite (ofSignMag s (roundMag num den)) = true
      _ ↔ roundMag num den < infBits := fin
      _ ↔ roundMag num den ≠ infBits := Nat.lt_iff_le_and_ne.trans (and_iff_right hle)
      _ ↔ ¬ (2 ^ 25 - 1) * 2 ^ 252 * den ≤ num := not_congr (roundMag_overflow num den hd)
      _ ↔ num < (2 ^ 25 - 1) * 2 ^ 252 * den := Nat.not_le
  all_goals
    have near := roundMag_nearest_signed s (signBit c.bits) num den (magBits c.bits) hd (fin.mp ha)
    rw [unitsOf_ofSignMag s (fin.mp ha), unitsOf_of_isFinite hc]
  · exact near.1
  · intro e hne
    rw [ofSignMag_bit_zero, near.2 e hne]
    rfl

theorem rounds_addFinite (s : Bool) (m : Nat) (t : Bool) (n : Nat) :
    Rounds (signedUnits s m + signedUnits t n) 1 (addFinite s m t n) := by
  unfold addFinite
  dsimp only
  split
  · rename_i hz
    have h := rounds_ofSignMag (s && t) 0 1 Nat.one_pos
    rw [roundMag_zero, signedUnits_zero] at h
    rwa [hz]
  · have h := rounds_ofSignMag (decide (signedUnits s m + signedUnits t n < 0))
      (signedUnits s m + signedUnits t n).natAbs 1 Nat.one_pos
    rwa [signedUnits_sign_natAbs] at h

/-! ### The operations -/

theorem rounds_sumOr (nan : F32) {a b : F32} (ha : isFinite a = true) (hb : isFinite b = true) :
    Rounds (unitsOf a + unitsOf b) 1 (sumOr nan a b) := by
  unfold sumOr
  rw [classify_of_isFinite ha, classify_of_isFinite hb, unitsOf_of_isFinite ha, unitsOf_of_isFinite hb]
  exact rounds_addFinite _ _ _ _

theorem rounds_fadd {a b : F32} (ha : isFinite a = true) (hb : isFinite b = true) :
    Rounds (unitsOf a + unitsOf b) 1 (fadd a b) := rounds_sumOr _ ha hb

theorem rounds_fsub {a b : F32} (ha : isFinite a = true) (hb : isFinite b = true) :
    Rounds (unitsOf a - unitsOf b) 1 (fsub a b) := by
  have h := rounds_sumOr (nanOf .sub a b) ha ((isFinite_fneg b).trans hb)
  rwa [unitsOf_fneg hb, ← sub_eq_add_neg] at h

theorem fmul_of_classify {a b : F32} {s t : Bool} {m n : Nat} (ha : classify a = .fin s m) (hb : classify b = .fin t n) :
    fmul a b = ofSignMag (s ^^ t) (roundMag (m * n) (2 ^ 149)) := by
  unfold fmul
  rw [ha, hb]

theorem rounds_fmul {a b : F32} (ha : isFinite a = true) (hb : isFinite b = true) :
    Rounds (unitsOf a * unitsOf b) (2 ^ 149) (fmul a b) := by
  rw [fmul_of_classify (classify_of_isFinite ha) (classify_of_isFinite hb), unitsOf_of_isFinite ha,
    unitsOf_of_isFinite hb, ← signedUnits_xor_mul]
  exact rounds_ofSignMag _ _ _ (Nat.two_pow_pos 149)

theorem fdiv_of_classify {a b : F32} {s t : Bool} {m n : Nat} (ha : classify a = .fin s m) (hb : classify b = .fin t n)
    (hn : n ≠ 0) : fdiv a b = ofSignMag (s ^^ t) (roundMag (m * 2 ^ 149) n) := by
  unfold fdiv
  rw [ha, hb]
  exact if_neg hn

/-- The quotient over the magnitude of the divisor, whose sign goes to the dividend. -/
theorem rounds_fdiv {a b : F32} (ha : isFinite a = true) (hb : isFinite b = true) (h0 : unitsOf b ≠ 0) :
    Rounds (unitsOf a * 2 ^ 149 * (unitsOf b).sign) (unitsOf b).natAbs (fdiv a b) := by
  have hn : magUnits (magBits b.bits) ≠ 0 := by
    intro h
    rw [unitsOf_of_isFinite hb, h, signedUnits_zero] at h0
    exact h0 rfl
  rw [fdiv_of_classify (classify_of_isFinite ha) (classify_of_isFinite hb) hn, unitsOf_of_isFinite ha,
    unitsOf_of_isFinite hb, signedUnits_mul_two_pow, signedUnits_mul_sign _ _ _ hn, natAbs_signedUnits]
  exact rounds_ofSignMag _ _ _ (Nat.pos_of_ne_zero hn)

/-- A distance to a quotient, with the sign of the divisor moved to the dividend. -/
theorem natAbs_mul_natAbs_sub (x y : Int) {z : Int} (h : z ≠ 0) :
    (x * z.natAbs - y * z.sign).natAbs = (x * z - y).natAbs := by
  obtain hz | hz := Int.lt_or_gt_of_ne h
  · rw [Int.sign_eq_neg_one_of_neg hz, Int.ofNat_natAbs_of_nonpos (Int.le_of_lt hz), ← Int.natAbs_neg]
    congr 1
    ring
  · rw [Int.sign_eq_one_of_pos hz, Int.natAbs_of_nonneg (Int.le_of_lt hz), Int.mul_one]

/-! ### The order -/

/-- Magnitudes with signs are ordered as their bits with the same signs are; the two zeros are equal. -/
theorem signedUnits_lt_iff (s t : Bool) (m n : Nat) :
    signedUnits s (magUnits m) < signedUnits t (magUnits n) ↔ signedUnits s m < signedUnits t n := by
  have hmn : magUnits m < magUnits n ↔ m < n := magUnits_strictMono.lt_iff_lt
  have hnm : magUnits n < magUnits m ↔ n < m := magUnits_strictMono.lt_iff_lt
  have hm : magUnits m = 0 ↔ m = 0 := magUnits_eq_zero
  have hn : magUnits n = 0 ↔ n = 0 := magUnits_eq_zero
  cases s <;> cases t <;> simp only [signedUnits_false, signedUnits_true] <;> omega

/-- The order of the places is the order of the values. -/
theorem orderKey_lt_iff {a b : F32} (ha : isFinite a = true) (hb : isFinite b = true) :
    orderKey a.bits < orderKey b.bits ↔ unitsOf a < unitsOf b := by
  rw [unitsOf_of_isFinite ha, unitsOf_of_isFinite hb, signedUnits_lt_iff]
  rfl

/-- Every finite value has its place between those of the infinities. -/
theorem orderKey_of_isFinite {a : F32} (h : isFinite a = true) :
    -(infBits : Int) < orderKey a.bits ∧ orderKey a.bits < infBits := by
  have hlt := (isFinite_iff a).mp h
  unfold orderKey
  cases signBit a.bits <;> simp only [signedUnits_false, signedUnits_true] <;> omega

theorem ordered_of_isnan {rel : Int → Int → Bool} {a b : F32} (h : isnan a = true ∨ isnan b = true) :
    ordered rel a b = false := by
  unfold ordered
  rcases h with h | h <;> simp [h]

theorem ordered_of_not_nan (rel : Int → Int → Bool) {a b : F32} (ha : isnan a = false) (hb : isnan b = false) :
    ordered rel a b = rel (orderKey a.bits) (orderKey b.bits) := by
  unfold ordered
  simp [ha, hb]

end Sys2Proof.Machine
end

section
/-! SUPPORT. What the steps keep and how they end: the effect of an operation leaves the listing and the mark alone,
and an operation either answers a next state or is the POLL of 10_state.md R24. -/

namespace Sys2Proof.Machine

theorem ctrlTopEffect_keeps (s : State) :
    (ctrlTopEffect s).sched = s.sched ∧ (ctrlTopEffect s).REFUSED = s.REFUSED ∧
    (ctrlTopEffect s).refusedFor = s.refusedFor := by
  unfold ctrlTopEffect
  split <;> exact ⟨rfl, rfl, rfl⟩

/-- No command-port operation touches the listing, the queue or the mark (43_command_port.md R123 to R127). -/
theorem performCp_keeps {op : CpOp} {s u : State} (h : performCp op s = .ok u) :
    u.sched = s.sched ∧ u.HOST_PENDING = s.HOST_PENDING ∧ u.REFUSED = s.REFUSED ∧ u.refusedFor = s.refusedFor := by
  cases op with
  | start l =>
    obtain ⟨-, -, rfl⟩ := performCp_start_ok h
    exact ⟨rfl, rfl, rfl, rfl⟩
  | writeTarget t => cases h; exact ⟨rfl, rfl, rfl, rfl⟩
  | stop => cases h; exact ⟨rfl, rfl, rfl, rfl⟩
  | writeLead l => cases h; exact ⟨rfl, rfl, rfl, rfl⟩
  | zeroDuty => cases h; exact ⟨rfl, rfl, rfl, rfl⟩

/-- The effect of an operation leaves the listing (it is the step that uses up the word) and the mark as they are. -/
theorem does_keeps {i : Instr} {s u : State} (h : Does i s u) :
    u.sched = s.sched ∧ u.REFUSED = s.REFUSED ∧ u.refusedFor = s.refusedFor := by
  cases i with
  | poll => obtain ⟨-, rfl⟩ | ⟨-, o, -, rfl⟩ := h <;> simp [applyPattern]
  | apply => exact h.elim
  | rotorRead => exact h.elim
  | ctrlTop => cases h; exact ctrlTopEffect_keeps s
  | cpWriteLead L => obtain ⟨l, -, rfl⟩ := h; simp
  | cpStart L => obtain ⟨l, -, -, -, rfl⟩ := h; simp
  | hostRx b => obtain ⟨-, rfl⟩ | ⟨-, ops, -, rfl⟩ := h <;> simp [lineEnded]
  | hostIssue =>
    obtain ⟨op, rest, -, hu⟩ := h
    obtain ⟨hsched, -, hmark, hreason⟩ := performCp_keeps hu
    exact ⟨hsched, hmark, hreason⟩
  | envSense _ | qaFall | qaRise | qbFall | qbRise | ctrlDone _ | cpWriteTarget _ | cpStop | cpZeroDuty | reset
  | syncDrive | syncSample => cases h; simp

theorem gate_answers {b : Bool} {s : State} {o : StepOutcome} (h : ∃ t, o = .next t) : ∃ t, gate b s o = .next t := by
  cases b with
  | false => exact ⟨s, rfl⟩
  | true => exact h

theorem takeOrRefuse_answers (n : Nat) (e : Except RefuseReason State) (s : State) :
    ∃ t, takeOrRefuse n e s = .next t := by
  cases e with
  | ok u => exact ⟨_, rfl⟩
  | error r => exact ⟨_, rfl⟩

/-- One iteration of the poll answers a next state, or faults at an unwritten ROTOR_OFFSET (10_state.md R24). -/
theorem pollOnce_cases (s : State) :
    (∃ t, pollOnce s = .next t) ∨
    (s.PREV_STATE ≠ some (rotorRead s) ∧ s.ROTOR_OFFSET = none ∧ pollOnce s = .fault .rotorOffsetUnwritten) := by
  unfold pollOnce
  by_cases hp : s.PREV_STATE = some (rotorRead s)
  · simp [hp]
  · cases ho : s.ROTOR_OFFSET with
    | none => simp [hp]
    | some offset => simp [hp]

/-- How an operation ends: it answers a next state, or it is a POLL that reads an unwritten ROTOR_OFFSET, which faults
(10_state.md R24; 60_exceptions.md R155). -/
theorem exec_cases (i : Instr) (s : State) :
    (∃ t, exec i s = .next t) ∨
    (i = .poll ∧ enabled .poll s = true ∧ s.PREV_STATE ≠ some (rotorRead s) ∧ s.ROTOR_OFFSET = none ∧
      exec i s = .fault .rotorOffsetUnwritten) := by
  cases i with
  | poll =>
    cases he : enabled .poll s with
    | false => exact .inl ⟨s, exec_of_not_enabled he⟩
    | true =>
      have hexec : exec .poll s = pollOnce s := by
        change gate (enabled .poll s) s (pollOnce s) = pollOnce s
        rw [he, gate_true]
      rw [hexec]
      exact (pollOnce_cases s).imp id fun hf => ⟨rfl, rfl, hf⟩
  | envSense _ | apply | rotorRead | reset => exact .inl ⟨_, rfl⟩
  | qaFall | qaRise | qbFall | qbRise | ctrlTop | ctrlDone _ | syncDrive | syncSample =>
    exact .inl (gate_answers ⟨_, rfl⟩)
  | cpWriteTarget _ | cpStop | cpWriteLead _ | cpZeroDuty | cpStart _ | hostRx _ | hostIssue =>
    exact .inl (gate_answers (takeOrRefuse_answers _ _ _))

section
variable {s t : State}

/-- Under the invariant every operation answers a next state: in RUN the offset is written (10_state.md R24). -/
theorem exec_answers_of_inv (i : Instr) (h : Inv s) : ∃ t, exec i s = .next t := by
  obtain hnext | ⟨rfl, hrun, -, hoff, -⟩ := exec_cases i s
  · exact hnext
  · have hsome := h.offset.mpr (of_decide_eq_true hrun)
    rw [hoff] at hsome
    cases hsome

/-- Under the invariant an enabled HOST_RX echoes its byte and is not refused: no line gives a NaN speed
(44_host_front_end.md R134, R142). -/
theorem exec_hostRx_of_inv {b : Byte} (h : Inv s) (he : enabled (.hostRx b) s = true)
    (ht : exec (.hostRx b) s = .next t) :
    t.TRACE = s.TRACE ++ [.echo b] ∧ t.REFUSED = s.REFUSED ∧ t.refusedFor = s.refusedFor := by
  obtain ⟨hne, -⟩ | ⟨-, r, ⟨-, hnan, -⟩, -⟩ | ⟨-, u, hu, rfl⟩ := exec_next_cases ht
  · rw [he] at hne
    cases hne
  · rw [isnan_cmdAfterLine h.speed] at hnan
    cases hnan
  · obtain ⟨-, hmark, hreason⟩ := does_keeps hu
    refine ⟨?_, hmark, hreason⟩
    obtain ⟨-, rfl⟩ | ⟨-, ops, -, rfl⟩ := hu <;> simp [lineEnded]

/-- Under the invariant a HOST_ISSUE with a non-empty queue removes its head and is not refused
(44_host_front_end.md R136). -/
theorem exec_hostIssue_of_inv {op : CpOp} {rest : List CpOp} (h : Inv s) (hp : s.HOST_PENDING = op :: rest)
    (ht : exec .hostIssue s = .next t) :
    t.HOST_PENDING = rest ∧ t.REFUSED = s.REFUSED ∧ t.refusedFor = s.refusedFor := by
  have hrun : s.MODE = .run := by
    by_contra hm
    obtain ⟨-, -, -, hempty⟩ := h.boot hm
    rw [hp] at hempty
    cases hempty
  obtain ⟨hne, -⟩ | ⟨-, r, ⟨op', rest', hp', hr⟩, -⟩ | ⟨-, u, ⟨op', rest', hp', hu⟩, rfl⟩ := exec_next_cases ht
  · simp [enabled, hostIssueEnabled, inRun, hrun, hp] at hne
  · obtain ⟨u, hu⟩ := issue_not_refused h hp'
    rw [hr] at hu
    cases hu
  · obtain ⟨-, rfl⟩ := List.cons.inj (hp.symm.trans hp')
    obtain ⟨-, hqueue, hmark, hreason⟩ := performCp_keeps hu
    exact ⟨hqueue, hmark, hreason⟩

end

end Sys2Proof.Machine
end

section
/-! PROOFS. The statements of 00_scope.md: the steps that are taken and those that wait, the faults, the arithmetic and
the comparisons. -/

namespace Sys2Proof.Machine

/-- Settles O7: `exec_next_cases` says how a taken step ends, and no effect touches the listing. -/
theorem everyTakenStepMovesPastItsWord : Obligations.EveryTakenStepMovesPastItsWord := by
  intro i s
  refine ⟨exec_of_not_enabled, fun t ht he => ?_⟩
  obtain ⟨hne, -⟩ | ⟨-, r, -, rfl⟩ | ⟨-, u, hu, rfl⟩ := exec_next_cases ht
  · rw [he] at hne
    cases hne
  · rfl
  · obtain ⟨hsched, -, -⟩ := does_keeps hu
    rw [retire_sched, hsched]

/-- Settles O55: under the invariant every operation answers a next state, and the host's steps are not refused. -/
theorem theBlockNeverFaults : Obligations.TheBlockNeverFaults := by
  intro i s h
  refine ⟨fun f hf => ?_, ?_, ?_⟩
  · obtain ⟨t, ht⟩ := exec_answers_of_inv i h
    rw [ht] at hf
    cases hf
  · rintro t b rfl he ht
    exact exec_hostRx_of_inv h he ht
  · rintro t op rest rfl hp ht
    exact exec_hostIssue_of_inv h hp ht

/-- Settles O56: `Rounds` for the sum and for the difference, which is the sum with the negated operand. -/
theorem sumsAreCorrectlyRounded : Obligations.SumsAreCorrectlyRounded := by
  intro a b c ha hb hc
  have add := rounds_fadd ha hb
  have sub := rounds_fsub ha hb
  refine ⟨by simpa using add.finite_iff, by simpa using sub.finite_iff, fun w hw hfin => ?_, fun w hw hfin => ?_⟩
  · rw [hw] at add hfin
    exact ⟨by simpa using add.nearest c hc hfin, by simpa using add.tie c hc hfin⟩
  · rw [hw] at sub hfin
    exact ⟨by simpa using sub.nearest c hc hfin, by simpa using sub.tie c hc hfin⟩

/-- Settles O57: `Rounds` for the product over 2^149 and for the quotient over the magnitude of the divisor. -/
theorem productsAndQuotientsAreCorrectlyRounded : Obligations.ProductsAndQuotientsAreCorrectlyRounded := by
  intro a b c ha hb hc
  have mul := rounds_fmul ha hb
  refine ⟨mul.finite_iff, fun h0 => ?_, fun w hw hfin => ?_, fun w h0 hw hfin => ?_⟩
  · have div := (rounds_fdiv ha hb h0).finite_iff
    rwa [Int.natAbs_mul, Int.natAbs_mul, Int.natAbs_sign_of_ne_zero h0, Nat.mul_one] at div
  · rw [hw] at mul hfin
    exact ⟨by simpa using mul.nearest c hc hfin, by simpa using mul.tie c hc hfin⟩
  · have div := rounds_fdiv ha hb h0
    have dist : ∀ x, (x * (unitsOf b).natAbs - unitsOf a * 2 ^ 149 * (unitsOf b).sign).natAbs =
        (x * unitsOf b - unitsOf a * 2 ^ 149).natAbs := fun x =>
      natAbs_mul_natAbs_sub x _ h0
    rw [hw] at div hfin
    have nearest := div.nearest c hc hfin
    have tie := div.tie c hc hfin
    rw [dist, dist] at nearest tie
    exact ⟨nearest, tie⟩

/-- Settles O58: the place of a finite value orders it as its units do, between the places of the infinities. -/
theorem comparisonsAreTheOrderOfValues : Obligations.ComparisonsAreTheOrderOfValues := by
  intro a b
  refine ⟨fun h => ⟨ordered_of_isnan h, ordered_of_isnan h, ordered_of_isnan h⟩, fun ha hb => ?_, fun ha => ?_⟩
  · have na := isnan_of_isFinite ha
    have nb := isnan_of_isFinite hb
    refine ⟨(ordered_of_not_nan _ na nb).trans ?_, (ordered_of_not_nan _ na nb).trans ?_,
      (ordered_of_not_nan _ na nb).trans ?_⟩
    · exact decide_eq_decide.mpr (orderKey_lt_iff ha hb)
    · exact decide_eq_decide.mpr (orderKey_lt_iff hb ha)
    · exact decide_eq_decide.mpr (Int.not_lt.symm.trans ((not_congr (orderKey_lt_iff ha hb)).trans Int.not_lt))
  · obtain ⟨above, below⟩ := orderKey_of_isFinite ha
    have na := isnan_of_isFinite ha
    exact ⟨(ordered_of_not_nan _ na (by decide +kernel)).trans (decide_eq_true below),
      (ordered_of_not_nan _ na (by decide +kernel)).trans (decide_eq_true above)⟩

end Sys2Proof.Machine
end

section
/-! SUPPORT. What a step leaves: how a property of the states is carried over a step, and what the effect of an operation
does to the parameters, the duty, the outputs and the trace. -/

namespace Sys2Proof.Machine

/-! ### Carrying a property over a step -/

/-- A property holds after an operation if it held before, holds after a refusal, and holds after the operation's effect. -/
theorem of_exec_next {i : Instr} {s t : State} {P : State → Prop} (ht : exec i s = .next t) (held : P s)
    (refused : ∀ r n, P ((refuse r s).retire n)) (done : ∀ u n, Does i s u → P (u.retire n)) : P t := by
  obtain ⟨-, rfl⟩ | ⟨-, r, -, rfl⟩ | ⟨-, u, hu, rfl⟩ := exec_next_cases ht
  · exact held
  · exact refused r _
  · exact done u _ hu

/-- The same for a step of the machine, which can besides replace a SET_SPEED in the listing. -/
theorem of_step_next {s t : State} {P : State → Prop} (ht : step s = .next t) (held : P s)
    (refused : ∀ r n, P ((refuse r s).retire n)) (done : ∀ i u n, Does i s u → P (u.retire n))
    (listed : ∀ l, P { s with sched := l }) : P t := by
  obtain ⟨-, ⟨i, -, -, hexec⟩ | ⟨-, rfl⟩ | ⟨v, -, hset⟩⟩ := step_next_cases ht
  · exact of_exec_next hexec held refused (done i)
  · exact refused _ _
  · obtain ⟨-, e⟩ | ⟨-, -, e⟩ | ⟨-, -, ops, -, e⟩ := execSetSpeed_cases v s <;> cases hset.symm.trans e
    · exact held
    · exact refused _ _
    · exact listed _

/-! ### The effects -/

/-- CTRL_TOP writes no parameter, duty or output and emits nothing (42_speed_controller.md R112). -/
theorem ctrlTopEffect_frame (s : State) :
    (ctrlTopEffect s).cfg = s.cfg ∧ (ctrlTopEffect s).DUTY = s.DUTY ∧ (ctrlTopEffect s).OUT = s.OUT ∧
    (ctrlTopEffect s).TRACE = s.TRACE := by
  unfold ctrlTopEffect
  split <;> exact ⟨rfl, rfl, rfl, rfl⟩

/-- The command port writes no parameter or output and emits nothing, and it can only zero the duty (43_command_port.md
R123 to R127). -/
theorem performCp_frame {op : CpOp} {s u : State} (h : performCp op s = .ok u) :
    u.cfg = s.cfg ∧ (u.DUTY = s.DUTY ∨ u.DUTY = .posZero) ∧ u.OUT = s.OUT ∧ u.TRACE = s.TRACE := by
  cases op with
  | start l =>
    obtain ⟨-, -, rfl⟩ := performCp_start_ok h
    exact ⟨rfl, .inl rfl, rfl, rfl⟩
  | zeroDuty => cases h; exact ⟨rfl, .inr rfl, rfl, rfl⟩
  | writeTarget _ | stop | writeLead _ => cases h; exact ⟨rfl, .inl rfl, rfl, rfl⟩

/-- No effect writes a parameter (10_state.md R47). -/
theorem does_cfg {i : Instr} {s u : State} (h : Does i s u) : u.cfg = s.cfg := by
  cases i with
  | poll => obtain ⟨-, rfl⟩ | ⟨-, o, -, rfl⟩ := h <;> simp [applyPattern]
  | apply | rotorRead => exact h.elim
  | ctrlTop => cases h; exact (ctrlTopEffect_frame s).1
  | cpWriteLead L => obtain ⟨l, -, rfl⟩ := h; simp
  | cpStart L => obtain ⟨l, -, -, -, rfl⟩ := h; simp
  | hostRx b => obtain ⟨-, rfl⟩ | ⟨-, ops, -, rfl⟩ := h <;> simp [lineEnded]
  | hostIssue => obtain ⟨op, rest, -, hu⟩ := h; exact (performCp_frame hu).1
  | envSense _ | qaFall | qaRise | qbFall | qbRise | ctrlDone _ | cpWriteTarget _ | cpStop | cpZeroDuty | reset
  | syncDrive | syncSample => cases h; simp

/-- Where the duty after an effect comes from: it is kept or zeroed, or it is the clamped one of a window or the parameter
of RESET (10_state.md R29). -/
theorem does_duty {i : Instr} {s u : State} (h : Does i s u) :
    u.DUTY = s.DUTY ∨ u.DUTY = .posZero ∨ (∃ m, u.DUTY = closedDuty m s) ∨ u.DUTY = s.cfg.DUTY_RESET := by
  cases i with
  | cpZeroDuty => cases h; exact .inr (.inl rfl)
  | ctrlDone m => cases h; exact .inr (.inr (.inl ⟨_, rfl⟩))
  | reset => cases h; exact .inr (.inr (.inr rfl))
  | hostIssue =>
    obtain ⟨op, rest, -, hu⟩ := h
    obtain ⟨-, hduty, -, -⟩ := performCp_frame hu
    exact hduty.imp id .inl
  | apply | rotorRead => exact h.elim
  | ctrlTop => cases h; exact .inl (ctrlTopEffect_frame s).2.1
  | poll => obtain ⟨-, rfl⟩ | ⟨-, o, -, rfl⟩ := h <;> simp [applyPattern]
  | cpWriteLead L => obtain ⟨l, -, rfl⟩ := h; simp
  | cpStart L => obtain ⟨l, -, -, -, rfl⟩ := h; simp
  | hostRx b => obtain ⟨-, rfl⟩ | ⟨-, ops, -, rfl⟩ := h <;> simp [lineEnded]
  | envSense _ | qaFall | qaRise | qbFall | qbRise | cpWriteTarget _ | cpStop | syncDrive | syncSample => cases h; simp

/-- No effect leads the duty out of [0,1] (10_state.md R29). -/
theorem does_duty_inUnit {i : Instr} {s u : State} (hwf : s.cfg.wf = true) (hd : inUnitInterval s.DUTY = true)
    (h : Does i s u) : inUnitInterval u.DUTY = true := by
  obtain e | e | ⟨m, e⟩ | e := does_duty h <;> rw [e]
  · exact hd
  · exact inUnit_posZero
  · exact closedDuty_inUnit hd
  · obtain ⟨-, -, -, -, -, -, -, hreset, -⟩ := paramsOk_ranges hwf
    exact hreset

/-- A step leaves the mark as it was, or is a refusal, which changes the mark and the listing only (10_state.md R46). -/
theorem step_mark_cases {s t : State} (h : step s = .next t) :
    t.REFUSED = s.REFUSED ∨ ∃ r n, t = (refuse r s).retire n :=
  of_step_next (P := fun x => x.REFUSED = s.REFUSED ∨ ∃ r n, x = (refuse r s).retire n) h (.inl rfl)
    (fun r n => .inr ⟨r, n, rfl⟩) (fun _ _ _ hu => .inl (does_keeps hu).2.1) fun _ => .inl rfl

/-! ### The outputs and the trace -/

/-- `Records s u`: from `s` to `u` TRACE grew by some events, and the outputs are the replay of these events. -/
def Records (s u : State) : Prop := ∃ es, u.TRACE = s.TRACE ++ es ∧ u.OUT = replay s.OUT es

theorem newEvents_of_append {s t : State} {es : List Event} (h : t.TRACE = s.TRACE ++ es) : newEvents s t = es := by
  rw [newEvents, h, List.drop_left]

theorem records_of_eq {s u : State} (ho : u.OUT = s.OUT) (ht : u.TRACE = s.TRACE) : Records s u :=
  ⟨[], by rw [ht, List.append_nil], ho⟩

/-- An echo is no write. -/
theorem records_of_echo {s u : State} {b : Byte} (ho : u.OUT = s.OUT) (ht : u.TRACE = s.TRACE ++ [.echo b]) : Records s u :=
  ⟨[.echo b], ht, ho⟩

theorem replay_append (out : Vector F32 6) (es es' : List Event) :
    replay out (es ++ es') = replay (replay out es) es' := List.foldl_append

/-- The events of a pass replay to its writes (40_rotor_commutator.md R88). -/
theorem replay_map_pwm (is : List (Fin 6)) (v : F32) (out : Vector F32 6) :
    replay out (is.map (fun i => Event.pwm i v)) = setAll is v out := List.foldl_map

theorem replay_driveEvents (p : Dpat) (duty : F32) (out : Vector F32 6) :
    replay out (driveEvents p duty) = drivenOut p duty out := by
  rw [driveEvents, replay_append, replay_map_pwm, replay_map_pwm, drivenOut]

theorem records_of_drive {s u : State} {p : Dpat} {duty : F32} (ho : u.OUT = drivenOut p duty s.OUT)
    (ht : u.TRACE = s.TRACE ++ driveEvents p duty) : Records s u :=
  ⟨driveEvents p duty, ht, ho.trans (replay_driveEvents p duty s.OUT).symm⟩

/-- Every effect but RESET's records its writes to the outputs (10_state.md R44). -/
theorem does_records {i : Instr} {s u : State} (hi : i ≠ .reset) (h : Does i s u) : Records s u := by
  cases i with
  | poll =>
    obtain ⟨-, rfl⟩ | ⟨-, o, -, rfl⟩ := h
    · exact records_of_eq rfl rfl
    · exact records_of_drive (drivePattern_OUT _ _ _) (drivePattern_TRACE _ _ _)
  | syncDrive => cases h; exact records_of_drive (syncDriveEffect_OUT s) (syncDriveEffect_TRACE s)
  | hostRx b =>
    obtain ⟨-, rfl⟩ | ⟨-, ops, -, rfl⟩ := h
    · exact records_of_echo (appendByte_OUT _ _) (appendByte_TRACE _ _)
    · exact records_of_echo rfl rfl
  | reset => exact absurd rfl hi
  | apply | rotorRead => exact h.elim
  | ctrlTop =>
    cases h
    obtain ⟨-, -, ho, ht⟩ := ctrlTopEffect_frame s
    exact records_of_eq ho ht
  | cpWriteLead L => obtain ⟨l, -, rfl⟩ := h; exact records_of_eq rfl rfl
  | cpStart L => obtain ⟨l, -, -, -, rfl⟩ := h; exact records_of_eq rfl rfl
  | hostIssue =>
    obtain ⟨op, rest, -, hu⟩ := h
    obtain ⟨-, -, ho, ht⟩ := performCp_frame hu
    exact records_of_eq ho ht
  | envSense _ | qaFall | qaRise | qbFall | qbRise | ctrlDone _ | cpWriteTarget _ | cpStop | cpZeroDuty | syncSample =>
    cases h; exact records_of_eq (by simp) (by simp)

/-- Every operation but RESET records its writes to the outputs. -/
theorem exec_records {i : Instr} {s t : State} (hi : i ≠ .reset) (ht : exec i s = .next t) : Records s t :=
  of_exec_next ht (records_of_eq rfl rfl) (fun _ _ => records_of_eq rfl rfl) fun _ _ hu =>
    (does_records hi hu :)

/-! ### The unit interval and the clamp -/

/-- The unit interval in terms of the comparisons (10_state.md R29). -/
theorem compare_of_inUnitInterval {a : F32} (h : inUnitInterval a = true) :
    fge a .posZero = true ∧ fgt a .one = false ∧ isnan a = false ∧ a ≠ .negZero := by
  obtain ⟨m, -, hc, -⟩ := classify_of_inUnitInterval h
  obtain ⟨w, rfl, hle, hsign, hmag⟩ := inUnitInterval_word h
  have hnan : isnan (.word w) = false := by rw [isnan_eq, hc]; rfl
  have hkey : orderKey w = w.toNat := by rw [orderKey, hsign, hmag, signedUnits_false]
  have hzero : orderKey F32.posZero.bits = 0 := by decide +kernel
  have hone : orderKey F32.one.bits = 0x3F800000 := by decide +kernel
  refine ⟨?_, ?_, hnan, ?_⟩
  · rw [fge, ordered_of_not_nan _ hnan (by decide +kernel), hkey, hzero, decide_eq_true_eq]
    exact Int.natCast_nonneg _
  · rw [fgt, ordered_of_not_nan _ hnan (by decide +kernel), hkey, hone, decide_eq_false_iff_not]
    omega
  · rintro ⟨⟩
    exact absurd hle (by decide)

/-- The clamp in the words of 42_speed_controller.md R116: a candidate that is not below zero stays, up to 1.0, if the
directions agree. -/
theorem clampDuty_eq (v : F32) (d : Lead) (L : Option Lead) :
    clampDuty v d L =
      if fge (if fgt v .one then .one else v) .posZero = true ∧ L = some d then (if fgt v .one then .one else v)
      else .posZero := by
  unfold clampDuty
  dsimp only
  by_cases hge : fge (if fgt v .one then .one else v) .posZero = true <;> by_cases hL : L = some d <;> simp [hge, hL]

/-- The clamp forces a mismatched window to +0.0 (R116, 60_exceptions.md R159). -/
theorem clampDuty_of_ne {d : Lead} {L : Option Lead} (h : L ≠ some d) (v : F32) : clampDuty v d L = .posZero := by
  rw [clampDuty_eq, if_neg fun hc => h hc.2]

end Sys2Proof.Machine
end

section
/-! SUPPORT. The readings of 42_speed_controller.md R111, the operations that wait for RUN, the fault of POLL, and how the
step function stops where the listing gives no operation (entry 6). -/

namespace Sys2Proof.Machine

theorem isReading_iff (m : BitVec 32) : isReading m = true ↔ isFinite (.word m) = true ∧ m.getLsbD 31 = false := by
  simp [isReading, signBit]

/-- An operand that breaks the draw is counted as a free reading (entry 5). -/
theorem freeCountAfter_of_not_isReading {m : BitVec 32} (h : ¬ isReading m = true) (s : State) :
    freeCountAfter m s = s.freeCount + 1 := if_neg h

/-- An enabled CTRL_DONE whose operand breaks the draw, with its whole next state: its reading is a free one
(42_speed_controller.md R114 to R116; entry 5). -/
theorem exec_ctrlDone_free {m : BitVec 32} {s : State} (he : enabled (.ctrlDone m) s = true)
    (hm : ¬ isReading m = true) :
    let w := readingOf m s
    let e := fsub (.word w) s.CONTROL_TARGET
    let integ := fadd s.INTEG e
    let v := fadd s.DUTY (pidUpdate s.cfg e integ (fsub e s.LAST_ERR))
    exec (.ctrlDone m) s = .next { s with
      TMR_RUN := false
      TMR_ELAPSED := .word w
      INTEG := integ
      LAST_ERR := e
      DUTY := clampDuty v s.DIR_FLAG s.START_LEAD
      CTRL_PHASE := .top
      freeCount := s.freeCount + 1
      sched := s.sched.drop 5 } := by
  rw [exec_ctrlDone he, closeWindow, freeCountAfter_of_not_isReading hm]
  rfl

/-- A POLL in RUN that would read an unwritten ROTOR_OFFSET faults (10_state.md R24). -/
theorem exec_poll_fault {s : State} (hrun : s.MODE = .run) (hprev : s.PREV_STATE ≠ some (rotorRead s))
    (hoff : s.ROTOR_OFFSET = none) : exec .poll s = .fault .rotorOffsetUnwritten := by
  change gate (decide (s.MODE = .run)) s (pollOnce s) = _
  rw [decide_eq_true hrun, gate_true, pollOnce]
  simp [hprev, hoff]

/-- Of what MODE = RUN enables, nothing is enabled before it (10_state.md R40). -/
theorem enabled_of_not_run {i : Instr} {s : State} (hm : s.MODE ≠ .run)
    (hi : i = .poll ∨ i.agent = .spd ∨ i.agent = .host) : enabled i s = false := by
  have hrun : inRun s = false := decide_eq_false hm
  cases i with
  | poll => exact hrun
  | ctrlTop => simp [enabled, ctrlTopEnabled, hrun]
  | ctrlDone _ => simp [enabled, ctrlDoneEnabled, hrun]
  | cpWriteTarget _ | cpStop | cpWriteLead _ | cpZeroDuty | cpStart _ | hostRx _ => simp [enabled, hostIdle, hrun]
  | hostIssue => simp [enabled, hostIssueEnabled, hrun]
  | envSense _ | qaFall | qaRise | qbFall | qbRise | apply | rotorRead | reset | syncDrive | syncSample =>
    simp [Instr.agent] at hi

/-- The OPID alone fixes the length of the step word (30_encoding.md R77). -/
theorem wordLength_eq_lengthByOpid (i : Instr) : wordLength i = lengthByOpid (opid i) := by
  cases i with
  | envSense raw => exact (Laws.WordLength.envSense raw).1
  | qaFall => exact Laws.WordLength.qaFall.1
  | qaRise => exact Laws.WordLength.qaRise.1
  | qbFall => exact Laws.WordLength.qbFall.1
  | qbRise => exact Laws.WordLength.qbRise.1
  | poll => exact Laws.WordLength.poll.1
  | apply => exact Laws.WordLength.apply.1
  | rotorRead => exact Laws.WordLength.rotorRead.1
  | ctrlTop => exact Laws.WordLength.ctrlTop.1
  | ctrlDone m => exact (Laws.WordLength.ctrlDone m).1
  | cpWriteTarget t => exact (Laws.WordLength.cpWriteTarget t).1
  | cpStop => exact Laws.WordLength.cpStop.1
  | cpWriteLead l => exact (Laws.WordLength.cpWriteLead l).1
  | cpZeroDuty => exact Laws.WordLength.cpZeroDuty.1
  | cpStart l => exact (Laws.WordLength.cpStart l).1
  | reset => exact Laws.WordLength.reset.1
  | syncDrive => exact Laws.WordLength.syncDrive.1
  | syncSample => exact Laws.WordLength.syncSample.1
  | hostRx b => exact (Laws.WordLength.hostRx b).1
  | hostIssue => exact Laws.WordLength.hostIssue.1

/-- Fewer bytes than the OPID asks for are cut short. -/
theorem decode_of_short {op : Byte} {bytes : List Byte} (h : bytes.length + 1 < lengthByOpid op) :
    decode (op :: bytes) = .error .truncated := by
  unfold lengthByOpid at h
  unfold decode
  cases hrow : rowOf op with
  | none => simp [hrow] at h
  | some r =>
    simp only [hrow] at h ⊢
    exact if_pos (by omega)

/-- A proper beginning of a step word is cut short. -/
theorem decode_of_cut_short {i : Instr} {bytes rest : List Byte} (h : bytes ++ rest = encode i) (hb : bytes ≠ [])
    (hr : rest ≠ []) : decode bytes = .error .truncated := by
  obtain ⟨op, tail, rfl⟩ := List.exists_cons_of_ne_nil hb
  obtain ⟨hop, htail⟩ := List.cons.inj h
  rw [hop]
  refine decode_of_short ?_
  rw [← wordLength_eq_lengthByOpid, wordLength, ← h, List.cons_append, List.length_cons, List.length_append]
  have := List.length_pos_of_ne_nil hr
  omega

theorem nextSpeed_of_stepBytes {l : List Entry} (h : stepBytes l ≠ []) : nextSpeed l = none := by
  cases hv : nextSpeed l with
  | none => rfl
  | some v => exact absurd (stepBytes_of_nextSpeed hv).1 h

theorem step_of_illFormed {s : State} (h : s.cfg.wf = false) : step s = .refused .illFormedConfig := by
  unfold step
  rw [if_neg (Bool.eq_false_iff.mp h)]

/-- Where no SET_SPEED stands at the head and the bytes give no operation, the step ends as their error says. -/
theorem step_of_decode_error {s : State} {e : DecodeError} (hwf : s.cfg.wf = true) (hn : nextSpeed s.sched = none)
    (he : decode (stepBytes s.sched) = .error e) : step s = stepWithoutOperation e s := by
  unfold step
  rw [if_pos hwf, hn, he]

end Sys2Proof.Machine
end

section
/-! PROOFS. The statements of 10_state.md: the mode, the trace, the duty, the mark, the parameters and the stops. -/

namespace Sys2Proof.Machine

/-- Settles O8: before RUN none of these operations is enabled, and what is not enabled holds. -/
theorem agentsHoldUntilRun : Obligations.AgentsHoldUntilRun :=
  fun _ _ hm hi => exec_of_not_enabled (enabled_of_not_run hm hi)

/-- Settles O19: `exec_records` for every operation but RESET, whose effect leaves TRACE. -/
theorem traceRecordsEveryOutputWrite : Obligations.TraceRecordsEveryOutputWrite := by
  intro i s t h
  by_cases hi : i = .reset
  · subst hi
    cases h
    have hnil : newEvents s ((resetEffect s).retire 1) = [] := newEvents_of_append (List.append_nil _).symm
    exact ⟨by rw [hnil]; exact (List.append_nil _).symm, fun hne => absurd rfl hne, fun _ => hnil⟩
  · obtain ⟨es, htrace, hout⟩ := exec_records hi h
    rw [newEvents_of_append htrace]
    exact ⟨htrace, fun _ => hout, fun he => absurd he hi⟩

/-- Settles O27: no effect leads the duty out of [0,1], and the clamp zeroes a mismatch and a NaN. -/
theorem dutyStaysInTheUnitInterval : Obligations.DutyStaysInTheUnitInterval := by
  refine ⟨fun i s t hwf hd h => ?_, fun m s t he h hzero => ?_⟩
  · exact compare_of_inUnitInterval (of_exec_next (P := fun x => inUnitInterval x.DUTY = true) h hd (fun _ _ => hd)
      fun _ _ hu => (does_duty_inUnit hwf hd hu :))
  · cases h.symm.trans (exec_ctrlDone he)
    obtain hne | hnan := hzero
    · exact clampDuty_of_ne hne _
    · exact clampDuty_of_isnan (isnan_fadd (.inr hnan)) _ _

/-- Settles O49: `step_mark_cases` gives both halves. -/
theorem refusedMarkIsSticky : Obligations.RefusedMarkIsSticky := by
  intro s t h
  obtain hkept | ⟨r, n, rfl⟩ := step_mark_cases h
  · refine ⟨fun hs => hkept.trans hs, fun hs ht => ?_⟩
    rw [hkept, hs] at ht
    cases ht
  · exact ⟨fun _ => rfl, fun _ _ => rfl⟩

/-- Settles O50: no effect, no refusal and no SET_SPEED touches the parameters. -/
theorem configurationIsNeverWritten : Obligations.ConfigurationIsNeverWritten :=
  fun s _ h => of_step_next (P := fun x => x.cfg = s.cfg) h rfl (fun _ _ => rfl) (fun _ _ _ hu => (does_cfg hu :))
    fun _ => rfl

/-- Settles O54: `exec_cases` for the fault, the free reading for CTRL_DONE, and the decoder's error for the listing. -/
theorem everyStopIsNamed : Obligations.EveryStopIsNamed := by
  refine ⟨fun i s f => ⟨fun hf => ?_, ?_⟩, fun i s r hr => ?_, fun s m he hm => ?_,
    fun s => ⟨step_of_illFormed, fun hwf hnil => ?_, fun hwf i rest hbytes hne hrest => ?_⟩⟩
  · obtain ⟨t, ht⟩ | ⟨rfl, hrun, hprev, hoff, ht⟩ := exec_cases i s <;> cases hf.symm.trans ht
    exact ⟨rfl, rfl, of_decide_eq_true hrun, hprev, hoff⟩
  · rintro ⟨rfl, rfl, hrun, hprev, hoff⟩
    exact exec_poll_fault hrun hprev hoff
  · obtain ⟨t, ht⟩ | ⟨-, -, -, -, ht⟩ := exec_cases i s <;> cases hr.symm.trans ht
  · obtain ⟨hfin, hsign⟩ := (isReading_iff _).mp (isReading_readingOf m s)
    refine ⟨readingOf m s, hfin, hsign, ?_⟩
    dsimp only
    rw [← clampDuty_eq]
    exact exec_ctrlDone_free he fun h => hm ((isReading_iff m).mp h)
  · exact step_of_decode_error (e := .noWord) hwf (by rw [hnil]; rfl) (by rw [hnil]; rfl)
  · exact step_of_decode_error (e := .truncated) hwf (nextSpeed_of_stepBytes hne)
      (decode_of_cut_short hbytes hne hrest)

end Sys2Proof.Machine
end

section
/-! SUPPORT. The fields of each agent: `restoreFields` puts back what an agent's rules let it write, and no step of the
agent changes anything else. -/

namespace Sys2Proof.Machine

/-- The state `t` with the fields that the agent may write put back to their values in `s`: those its rules name
(20_memory.md R54, 41_quadrature.md R106, 42_speed_controller.md R119; RESET apart), the listing, the count of free
readings where its steps can take one, and the mark of a refusal where they can be refused. -/
def restoreFields (a : Agent) (s t : State) : State :=
  match a with
  | .env => { t with SENS := s.SENS, sched := s.sched }
  | .qdec => { t with QA := s.QA, QB := s.QB, ENC_ANGLE := s.ENC_ANGLE, DIR_FLAG := s.DIR_FLAG, sched := s.sched }
  | .poll =>
    { t with
      PREV_STATE := s.PREV_STATE, OUT := s.OUT, TRACE := s.TRACE
      REFUSED := s.REFUSED, refusedFor := s.refusedFor, sched := s.sched }
  | .spd =>
    { t with
      CTRL_PHASE := s.CTRL_PHASE, WAIT_DIR := s.WAIT_DIR, WAIT_GOAL := s.WAIT_GOAL, TMR_RUN := s.TMR_RUN
      TMR_ELAPSED := s.TMR_ELAPSED, INTEG := s.INTEG, LAST_ERR := s.LAST_ERR, DUTY := s.DUTY
      freeCount := s.freeCount, sched := s.sched }
  | .host =>
    { t with
      CONTROL_TARGET := s.CONTROL_TARGET, CTRL_RUN := s.CTRL_RUN, CTRL_PHASE := s.CTRL_PHASE, TMR_RUN := s.TMR_RUN
      PHASE_LEAD := s.PHASE_LEAD, DUTY := s.DUTY, START_LEAD := s.START_LEAD, INTEG := s.INTEG
      LAST_ERR := s.LAST_ERR, LINE_BUF := s.LINE_BUF, CMD_STATE := s.CMD_STATE, HOST_PENDING := s.HOST_PENDING
      TRACE := s.TRACE, REFUSED := s.REFUSED, refusedFor := s.refusedFor, sched := s.sched }
  | .boot =>
    { t with OUT := s.OUT, TRACE := s.TRACE, ROTOR_OFFSET := s.ROTOR_OFFSET, MODE := s.MODE, sched := s.sched }

@[simp] theorem restoreFields_self (a : Agent) (s : State) : restoreFields a s s = s := by cases a <;> rfl

/-- Every agent may use up its step word. -/
@[simp] theorem restoreFields_retire (a : Agent) (n : Nat) (s t : State) :
    restoreFields a s (t.retire n) = restoreFields a s t := by cases a <;> rfl

/-- Only the steps of POLL and HOST can be refused, and these agents' fields hold the mark (60_exceptions.md R160). -/
theorem restoreFields_refuse {i : Instr} {s : State} {r : RefuseReason} (h : Refuses i s r) :
    restoreFields i.agent s (refuse r s) = s := by
  cases i with
  | apply | rotorRead | cpWriteLead _ | cpStart _ | hostRx _ | hostIssue => rfl
  | envSense _ | qaFall | qaRise | qbFall | qbRise | poll | ctrlTop | ctrlDone _ | cpWriteTarget _ | cpStop
  | cpZeroDuty | reset | syncDrive | syncSample => exact h.elim

/-- An edge writes a level, the angle and the direction (41_quadrature.md R106). -/
theorem restoreFields_edge (ch : Channel) (pol : Bool) (s : State) :
    restoreFields .qdec s (edge ch pol s) = s := by
  cases ch with
  | a => rfl
  | b => rfl

/-- A window that opens is the controller's own (42_speed_controller.md R119). -/
theorem restoreFields_ctrlTopEffect (s : State) : restoreFields .spd s (ctrlTopEffect s) = s := by
  unfold ctrlTopEffect
  split <;> rfl

/-- A byte that is no line's end writes the host's buffer, and its echo is recorded (44_host_front_end.md R134). -/
theorem restoreFields_appendByte_emit (b : Byte) (e : Event) (s : State) :
    restoreFields .host s (appendByte b (emit e s)) = s := by
  unfold appendByte
  split <;> rfl

/-- A command-port operation, direct or at the head of the queue `q`, writes fields of the host (43_command_port.md R123
to R127). -/
theorem restoreFields_performCp {op : CpOp} {q : List CpOp} {s u : State}
    (h : performCp op { s with HOST_PENDING := q } = .ok u) : restoreFields .host s u = s := by
  cases op with
  | start l => obtain ⟨-, -, rfl⟩ := performCp_start_ok h; rfl
  | writeTarget _ | stop | writeLead _ | zeroDuty => cases h; rfl

/-- The effect of an operation other than RESET stays within the fields of its agent. -/
theorem does_restoreFields {i : Instr} {s u : State} (hi : i ≠ .reset) (h : Does i s u) :
    restoreFields i.agent s u = s := by
  cases i with
  | qaFall | qaRise | qbFall | qbRise => cases h; exact restoreFields_edge _ _ s
  | poll =>
    obtain ⟨-, rfl⟩ | ⟨-, o, -, rfl⟩ := h
    · exact restoreFields_self _ _
    · rw [applyPattern, drivePattern_eq]; rfl
  | syncDrive => cases h; rw [syncDriveEffect, drivePattern_eq]; rfl
  | ctrlTop => cases h; exact restoreFields_ctrlTopEffect s
  | cpWriteLead L => obtain ⟨l, -, rfl⟩ := h; rfl
  | cpStart L => obtain ⟨l, -, -, -, rfl⟩ := h; rfl
  | hostRx b =>
    obtain ⟨-, rfl⟩ | ⟨-, ops, -, rfl⟩ := h
    · exact restoreFields_appendByte_emit b _ s
    · rfl
  | hostIssue => obtain ⟨op, rest, -, hu⟩ := h; exact restoreFields_performCp hu
  | apply | rotorRead => exact h.elim
  | reset => exact absurd rfl hi
  | envSense _ | ctrlDone _ | cpWriteTarget _ | cpStop | cpZeroDuty | syncSample => cases h; rfl

/-- A step other than RESET writes only the fields of its agent, however it ends (20_memory.md R54). -/
theorem exec_restoreFields {i : Instr} {s t : State} {a : Agent} (ht : exec i s = .next t) (ha : i.agent = a)
    (hi : i ≠ .reset) : restoreFields a s t = s := by
  subst ha
  obtain ⟨-, rfl⟩ | ⟨-, r, hr, rfl⟩ | ⟨-, u, hu, rfl⟩ := exec_next_cases ht
  · exact restoreFields_self _ _
  · rw [restoreFields_retire]; exact restoreFields_refuse hr
  · rw [restoreFields_retire]; exact does_restoreFields hi hu

/-- An edge changes at most one channel's level (41_quadrature.md R97, R106). -/
theorem edge_keeps_a_level (ch : Channel) (pol : Bool) (s : State) :
    (edge ch pol s).QA = s.QA ∨ (edge ch pol s).QB = s.QB := by
  cases ch with
  | a => exact .inr (edge_a_QB pol s)
  | b => exact .inl (edge_b_QA pol s)

/-- A step of the quadrature decoder changes at most one channel's level. -/
theorem exec_keeps_a_level {i : Instr} {s t : State} (ha : i.agent = .qdec) (ht : exec i s = .next t) :
    t.QA = s.QA ∨ t.QB = s.QB := by
  refine of_exec_next (P := fun x => x.QA = s.QA ∨ x.QB = s.QB) ht (.inl rfl) (fun _ _ => .inl rfl) fun u _ hu => ?_
  cases i with
  | qaFall | qaRise | qbFall | qbRise => cases hu; exact edge_keeps_a_level _ _ s
  | envSense _ | poll | apply | rotorRead | ctrlTop | ctrlDone _ | cpWriteTarget _ | cpStop | cpWriteLead _ | cpZeroDuty
  | cpStart _ | reset | syncDrive | syncSample | hostRx _ | hostIssue => cases ha

end Sys2Proof.Machine
end

section
/-! PROOFS. The statements of 20_memory.md: what each agent may write. -/

namespace Sys2Proof.Machine

/-- Settles O29: `exec_restoreFields` for each agent, of which only BOOT has RESET, and one level for an edge. -/
theorem agentsWriteOnlyTheirFields : Obligations.AgentsWriteOnlyTheirFields := by
  intro i s t ht
  have frame : ∀ a ≠ .boot, i.agent = a → restoreFields a s t = s := fun a hb ha =>
    exec_restoreFields ht ha fun hi => hb (by rw [← ha, hi]; rfl)
  exact ⟨frame .env (by decide), fun ha => ⟨exec_keeps_a_level ha ht, frame .qdec (by decide) ha⟩,
    frame .poll (by decide), frame .host (by decide), exec_restoreFields ht⟩

end Sys2Proof.Machine
end

section
/-! SUPPORT. The rows of the OPID map (30_encoding.md R73) and what the decoder does with the row of an OPID: how its
operand bytes make an operand and back (R72), and that the operation a row builds has that OPID and those bytes. -/

namespace Sys2Proof

/-! ### Operands -/

/-- Four operand bytes, the most significant first (R72). -/
theorem operandOf_four (b3 b2 b1 b0 : Byte) : operandOf [b3, b2, b1, b0] = b3 ++ b2 ++ b1 ++ b0 := by
  simpa [operandOf, BitVec.shiftLeft_or_distrib, ← BitVec.shiftLeft_add] using
    (BitVec.setWidth_append_append_append_eq_shiftLeft_setWidth_or
      (w'''' := 32) (b := b3) (b' := b2) (b'' := b1) (b''' := b0)).symm

/-- One operand byte (R72). -/
@[simp] theorem setWidth_operandOf_one (b : Byte) : (operandOf [b]).setWidth 8 = b := by
  simp [operandOf]

/-- The bytes of an F32 operand, joined again (R72). -/
theorem wordBytes_append (x : BitVec 32) :
    x.extractLsb' 24 8 ++ x.extractLsb' 16 8 ++ x.extractLsb' 8 8 ++ x.extractLsb' 0 8 = x := by
  simp only [BitVec.extractLsb'_append_extractLsb'_eq_extractLsb']
  simp

/-- The bytes that four bytes joined are made of (R72). -/
theorem wordBytes_of_append (b3 b2 b1 b0 : Byte) : wordBytes (b3 ++ b2 ++ b1 ++ b0) = [b3, b2, b1, b0] := by
  have below {v : Nat} (hi : BitVec v) (lo : Byte) (k : Nat) : (hi ++ lo).extractLsb' (k + 8) 8 = hi.extractLsb' k 8 :=
    BitVec.extractLsb'_append_eq_of_le (Nat.le_add_left 8 k)
  simp only [wordBytes, List.cons.injEq, and_true]
  exact ⟨((below _ b0 16).trans (below _ b1 8)).trans BitVec.extractLsb'_append_eq_left,
    (below _ b0 8).trans ((below _ b1 0).trans BitVec.extractLsb'_append_eq_right),
    (below _ b0 0).trans BitVec.extractLsb'_append_eq_right, BitVec.extractLsb'_append_eq_right⟩

/-- The operand bytes a format writes for an operand (R72). -/
def Format.bytesOf (f : Format) (x : BitVec 32) : List Byte :=
  match f with
  | .s0 | .si3 => []
  | .sl | .sb => [x.setWidth 8]
  | .sf | .sm => wordBytes x

theorem Format.bytesOf_operandOf {f : Format} {bytes : List Byte} (h : bytes.length = f.operandBytes) :
    f.bytesOf (operandOf bytes) = bytes := by
  cases f with
  | s0 | si3 => exact (List.eq_nil_of_length_eq_zero h).symm
  | sl | sb =>
    obtain ⟨b, rfl⟩ := List.length_eq_one_iff.mp h
    exact congrArg (fun x => [x]) (setWidth_operandOf_one b)
  | sf | sm =>
    obtain ⟨b3, b2, b1, b0, rfl⟩ := List.length_eq_four.mp h
    exact (congrArg wordBytes (operandOf_four b3 b2 b1 b0)).trans (wordBytes_of_append b3 b2 b1 b0)

/-! ### The rows -/

/-- The OPIDs of ENV_SENSE carry its immediate in their low three bits (R72, R73). -/
theorem setWidth_extractLsb'_of_envSense {op : Byte} (h : op &&& 0xF8 = 0x00) :
    (op.extractLsb' 0 3).setWidth 8 = op := by
  have hmask : op.extractLsb' 3 5 &&& BitVec.allOnes 5 = 0#5 := by
    simpa [BitVec.extractLsb'_and] using congrArg (BitVec.extractLsb' 3 5) h
  have hhigh : op.extractLsb' 3 5 = 0#5 := BitVec.and_allOnes.symm.trans hmask
  calc (op.extractLsb' 0 3).setWidth 8 = 0#5 ++ op.extractLsb' 0 3 := by simp [BitVec.setWidth_eq_append]
    _ = op.extractLsb' 3 5 ++ op.extractLsb' 0 3 := by rw [hhigh]
    _ = op := BitVec.extractLsb'_append_extractLsb'

/-- Every row after that of ENV_SENSE has one OPID, and builds an operation with that OPID and the operand in the row's
format (R72, R73). -/
theorem opRows_tail_builds : ∀ r ∈ opRows.tail, r.mask = 0xFF ∧
    ∀ op x, opid (r.build op x) = r.pattern ∧ operandBytesOf (r.build op x) = r.format.bytesOf x := by
  simp [opRows, opid, operandBytesOf, Format.bytesOf]

/-- The operation that the row of an OPID builds has that OPID, and the operand's bytes in the row's format. -/
theorem rowOf_builds {op : Byte} {r : OpRow} (h : rowOf op = some r) (x : BitVec 32) :
    opid (r.build op x) = op ∧ operandBytesOf (r.build op x) = r.format.bytesOf x := by
  have hmatch : op &&& r.mask = r.pattern := by simpa using List.find?_some h
  obtain rfl | htail := List.mem_cons.mp (List.mem_of_find?_eq_some h)
  · exact ⟨setWidth_extractLsb'_of_envSense hmatch, rfl⟩
  · obtain ⟨hmask, hbuild⟩ := opRows_tail_builds r htail
    obtain ⟨hop, hbytes⟩ := hbuild op x
    rw [hmask] at hmatch
    exact ⟨hop.trans (hmatch.symm.trans BitVec.and_allOnes), hbytes⟩

/-! ### The decoder -/

/-- An OPID of the map, its operand bytes and a rest decode to the operation of its row. -/
theorem decode_of_row {op : Byte} {r : OpRow} {bytes : List Byte} {i : Instr} (hrow : rowOf op = some r)
    (hlen : bytes.length = r.format.operandBytes) (hi : r.build op (operandOf bytes) = i) (rest : List Byte) :
    decode (op :: (bytes ++ rest)) = .ok (i, rest) := by
  simp [decode, hrow, ← hlen, hi]

/-- What decodes is an OPID of the map, its operand bytes and the rest. -/
theorem decode_ok {bytes rest : List Byte} {i : Instr} (h : decode bytes = .ok (i, rest)) :
    ∃ op r operand, bytes = op :: (operand ++ rest) ∧ rowOf op = some r ∧
      operand.length = r.format.operandBytes ∧ i = r.build op (operandOf operand) := by
  unfold decode at h
  split at h
  · cases h
  · next op tail =>
    split at h
    · cases h
    · next r hrow =>
      split at h
      · cases h
      · next hlong =>
        cases h
        exact ⟨op, r, tail.take r.format.operandBytes, by rw [List.take_append_drop], hrow,
          List.length_take_of_le (Nat.le_of_not_lt hlong), rfl⟩

theorem decode_of_rowOf_none {op : Byte} (h : rowOf op = none) (rest : List Byte) :
    decode (op :: rest) = .error .badOpid := by
  simp [decode, h]

/-- Every step word has 1, 2 or 5 bytes (R77). -/
theorem lengthByOpid_mem (op : Byte) : lengthByOpid op ∈ [1, 2, 5] := by
  unfold lengthByOpid
  cases rowOf op with
  | none => decide
  | some r =>
    change 1 + r.format.operandBytes ∈ [1, 2, 5]
    cases r.format <;> decide

/-! ### ENV_SENSE and the reserved OPIDs -/

/-- The bytes 0x00 to 0x07 decode to ENV_SENSE (R73). -/
theorem decode_envSense (raw : Rsv) (rest : List Byte) :
    decode (raw.setWidth 8 :: rest) = .ok (.envSense raw, rest) := by
  have hmatch : (raw.setWidth 8 &&& 0xF8 == (0x00 : Byte)) = true := by revert raw; decide
  have himm : (raw.setWidth 8).extractLsb' 0 3 = raw := by revert raw; decide
  exact decode_of_row (bytes := []) (List.find?_cons_of_pos hmatch) rfl (congrArg Instr.envSense himm) rest

/-- The seven ranges of 30_encoding.md R75 (1). -/
abbrev ReservedOpid (op : Byte) : Prop :=
  0x08 ≤ op.toNat ∧ op.toNat ≤ 0x0F ∨ 0x14 ≤ op.toNat ∧ op.toNat ≤ 0x1F ∨ 0x23 ≤ op.toNat ∧ op.toNat ≤ 0x2F ∨
  0x32 ≤ op.toNat ∧ op.toNat ≤ 0x3F ∨ 0x45 ≤ op.toNat ∧ op.toNat ≤ 0x4F ∨ 0x53 ≤ op.toNat ∧ op.toNat ≤ 0x5F ∨
  0x62 ≤ op.toNat

theorem not_reservedOpid_opid (i : Instr) : ¬ ReservedOpid (opid i) := by
  cases i with
  | envSense raw =>
    have : (raw.setWidth 8).toNat < 8 := by bv_omega
    simp only [ReservedOpid, opid]
    omega
  | qaFall | qaRise | qbFall | qbRise | poll | apply | rotorRead | ctrlTop | ctrlDone _ | cpWriteTarget _ | cpStop
  | cpWriteLead _ | cpZeroDuty | cpStart _ | reset | syncDrive | syncSample | hostRx _ | hostIssue =>
    simp only [opid]
    decide

/-- A reserved OPID has no row: the operation of a row has the row's OPID. -/
theorem rowOf_of_reservedOpid {op : Byte} (h : ReservedOpid op) : rowOf op = none := by
  cases hrow : rowOf op with
  | none => rfl
  | some r =>
    obtain ⟨hop, -⟩ := rowOf_builds hrow 0
    rw [← hop] at h
    exact absurd h (not_reservedOpid_opid _)

end Sys2Proof

namespace Sys2Proof.Machine

/-- A step of a listing that decodes runs the operation. -/
theorem step_of_decode {s : State} {i : Instr} {rest : List Byte} (hwf : s.cfg.wf = true)
    (h : decode (stepBytes s.sched) = .ok (i, rest)) : step s = exec i s := by
  have hne : stepBytes s.sched ≠ [] := fun hnil => by rw [hnil] at h; cases h
  unfold step
  rw [if_pos hwf, nextSpeed_of_stepBytes hne, h]

/-- The three bits of the event code (30_encoding.md R68). -/
theorem qev_bits (ch : Channel) (pol other : Bool) :
    (qev ch pol other).getLsbD 2 = chBit ch ∧ (qev ch pol other).getLsbD 1 = pol ∧
    (qev ch pol other).getLsbD 0 = other := by
  simp only [qev, BitVec.getLsbD_append]
  simp

theorem chBit_eq_decide (ch : Channel) : chBit ch = decide (ch = .b) := by
  cases ch with
  | a => rfl
  | b => rfl

end Sys2Proof.Machine
end

section
/-! PROOFS. The statements of 30_encoding.md: the step words and their decoder, the words that are refused, and the
event code of the quadrature decoder. -/

namespace Sys2Proof.Machine

/-- Settles O1: `decode_of_row` at each row, with the operand of one byte or of four. -/
theorem stepWordsDecodeToTheirOperations : Obligations.StepWordsDecodeToTheirOperations := by
  intro rest
  have bare {op : Byte} {r : OpRow} {i : Instr} (hrow : rowOf op = some r) (hlen : 0 = r.format.operandBytes)
      (hi : r.build op 0 = i) : decode (op :: rest) = .ok (i, rest) := decode_of_row (bytes := []) hrow hlen hi rest
  refine ⟨fun raw => decode_envSense raw rest, bare rfl rfl rfl, bare rfl rfl rfl, bare rfl rfl rfl, bare rfl rfl rfl,
    bare rfl rfl rfl, bare rfl rfl rfl, bare rfl rfl rfl, bare rfl rfl rfl, fun b3 b2 b1 b0 => ?_, bare rfl rfl rfl,
    bare rfl rfl rfl, fun b => ?_, bare rfl rfl rfl, bare rfl rfl rfl, bare rfl rfl rfl, bare rfl rfl rfl⟩
  · have hword := operandOf_four b3 b2 b1 b0
    exact ⟨decode_of_row (bytes := [b3, b2, b1, b0]) rfl rfl (congrArg Instr.ctrlDone hword) rest,
      decode_of_row (bytes := [b3, b2, b1, b0]) rfl rfl (congrArg Instr.cpWriteTarget hword) rest⟩
  · have hbyte := setWidth_operandOf_one b
    exact ⟨decode_of_row (bytes := [b]) rfl rfl (congrArg Instr.cpWriteLead hbyte) rest,
      decode_of_row (bytes := [b]) rfl rfl (congrArg Instr.cpStart hbyte) rest,
      decode_of_row (bytes := [b]) rfl rfl (congrArg Instr.hostRx hbyte) rest⟩

/-- Settles O2: each word is one of O1, and an F32 operand is its four bytes joined. -/
theorem decodeOfEncodeIsTheOperation : Obligations.DecodeOfEncodeIsTheOperation := by
  intro i rest
  obtain ⟨hsense, hqaFall, hqaRise, hqbFall, hqbRise, hpoll, happly, hrotor, htop, hword, hstop, hzero, hbyte, hreset,
    hdrive, hsample, hissue⟩ := stepWordsDecodeToTheirOperations rest
  cases i with
  | envSense raw => exact hsense raw
  | qaFall => exact hqaFall
  | qaRise => exact hqaRise
  | qbFall => exact hqbFall
  | qbRise => exact hqbRise
  | poll => exact hpoll
  | apply => exact happly
  | rotorRead => exact hrotor
  | ctrlTop => exact htop
  | ctrlDone m =>
    obtain ⟨hdone, -⟩ := hword (m.extractLsb' 24 8) (m.extractLsb' 16 8) (m.extractLsb' 8 8) (m.extractLsb' 0 8)
    rwa [wordBytes_append] at hdone
  | cpWriteTarget t =>
    obtain ⟨-, htarget⟩ := hword (t.extractLsb' 24 8) (t.extractLsb' 16 8) (t.extractLsb' 8 8) (t.extractLsb' 0 8)
    rwa [wordBytes_append] at htarget
  | cpStop => exact hstop
  | cpWriteLead l =>
    obtain ⟨hlead, -, -⟩ := hbyte l
    exact hlead
  | cpZeroDuty => exact hzero
  | cpStart l =>
    obtain ⟨-, hstart, -⟩ := hbyte l
    exact hstart
  | reset => exact hreset
  | syncDrive => exact hdrive
  | syncSample => exact hsample
  | hostRx b =>
    obtain ⟨-, -, hrx⟩ := hbyte b
    exact hrx
  | hostIssue => exact hissue

/-- Settles O3: the row of the OPID builds an operation with that OPID and the operand bytes that were read. -/
theorem encodeOfDecodeIsTheWord : Obligations.EncodeOfDecodeIsTheWord := by
  intro bytes rest i h
  obtain ⟨op, r, operand, rfl, hrow, hlen, rfl⟩ := decode_ok h
  obtain ⟨hop, hoperand⟩ := rowOf_builds hrow (operandOf operand)
  rw [Format.bytesOf_operandOf hlen] at hoperand
  refine ⟨?_, ?_, wordLength_eq_lengthByOpid _, ?_⟩
  · rw [encode, hop, hoperand, List.cons_append]
  · rw [hop, List.head?_cons]
  · rw [show (encode _).length = lengthByOpid _ from wordLength_eq_lengthByOpid _]
    exact lengthByOpid_mem _

/-- Settles O4: a reserved OPID has no row, so the listing gives the error that the step answers with the refusal. -/
theorem reservedOpidsAreRefused : Obligations.ReservedOpidsAreRefused := by
  intro s op rest hwf hs hop
  have herr : decode (stepBytes s.sched) = .error .badOpid := by
    rw [hs]
    exact decode_of_rowOf_none (rowOf_of_reservedOpid hop) _
  obtain rfl : rest = s.sched.drop 1 := by rw [hs]; rfl
  exact step_of_decode_error hwf (by rw [hs]; rfl) herr

/-- Settles O5: the meaning of both step words is the refusal. -/
theorem internalOperationsAreRefused : Obligations.InternalOperationsAreRefused :=
  fun _ => ⟨rfl, rfl⟩

/-- Settles O6: `step_of_decode`, with O2 for a listing that begins with a step word. -/
theorem stepRunsTheDecodedOperation : Obligations.StepRunsTheDecodedOperation := by
  refine fun s i hwf => ⟨fun rest => step_of_decode hwf, fun rest hs => step_of_decode hwf (rest := stepBytes rest) ?_⟩
  rw [hs, stepBytes_append]
  exact decodeOfEncodeIsTheOperation i _

/-- Settles O9: ENV_SENSE is always enabled, and its effect is the three inputs. -/
theorem envSensePresentsTheVector : Obligations.EnvSensePresentsTheVector :=
  fun _ raw => exec_of_does (i := .envSense raw) rfl rfl

/-- Settles O11: the bits of the code, and the table over its eight values. -/
theorem directionFunctionIsTheQuadratureTable : Obligations.DirectionFunctionIsTheQuadratureTable := by
  refine ⟨fun ch pol other => ?_, by decide⟩
  obtain ⟨hch, hpol, hother⟩ := qev_bits ch pol other
  rw [chBit_eq_decide] at hch
  exact ⟨hch, hpol, hother, by rw [fwd, hch, hpol, hother]⟩

end Sys2Proof.Machine
end

section
/-! SUPPORT. The parameter tables read at an index, the rotor reading at the eight sensor vectors, and the index of the
pattern selection (40_rotor_commutator.md R83 to R87, R95). -/

namespace Sys2Proof.Machine

/-! ### The rotor reading -/

/-- Three bits make an index below 8, so none is lost (30_encoding.md R64). -/
theorem rawIndex_toNat (x : Sens) : (rawIndex x).toNat = x.s1.toNat + 2 * x.s2.toNat + 4 * x.s3.toNat := by
  have h1 := Bool.toNat_lt x.s1
  have h2 := Bool.toNat_lt x.s2
  have h3 := Bool.toNat_lt x.s3
  rw [rawIndex, BitVec.toNat_ofNat]
  exact Nat.mod_eq_of_lt (by omega)

/-- The sensors agree exactly at the two ends of the index. -/
theorem rawIndex_eq_end_iff (x : Sens) : rawIndex x = 0 ∨ rawIndex x = 7 ↔ x.s1 = x.s2 ∧ x.s2 = x.s3 := by
  obtain ⟨s1, s2, s3⟩ := x
  revert s1 s2 s3
  decide

/-- A well-formed STATE_MAP is invalid at its two ends and nowhere else (R84). -/
theorem stateMapAt_invalid_iff {c : Config} (h : c.wf = true) (raw : Rsv) :
    6 ≤ (stateMapAt c raw).toNat ↔ raw = 0 ∨ raw = 7 := by
  obtain ⟨-, -, -, -, -, -, -, -, -, hmap, -⟩ := paramsOk_ranges h
  simp only [stateMapOk, List.all_cons, List.all_nil, Bool.and_true, Bool.and_eq_true, decide_eq_true_eq] at hmap
  obtain ⟨⟨⟨h0, h7⟩, h1, h2, h3, h4, h5, h6⟩, -⟩ := hmap
  obtain ⟨k⟩ := raw
  fin_cases k
  · exact iff_of_true h0 (by decide)
  · exact iff_of_false (Nat.not_le.mpr h1) (by decide)
  · exact iff_of_false (Nat.not_le.mpr h2) (by decide)
  · exact iff_of_false (Nat.not_le.mpr h3) (by decide)
  · exact iff_of_false (Nat.not_le.mpr h4) (by decide)
  · exact iff_of_false (Nat.not_le.mpr h5) (by decide)
  · exact iff_of_false (Nat.not_le.mpr h6) (by decide)
  · exact iff_of_true h7 (by decide)

theorem stateMapAt_of_default {c : Config} (h : c.STATE_MAP = Config.defaultStateMap) (raw : Rsv) :
    stateMapAt c raw = Config.defaultStateMap[raw.toNat]'raw.isLt := by
  rw [stateMapAt]
  simp only [h]

/-! ### The pattern selection -/

theorem driveTable_getElem? (c : Config) (i : Fin 8) : c.DRIVE_TABLE[i.val]? = some (driveTableAt c i) :=
  Vector.getElem?_eq_getElem i.isLt

/-- Entries 6 and 7 of a well-formed DRIVE_TABLE are all-off (R86). -/
theorem driveTableAt_of_invalid {c : Config} (h : c.wf = true) {i : Fin 8} (hi : 6 ≤ i.val) : driveTableAt c i = 0 := by
  obtain ⟨-, -, -, -, -, -, -, -, -, -, htable⟩ := paramsOk_ranges h
  simp only [driveTableOk, Bool.and_eq_true, decide_eq_true_eq] at htable
  obtain ⟨⟨-, h6⟩, h7⟩ := htable
  obtain rfl | rfl : i = 6 ∨ i = 7 := by omega
  · exact h6
  · exact h7

/-- An invalid state or offset selects all-off (R87). -/
theorem selectPattern_of_invalid {state offset : Csc} (h : 6 ≤ state.toNat ∨ 6 ≤ offset.toNat) (c : Config)
    (lead : Lead) : selectPattern c state offset lead = 0 := if_pos h

theorem selectPattern_of_valid {state offset : Csc} (hs : state.toNat < 6) (ho : offset.toNat < 6) (c : Config)
    (lead : Lead) :
    selectPattern c state offset lead = driveTableAt c ((driveIndex state offset lead).castLE (by decide)) :=
  if_neg (by omega)

/-- The index is congruent to the sum it is formed from (R85). -/
theorem dvd_sub_driveIndex (state offset : Csc) (lead : Lead) :
    (6 : Int) ∣ (state.toNat : Int) - offset.toNat + leadValue lead + 6 - ((driveIndex state offset lead).val : Int) := by
  rw [driveIndex]
  dsimp only
  omega

/-- At lead 0 and offset 0 the index of a valid state is the state (R95). -/
theorem driveIndex_zero_stopped {state : Csc} (h : state.toNat < 6) : (driveIndex state 0 .stopped).val = state.toNat := by
  have hdvd : (6 : Int) ∣ (state.toNat : Int) - 0 + 0 + 6 - ((driveIndex state 0 .stopped).val : Int) :=
    dvd_sub_driveIndex state 0 .stopped
  have hlt := (driveIndex state 0 .stopped).isLt
  omega

/-- So the pattern of every code, invalid ones too, is the table entry of that code (R95). -/
theorem selectPattern_zero_stopped {c : Config} (h : c.wf = true) (k : Csc) :
    selectPattern c k 0 .stopped = driveTableAt c k.toFin := by
  by_cases hk : k.toNat < 6
  · rw [selectPattern_of_valid hk (by decide)]
    exact congrArg (driveTableAt c) (Fin.ext (driveIndex_zero_stopped hk))
  · rw [selectPattern_of_invalid (.inl (Nat.not_lt.mp hk)), driveTableAt_of_invalid h (Nat.not_lt.mp hk)]

end Sys2Proof.Machine
end

section
/-! SUPPORT. The events of one step: what they can be, the order of their writes (40_rotor_commutator.md R88, R89), and
the outputs after each initial part of them (R90). -/

namespace Sys2Proof.Machine

/-! ### The events of a step -/

/-- What one step can add to TRACE under the parameters `c`: nothing, the echo of a byte, or the two passes of a pattern,
which is legal if the parameters are well-formed. -/
def StepEvents (c : Config) (es : List Event) : Prop :=
  es = [] ∨ (∃ b, es = [.echo b]) ∨ ∃ p duty, (c.wf = true → legalPattern p = true) ∧ es = driveEvents p duty

/-- `Adds s u`: from `s` to `u` TRACE grew by what one step can add. -/
def Adds (s u : State) : Prop := ∃ es, u.TRACE = s.TRACE ++ es ∧ StepEvents s.cfg es

theorem adds_of_eq {s u : State} (h : u.TRACE = s.TRACE) : Adds s u := ⟨[], by rw [h, List.append_nil], .inl rfl⟩

theorem adds_of_echo {s u : State} {b : Byte} (h : u.TRACE = s.TRACE ++ [.echo b]) : Adds s u :=
  ⟨_, h, .inr (.inl ⟨b, rfl⟩)⟩

theorem adds_of_drive {s u : State} {p : Dpat} {duty : F32} (h : u.TRACE = s.TRACE ++ driveEvents p duty)
    (legal : s.cfg.wf = true → legalPattern p = true) : Adds s u := ⟨_, h, .inr (.inr ⟨p, duty, legal, rfl⟩)⟩

/-- POLL and SYNC_DRIVE drive a pattern, HOST_RX echoes its byte, and no other effect emits anything (60_exceptions.md
R173). -/
theorem does_adds {i : Instr} {s u : State} (h : Does i s u) : Adds s u := by
  cases i with
  | poll =>
    obtain ⟨-, rfl⟩ | ⟨-, o, -, rfl⟩ := h
    · exact adds_of_eq rfl
    · exact adds_of_drive (drivePattern_TRACE _ _ _) fun hwf => selectPattern_legal hwf _ _ _
  | syncDrive => cases h; exact adds_of_drive (syncDriveEffect_TRACE s) fun hwf => driveTableAt_legal hwf _
  | hostRx b =>
    obtain ⟨-, rfl⟩ | ⟨-, ops, -, rfl⟩ := h
    · exact adds_of_echo (appendByte_TRACE _ _)
    · exact adds_of_echo rfl
  | apply | rotorRead => exact h.elim
  | ctrlTop =>
    cases h
    obtain ⟨-, -, -, ht⟩ := ctrlTopEffect_frame s
    exact adds_of_eq ht
  | cpWriteLead L => obtain ⟨l, -, rfl⟩ := h; exact adds_of_eq rfl
  | cpStart L => obtain ⟨l, -, -, -, rfl⟩ := h; exact adds_of_eq rfl
  | hostIssue =>
    obtain ⟨op, rest, -, hu⟩ := h
    obtain ⟨-, -, -, ht⟩ := performCp_frame hu
    exact adds_of_eq ht
  | envSense _ | qaFall | qaRise | qbFall | qbRise | ctrlDone _ | cpWriteTarget _ | cpStop | cpZeroDuty | reset
  | syncSample =>
    cases h; exact adds_of_eq (by simp)

theorem exec_adds {i : Instr} {s t : State} (ht : exec i s = .next t) : Adds s t :=
  of_exec_next ht (adds_of_eq rfl) (fun _ _ => adds_of_eq rfl) fun _ _ hu => (does_adds hu :)

/-! ### Turn-off before turn-on -/

/-- The two events in this order turn no output off after an output was turned on (R89). -/
def OffBeforeOn (e f : Event) : Prop := ∀ (j k : Fin 6) (v : F32), e = .pwm j v → f = .pwm k .posZero → v = .posZero

theorem offBeforeOn_of_off (i : Fin 6) (f : Event) : OffBeforeOn (.pwm i .posZero) f := by
  rintro j k v ⟨⟩ -
  rfl

/-- Two writes of one value: if the second is a turn-off, so is the first. -/
theorem offBeforeOn_of_same (i i' : Fin 6) (v : F32) : OffBeforeOn (.pwm i v) (.pwm i' v) := by
  rintro j k w ⟨⟩ ⟨⟩
  rfl

/-- The first pass only turns off, and the second writes one value (R88). -/
theorem pairwise_driveEvents (p : Dpat) (duty : F32) : (driveEvents p duty).Pairwise OffBeforeOn := by
  refine List.pairwise_append.mpr ⟨?_, ?_, ?_⟩
  · exact List.pairwise_map.mpr (List.pairwise_of_forall fun i _ => offBeforeOn_of_off i _)
  · exact List.pairwise_map.mpr (List.pairwise_of_forall fun i i' => offBeforeOn_of_same i i' duty)
  · intro e he f _
    obtain ⟨i, -, rfl⟩ := List.mem_map.mp he
    exact offBeforeOn_of_off i f

theorem StepEvents.pairwise {c : Config} {es : List Event} (h : StepEvents c es) : es.Pairwise OffBeforeOn := by
  obtain rfl | ⟨b, rfl⟩ | ⟨p, duty, -, rfl⟩ := h
  · exact .nil
  · exact List.pairwise_singleton _ _
  · exact pairwise_driveEvents p duty

/-! ### The outputs after each write -/

/-- Outputs that are +0.0 wherever others are drive no phase on both sides if the others drive none. -/
theorem noShootThrough_of_zeros {out out' : Vector F32 6} (h : ∀ j : Fin 6, out[j] = .posZero → out'[j] = .posZero)
    (ho : NoShootThrough out) : NoShootThrough out' :=
  ⟨ho.1.imp (h 0) (h 1), ho.2.1.imp (h 2) (h 3), ho.2.2.imp (h 4) (h 5)⟩

/-- A legal pattern leaves out one output of every phase, so it is enough that these are +0.0 (R66). -/
theorem noShootThrough_of_legal {p : Dpat} {out : Vector F32 6} (hp : legalPattern p = true)
    (h : ∀ j : Fin 6, p.getLsbD j = false → out[j] = .posZero) : NoShootThrough out := by
  refine noShootThrough_of_zeros (fun j hj => h j ?_) (drivenOut_noShootThrough hp .one out)
  by_contra hset
  rw [drivenOut_getElem, if_pos ((Bool.not_eq_false _).mp hset)] at hj
  exact absurd hj (by decide)

/-- Every output that the pattern leaves out is +0.0 after the whole first pass and any part of the second. -/
theorem setAll_offOutputs_zero {p : Dpat} {j : Fin 6} (hj : p.getLsbD j = false) {on : List (Fin 6)}
    (hon : ∀ i ∈ on, i ∈ onOutputs p) (duty : F32) (out : Vector F32 6) :
    (setAll on duty (setAll (offOutputs p) .posZero out))[j] = .posZero := by
  have hnot : j ∉ on := fun hm => by
    have hset := (mem_onOutputs p j).mp (hon j hm)
    rw [hj] at hset
    cases hset
  rw [setAll_getElem, if_neg hnot, setAll_getElem, if_pos ((mem_offOutputs p j).mpr hj)]

/-- During the first pass an output that is +0.0 stays so. -/
theorem setAll_posZero_zero {out : Vector F32 6} {j : Fin 6} (h : out[j] = .posZero) (is : List (Fin 6)) :
    (setAll is .posZero out)[j] = .posZero := by
  rw [setAll_getElem, h, ite_self]

/-- The outputs after the first `n` writes of the two passes. -/
theorem replay_take_driveEvents (p : Dpat) (duty : F32) (out : Vector F32 6) (n : Nat) :
    replay out ((driveEvents p duty).take n) =
      setAll ((onOutputs p).take (n - (offOutputs p).length)) duty (setAll ((offOutputs p).take n) .posZero out) := by
  rw [driveEvents, List.take_append, List.length_map, ← List.map_take, ← List.map_take, replay_append,
    replay_map_pwm, replay_map_pwm]

/-- The first pass only turns outputs off; the second begins when every output that the pattern leaves out is off (R90). -/
theorem noShootThrough_take_driveEvents {p : Dpat} {out : Vector F32 6} (hp : legalPattern p = true)
    (ho : NoShootThrough out) (duty : F32) (n : Nat) : NoShootThrough (replay out ((driveEvents p duty).take n)) := by
  rw [replay_take_driveEvents]
  obtain hn | hn := Nat.le_total n (offOutputs p).length
  · rw [Nat.sub_eq_zero_of_le hn, List.take_zero]
    exact noShootThrough_of_zeros (fun j hj => setAll_posZero_zero hj _) ho
  · rw [List.take_of_length_le hn]
    exact noShootThrough_of_legal hp fun j hj => setAll_offOutputs_zero hj (fun _ => List.mem_of_mem_take) duty out

theorem StepEvents.noShootThrough_take {c : Config} {es : List Event} {out : Vector F32 6} (h : StepEvents c es)
    (hwf : c.wf = true) (ho : NoShootThrough out) (n : Nat) : NoShootThrough (replay out (es.take n)) := by
  obtain rfl | ⟨b, rfl⟩ | ⟨p, duty, legal, rfl⟩ := h
  · rw [List.take_nil]; exact ho
  · cases n with
    | zero => exact ho
    | succ n => rw [List.take_succ_cons, List.take_nil]; exact ho
  · exact noShootThrough_take_driveEvents (legal hwf) ho duty n

/-- `SafeWrites s u`: no phase is driven on both sides in `u`, nor after any initial part of the writes from `s` to `u`. -/
def SafeWrites (s u : State) : Prop :=
  NoShootThrough u.OUT ∧ ∀ n : Nat, NoShootThrough (replay s.OUT ((newEvents s u).take n))

/-- Without a write the outputs stay as they are. -/
theorem safeWrites_of_eq {s u : State} (h : NoShootThrough s.OUT) (ho : u.OUT = s.OUT) (ht : u.TRACE = s.TRACE) :
    SafeWrites s u := by
  refine ⟨ho ▸ h, fun n => ?_⟩
  rw [newEvents_of_append (ht.trans (List.append_nil _).symm), List.take_nil]
  exact h

/-- The outputs after an effect are those after all its writes, and RESET's are all +0.0 (70_reset_and_hazards.md R177). -/
theorem does_safeWrites {i : Instr} {s u : State} (hwf : s.cfg.wf = true) (hs : NoShootThrough s.OUT) (h : Does i s u) :
    SafeWrites s u := by
  obtain ⟨es, htrace, hes⟩ := does_adds h
  have initial := hes.noShootThrough_take hwf hs
  rw [SafeWrites, newEvents_of_append htrace]
  refine ⟨?_, initial⟩
  by_cases hi : i = .reset
  · subst hi
    cases h
    exact ⟨.inl rfl, .inl rfl, .inl rfl⟩
  · obtain ⟨es', htrace', hout⟩ := does_records hi h
    obtain rfl := List.append_cancel_left (htrace.symm.trans htrace')
    have whole := initial es.length
    rwa [List.take_length, ← hout] at whole

/-! ### The outputs after both passes -/

/-- Both passes together give every output its value, whatever it held before (R88). -/
theorem drivenOut_eq_ofFn (p : Dpat) (duty : F32) (out : Vector F32 6) :
    drivenOut p duty out = Vector.ofFn (fun i : Fin 6 => if p.getLsbD i then duty else .posZero) := by
  refine Vector.ext fun j hj => ?_
  rw [Vector.getElem_ofFn]
  exact drivenOut_getElem p duty out ⟨j, hj⟩

end Sys2Proof.Machine
end

section
/-! PROOFS. The statements of 40_rotor_commutator.md: the rotor reading, the pattern selection, the start-up steps, the
order of the writes and the absence of shoot-through. -/

namespace Sys2Proof.Machine

/-- Settles O18: `does_safeWrites` for the effects; a refusal and a SET_SPEED write no output. -/
theorem noShootThroughAtAnyWrite : Obligations.NoShootThroughAtAnyWrite :=
  ⟨by decide, fun s _ hwf hs ht => of_step_next (P := SafeWrites s) ht (safeWrites_of_eq hs rfl rfl)
    (fun _ _ => safeWrites_of_eq hs rfl rfl) (fun _ _ _ hu => (does_safeWrites hwf hs hu :))
    fun _ => safeWrites_of_eq hs rfl rfl⟩

/-- Settles O13: the index loses no bit, and its two ends, where the map is invalid, are where the sensors agree. -/
theorem rotorReadFollowsTheSensorMap : Obligations.RotorReadFollowsTheSensorMap := by
  refine fun s => ⟨?_, fun hwf => ?_, fun hmap => ?_⟩
  · rw [← rawIndex_toNat]
    exact Vector.getElem?_eq_getElem _
  · exact (stateMapAt_invalid_iff hwf _).trans (rawIndex_eq_end_iff s.SENS)
  · rw [rotorRead, stateMapAt_of_default hmap]
    refine ⟨?_, ?_, ?_, ?_, ?_, ?_, ?_, ?_⟩ <;> exact fun hsens => by rw [hsens]; rfl

/-- Settles O15: `selectPattern_zero_stopped`, read as an entry of the table. -/
theorem patternAtLeadZeroAndOffsetZero : Obligations.PatternAtLeadZeroAndOffsetZero := by
  intro c k hwf
  rw [selectPattern_zero_stopped hwf]
  exact driveTable_getElem? c k.toFin

/-- Settles O17: `StepEvents.pairwise` for the events that the step adds. -/
theorem noTurnOffFollowsATurnOn : Obligations.NoTurnOffFollowsATurnOn := by
  intro i s t ht
  obtain ⟨es, htrace, hes⟩ := exec_adds ht
  rw [newEvents_of_append htrace]
  exact hes.pairwise

/-- Settles O20: the effect is the two passes of entry 0 and the change of mode. -/
theorem syncDriveHoldsCommutationStateZero : Obligations.SyncDriveHoldsCommutationStateZero := by
  refine fun s => ⟨fun hm => exec_of_not_enabled (decide_eq_false hm), fun hm => ?_⟩
  dsimp only
  rw [exec_of_does (i := .syncDrive) (decide_eq_true hm) rfl, syncDriveEffect, drivePattern_eq, drivenOut_eq_ofFn]
  rfl

/-- Settles O14: the index of the model is congruent to the sum and selects the entry. -/
theorem patternSelectionUsesTheEuclideanIndex : Obligations.PatternSelectionUsesTheEuclideanIndex := by
  refine fun c state offset lead => ⟨fun h => selectPattern_of_invalid h c lead, fun hs ho =>
    ⟨driveIndex state offset lead, dvd_sub_driveIndex state offset lead, ?_⟩⟩
  rw [selectPattern_of_valid hs ho]
  exact driveTable_getElem? c ((driveIndex state offset lead).castLE (by decide))

/-- Settles O21: the effect is the reading as the offset and the change of mode. -/
theorem syncSampleCapturesTheOffset : Obligations.SyncSampleCapturesTheOffset :=
  fun _ => ⟨fun hm => exec_of_not_enabled (decide_eq_false hm), fun hm =>
    exec_of_does (i := .syncSample) (decide_eq_true hm) rfl⟩

end Sys2Proof.Machine
end

section
/-! SUPPORT. The edges of the quadrature decoder (41_quadrature.md R97, R98): the effect of an edge by the other
channel's level, the steps other than RESET that count nothing, and operations taken one after another. -/

namespace Sys2Proof.Machine

/-! ### One edge -/

/-- The direction function on the three parts of the event code (R98). -/
theorem fwd_qev (ch : Channel) (pol other : Bool) : fwd (qev ch pol other) = (chBit ch ^^ pol ^^ other) := by
  obtain ⟨hch, hpol, hother⟩ := qev_bits ch pol other
  rw [fwd, hch, hpol, hother]

/-- An edge on A counts backward when A's new level is that of B, and forward when it differs (R98). -/
theorem edge_a (pol : Bool) (s : State) :
    edge .a pol s = { s with
      QA := pol
      ENC_ANGLE := if s.QB = pol then s.ENC_ANGLE - 1 else s.ENC_ANGLE + 1
      DIR_FLAG := if s.QB = pol then .backward else .forward } := by
  have hfwd : fwd (qev .a pol s.QB) = !decide (s.QB = pol) := by
    rw [fwd_qev]; cases pol <;> cases s.QB <;> rfl
  change countEdge (qev .a pol s.QB) { s with QA := pol } = _
  rw [countEdge, edgeDelta, edgeDir, hfwd]
  by_cases h : s.QB = pol <;> simp [h, Int.sub_eq_add_neg]

/-- An edge on B counts forward when B's new level is that of A, and backward when it differs (R98). -/
theorem edge_b (pol : Bool) (s : State) :
    edge .b pol s = { s with
      QB := pol
      ENC_ANGLE := if s.QA = pol then s.ENC_ANGLE + 1 else s.ENC_ANGLE - 1
      DIR_FLAG := if s.QA = pol then .forward else .backward } := by
  have hfwd : fwd (qev .b pol s.QA) = decide (s.QA = pol) := by
    rw [fwd_qev]; cases pol <;> cases s.QA <;> rfl
  change countEdge (qev .b pol s.QA) { s with QB := pol } = _
  rw [countEdge, edgeDelta, edgeDir, hfwd]
  by_cases h : s.QA = pol <;> simp [h, Int.sub_eq_add_neg]

theorem exec_qaRise {s : State} (h : s.QA = false) : exec .qaRise s = .next ((edge .a true s).retire 1) :=
  exec_of_does (i := .qaRise) (congrArg not h) rfl

theorem exec_qaFall {s : State} (h : s.QA = true) : exec .qaFall s = .next ((edge .a false s).retire 1) :=
  exec_of_does (i := .qaFall) h rfl

theorem exec_qbRise {s : State} (h : s.QB = false) : exec .qbRise s = .next ((edge .b true s).retire 1) :=
  exec_of_does (i := .qbRise) (congrArg not h) rfl

theorem exec_qbFall {s : State} (h : s.QB = true) : exec .qbFall s = .next ((edge .b false s).retire 1) :=
  exec_of_does (i := .qbFall) h rfl

/-- A step of the quadrature decoder that is taken is an edge, and its event code has the direction in which R101 to R104
count it. -/
theorem exec_eq_edge {i : Instr} {s : State} (hi : i.agent = .qdec) (he : enabled i s = true) :
    ∃ ch pol, exec i s = .next ((edge ch pol s).retire 1) ∧
      fwd (qev ch pol (level (otherChannel ch) s)) = countsForward i s := by
  cases i with
  | qaFall | qaRise | qbFall | qbRise =>
    exact ⟨_, _, exec_of_does he rfl, by simp [fwd_qev, chBit, level, otherChannel, countsForward]⟩
  | envSense _ | poll | apply | rotorRead | ctrlTop | ctrlDone _ | cpWriteTarget _ | cpStop | cpWriteLead _ | cpZeroDuty
  | cpStart _ | reset | syncDrive | syncSample | hostRx _ | hostIssue => cases hi

/-! ### Runs -/

/-- An edge that is taken moves the angle by one and sets the direction, both as it counts (R97). -/
theorem exec_edge_counts {i : Instr} {s t : State} (hi : i.agent = .qdec) (he : enabled i s = true)
    (ht : exec i s = .next t) :
    t.ENC_ANGLE = s.ENC_ANGLE + (if countsForward i s then 1 else -1) ∧
    t.DIR_FLAG = if countsForward i s then .forward else .backward := by
  obtain ⟨ch, pol, hexec, hfwd⟩ := exec_eq_edge hi he
  cases ht.symm.trans hexec
  rw [← hfwd]
  exact ⟨edge_ENC_ANGLE ch pol s, edge_DIR_FLAG ch pol s⟩

/-- A step that is no edge and no RESET leaves the angle and the direction (R106). -/
theorem exec_keeps_angle {i : Instr} {s t : State} (hi : i.agent ≠ .qdec ∨ enabled i s = false) (hr : i ≠ .reset)
    (ht : exec i s = .next t) : t.ENC_ANGLE = s.ENC_ANGLE ∧ t.DIR_FLAG = s.DIR_FLAG := by
  obtain ha | he := hi
  · have frame : restoreFields i.agent s t = s := exec_restoreFields ht rfl hr
    rw [← frame]
    cases h : i.agent with
    | qdec => exact absurd h ha
    | env | poll | spd | host | boot => exact ⟨rfl, rfl⟩
  · cases ht.symm.trans (exec_of_not_enabled he)
    exact ⟨rfl, rfl⟩

/-- The direction that edges which counted as in `ds`, oldest first, leave where it was `d` before (R105). -/
def dirAfter (d : Lead) (ds : List Bool) : Lead :=
  match ds.getLast? with
  | none => d
  | some true => .forward
  | some false => .backward

theorem dirAfter_concat (d : Lead) (ds : List Bool) (b : Bool) :
    dirAfter d (ds ++ [b]) = if b then .forward else .backward := by
  rw [dirAfter, List.getLast?_concat]
  cases b with
  | true => rfl
  | false => rfl

theorem netCount_concat (ds : List Bool) (b : Bool) :
    (((ds ++ [b]).count true : Nat) : Int) - (ds ++ [b]).count false =
      ds.count true - ds.count false + if b then 1 else -1 := by
  rw [List.count_append, List.count_append]
  cases b with
  | true => simp; omega
  | false => simp; omega

/-- The angle and the direction along a run: each edge adds its count and sets its direction, and no other step but RESET
touches them (R105). -/
theorem EdgeRun.counts {s t : State} {ds : List Bool} (h : EdgeRun s ds t) :
    t.ENC_ANGLE = s.ENC_ANGLE + (ds.count true - ds.count false) ∧ t.DIR_FLAG = dirAfter s.DIR_FLAG ds := by
  induction h with
  | start => exact ⟨(Int.add_zero _).symm, rfl⟩
  | edge i _ isEdge taken step ih =>
    obtain ⟨hangle, hdir⟩ := exec_edge_counts isEdge taken step
    obtain ⟨ihangle, -⟩ := ih
    rw [hangle, hdir, ihangle, netCount_concat, dirAfter_concat, Int.add_assoc]
    exact ⟨rfl, rfl⟩
  | other i _ noEdge noReset step ih =>
    obtain ⟨hangle, hdir⟩ := exec_keeps_angle noEdge noReset step
    rw [hangle, hdir]
    exact ih

/-! ### Sequences of edges -/

theorem execAll_append {is js : List Instr} {s t : State} (h : execAll is s = .next t) :
    execAll (is ++ js) s = execAll js t := by
  induction is generalizing s with
  | nil => cases h; rfl
  | cons i is ih =>
    rw [List.cons_append]
    rw [execAll] at h ⊢
    split at h
    · exact ih h
    · cases h
    · cases h

/-- From both channels low, QCYCLE_FWD is four forward edges and brings the levels back (R105). -/
theorem execAll_qcycleFwd {s : State} (ha : s.QA = false) (hb : s.QB = false) :
    execAll qcycleFwd s = .next { s with
      ENC_ANGLE := s.ENC_ANGLE + 4, DIR_FLAG := .forward, sched := s.sched.drop 4 } := by
  simp [qcycleFwd, execAll, exec_qaRise, exec_qbRise, exec_qaFall, exec_qbFall, edge_a, edge_b, State.retire, ha, hb,
    Int.add_assoc]

theorem execAll_qcycleBwd {s : State} (ha : s.QA = false) (hb : s.QB = false) :
    execAll qcycleBwd s = .next { s with
      ENC_ANGLE := s.ENC_ANGLE - 4, DIR_FLAG := .backward, sched := s.sched.drop 4 } := by
  simp [qcycleBwd, execAll, exec_qaRise, exec_qbRise, exec_qaFall, exec_qbFall, edge_a, edge_b, State.retire, ha, hb,
    Int.sub_sub]

/-- A cycle leaves the levels as it found them, so the counts of the cycles add up (R105). -/
theorem execAll_qcycleFwdTimes (n : Nat) {s : State} (ha : s.QA = false) (hb : s.QB = false) :
    execAll (qcycleFwdTimes (n + 1)) s = .next { s with
      ENC_ANGLE := s.ENC_ANGLE + 4 * (n + 1 : Nat), DIR_FLAG := .forward, sched := s.sched.drop (4 * (n + 1)) } := by
  induction n generalizing s with
  | zero => exact execAll_qcycleFwd ha hb
  | succ n ih =>
    have hsplit : qcycleFwdTimes (n + 1 + 1) = qcycleFwd ++ qcycleFwdTimes (n + 1) := rfl
    have hangle : s.ENC_ANGLE + 4 + 4 * (n + 1 : Nat) = s.ENC_ANGLE + 4 * (n + 1 + 1 : Nat) := by omega
    have hsched : 4 + 4 * (n + 1) = 4 * (n + 1 + 1) := by omega
    rw [hsplit, execAll_append (execAll_qcycleFwd ha hb)]
    refine (ih ?_ ?_).trans ?_
    · exact ha
    · exact hb
    · simp only [hangle, List.drop_drop, hsched]

end Sys2Proof.Machine
end

section
/-! PROOFS. The statements of 41_quadrature.md: the four edge handlers, and the angle and the direction over a run. -/

namespace Sys2Proof.Machine

/-- Settles O12: `EdgeRun.counts` for every run; the sequences are edges whose other level is known. -/
theorem angleIsTheNetCountOfEdges : Obligations.AngleIsTheNetCountOfEdges := by
  refine ⟨fun s t ds h => ?_, fun s ha hb => ⟨execAll_qcycleFwd ha hb, execAll_qcycleBwd ha hb, fun n hn => ?_, ?_, ?_⟩⟩
  · obtain ⟨hangle, hdir⟩ := h.counts
    exact ⟨hangle.trans (Int.add_sub_assoc ..).symm, hdir⟩
  · obtain ⟨k, rfl⟩ := Nat.exists_eq_add_of_lt hn
    rw [Nat.zero_add]
    exact execAll_qcycleFwdTimes k ha hb
  · simp [execAll, exec_qaRise, exec_qbRise, edge_a, edge_b, State.retire, ha, hb, Int.add_assoc]
  · simp [execAll, exec_qaRise, exec_qbRise, edge_a, edge_b, State.retire, ha, hb, Int.sub_sub]

/-- Settles O10: the effect of an edge on A and on B, at both new levels. -/
theorem encoderEdgesCountOneAndSetTheDirection : Obligations.EncoderEdgesCountOneAndSetTheDirection := by
  refine fun s => ⟨fun h => ?_, fun h => exec_of_not_enabled (i := .qaRise) (congrArg not h), fun h => ?_,
    exec_of_not_enabled (i := .qaFall), fun h => ?_, fun h => exec_of_not_enabled (i := .qbRise) (congrArg not h),
    fun h => ?_, exec_of_not_enabled (i := .qbFall)⟩
  · rw [exec_qaRise h, edge_a]; rfl
  · rw [exec_qaFall h, edge_a]
    simp [State.retire, ← Bool.not_eq_true]
  · rw [exec_qbRise h, edge_b]; rfl
  · rw [exec_qbFall h, edge_b]
    simp [State.retire, ← Bool.not_eq_true]

end Sys2Proof.Machine
end

section
/-! SUPPORT. Binary32 arithmetic in the order of its values, infinities included: a rounded sum as a place in the order, its
monotonicity, and the signs of products and differences (00_scope.md R12; entry 15). -/

namespace Sys2Proof.Machine

/-! ### Places -/

theorem orderKey_ofSignMag (s : Bool) {m : Nat} (h : m < 2 ^ 31) :
    orderKey (ofSignMag s m).bits = signedUnits s m := by
  rw [orderKey, ofSignMag, signBit_ofSignMag s h, magBits_ofSignMag s h]

theorem orderKey_infOf (s : Bool) : orderKey (infOf s).bits = signedUnits s infBits :=
  orderKey_ofSignMag s infBits_lt

theorem isnan_infOf (s : Bool) : isnan (infOf s) = false := isnan_ofSignMag s (Nat.le_refl _)

theorem orderKey_posZero : orderKey F32.posZero.bits = 0 := by decide +kernel

/-- A value is its sign with its bits 30:0 (30_encoding.md R69). -/
theorem eq_ofSignMag (a : F32) : a = ofSignMag (signBit a.bits) (magBits a.bits) := by
  have hsplit : ∀ (s : Bool) (m : Nat), (if s then 2 ^ 31 + m else m) = (if s then 2 ^ 31 else 0) + m := by
    intro s m
    cases s <;> simp
  rw [ofSignMag, hsplit, ← word_toNat, BitVec.ofNat_toNat, BitVec.setWidth_eq]

/-- A value that is no NaN is finite or an infinity. -/
theorem isFinite_or_eq_infOf {a : F32} (h : isnan a = false) : isFinite a = true ∨ ∃ s, a = infOf s := by
  by_cases hfin : isFinite a = true
  · exact .inl hfin
  · have hle : ¬ infBits < magBits a.bits := fun hlt => by simp [isnan, classify, hlt] at h
    have hge := (not_congr (isFinite_iff a)).mp hfin
    refine .inr ⟨signBit a.bits, (eq_ofSignMag a).trans ?_⟩
    rw [show magBits a.bits = infBits by omega]
    rfl

/-- A negative value other than -0.0 has a place below zero. -/
theorem magBits_pos_of_ne_negZero {a : F32} (ha : a ≠ .negZero) (hs : signBit a.bits = true) : 0 < magBits a.bits := by
  by_contra h
  refine ha ((eq_ofSignMag a).trans ?_)
  rw [hs, show magBits a.bits = 0 by omega]
  rfl

/-- Values of the same place are the same, but for the two zeros. -/
theorem eq_of_orderKey_eq {a b : F32} (ha : a ≠ .negZero) (hb : b ≠ .negZero)
    (h : orderKey a.bits = orderKey b.bits) : a = b := by
  have pa := magBits_pos_of_ne_negZero ha
  have pb := magBits_pos_of_ne_negZero hb
  rw [eq_ofSignMag a, eq_ofSignMag b]
  unfold orderKey at h
  cases hsa : signBit a.bits <;> cases hsb : signBit b.bits <;> simp [hsa, hsb] at h pa pb
  · rw [h]
  · omega
  · omega
  · rw [h]

theorem isFinite_of_inUnitInterval {a : F32} (h : inUnitInterval a = true) : isFinite a = true := by
  obtain ⟨m, -, hclass, -⟩ := classify_of_inUnitInterval h
  rw [isFinite, hclass]

/-- The infinities stand at the two ends of the order. -/
theorem orderKey_bounds {a : F32} (h : isnan a = false) :
    -(infBits : Int) ≤ orderKey a.bits ∧ orderKey a.bits ≤ infBits := by
  obtain hfin | ⟨s, rfl⟩ := isFinite_or_eq_infOf h
  · exact (orderKey_of_isFinite hfin).imp Int.le_of_lt Int.le_of_lt
  · have hpos : 0 ≤ (infBits : Int) := Int.natCast_nonneg _
    rw [orderKey_infOf]
    cases s with
    | false => exact ⟨(Int.neg_nonpos_of_nonneg hpos).trans hpos, Int.le_refl _⟩
    | true => exact ⟨Int.le_refl _, (Int.neg_nonpos_of_nonneg hpos).trans hpos⟩

/-! ### Comparisons -/

theorem fge_iff (a b : F32) :
    fge a b = true ↔ isnan a = false ∧ isnan b = false ∧ orderKey b.bits ≤ orderKey a.bits := by
  simp [fge, ordered, and_assoc]

theorem fgt_iff (a b : F32) :
    fgt a b = true ↔ isnan a = false ∧ isnan b = false ∧ orderKey b.bits < orderKey a.bits := by
  simp [fgt, ordered, and_assoc]

theorem flt_iff (a b : F32) :
    flt a b = true ↔ isnan a = false ∧ isnan b = false ∧ orderKey a.bits < orderKey b.bits := by
  simp [flt, ordered, and_assoc]

theorem fge_posZero_iff {a : F32} (h : isnan a = false) : fge a .posZero = true ↔ 0 ≤ orderKey a.bits := by
  rw [fge_iff, orderKey_posZero]
  exact (and_iff_right h).trans (and_iff_right (by decide +kernel))

theorem posZero_fge_iff {a : F32} (h : isnan a = false) : fge .posZero a = true ↔ orderKey a.bits ≤ 0 := by
  rw [fge_iff, orderKey_posZero]
  exact (and_iff_right (by decide +kernel)).trans (and_iff_right h)

theorem fge_trans {a b c : F32} (hab : fge a b = true) (hbc : fge b c = true) : fge a c = true := by
  obtain ⟨ha, -, hab⟩ := (fge_iff a b).mp hab
  obtain ⟨-, hc, hbc⟩ := (fge_iff b c).mp hbc
  exact (fge_iff a c).mpr ⟨ha, hc, hbc.trans hab⟩

/-- The order is total but for the NaNs. -/
theorem fge_of_not_fgt {a b : F32} (ha : isnan a = false) (hb : isnan b = false) (h : fgt a b = false) :
    fge b a = true := by
  refine (fge_iff b a).mpr ⟨hb, ha, Int.not_lt.mp fun hlt => ?_⟩
  rw [(fgt_iff a b).mpr ⟨ha, hb, hlt⟩] at h
  cases h

theorem not_fgt_of_fge {a b : F32} (h : fge b a = true) : ¬ fgt a b = true := fun hgt => by
  obtain ⟨-, -, hle⟩ := (fge_iff b a).mp h
  obtain ⟨-, -, hlt⟩ := (fgt_iff a b).mp hgt
  omega

/-- Values that each reach the other are the same, but for the two zeros. -/
theorem fge_antisymm {a b : F32} (ha : a ≠ .negZero) (hb : b ≠ .negZero) (hab : fge a b = true) (hba : fge b a = true) :
    a = b := by
  obtain ⟨-, -, hle⟩ := (fge_iff a b).mp hab
  obtain ⟨-, -, hge⟩ := (fge_iff b a).mp hba
  exact eq_of_orderKey_eq ha hb (Int.le_antisymm hge hle)

/-! ### Sums -/

/-- The place of a whole number of units, once rounded. -/
def roundedKey (z : Int) : Int := signedUnits (decide (z < 0)) (roundMag z.natAbs 1)

theorem roundedKey_of_nonneg {z : Int} (h : 0 ≤ z) : roundedKey z = roundMag z.natAbs 1 := by
  rw [roundedKey, decide_eq_false (Int.not_lt.mpr h), signedUnits_false]

theorem roundedKey_of_neg {z : Int} (h : z < 0) : roundedKey z = -(roundMag z.natAbs 1 : Int) := by
  rw [roundedKey, decide_eq_true h, signedUnits_true]

theorem roundedKey_zero : roundedKey 0 = 0 := by
  rw [roundedKey, Int.natAbs_zero, roundMag_zero, signedUnits_zero]

/-- Rounding keeps the order. -/
theorem roundedKey_mono {y z : Int} (h : y ≤ z) : roundedKey y ≤ roundedKey z := by
  by_cases hz : z < 0
  · have hy : y < 0 := by omega
    have := roundMag_mono 1 (show z.natAbs ≤ y.natAbs by omega)
    rw [roundedKey_of_neg hy, roundedKey_of_neg hz]
    omega
  · rw [roundedKey_of_nonneg (Int.not_lt.mp hz)]
    by_cases hy : y < 0
    · rw [roundedKey_of_neg hy]
      omega
    · have := roundMag_mono 1 (show y.natAbs ≤ z.natAbs by omega)
      rw [roundedKey_of_nonneg (Int.not_lt.mp hy)]
      omega

/-- A finite value rounds to itself. -/
theorem roundedKey_unitsOf {a : F32} (h : isFinite a = true) : roundedKey (unitsOf a) = orderKey a.bits := by
  have hround := roundMag_exact ((isFinite_iff a).mp h)
  rw [unitsOf_of_isFinite h, orderKey]
  cases signBit a.bits with
  | false => rw [signedUnits_false, roundedKey_of_nonneg (Int.natCast_nonneg _), Int.natAbs_natCast, hround]; rfl
  | true =>
    by_cases hzero : magBits a.bits = 0
    · rw [hzero, magUnits_zero]
      exact roundedKey_zero
    · have hpos : 0 < magUnits (magBits a.bits) := Nat.pos_of_ne_zero fun h0 => hzero (magUnits_eq_zero.mp h0)
      rw [signedUnits_true, signedUnits_true, roundedKey_of_neg (by omega), Int.natAbs_neg, Int.natAbs_natCast, hround]

theorem isnan_addFinite (s : Bool) (m : Nat) (t : Bool) (n : Nat) : isnan (addFinite s m t n) = false := by
  unfold addFinite
  dsimp only
  split
  · exact isnan_ofSignMag _ (Nat.zero_le _)
  · exact isnan_ofSignMag _ (roundMag_le_inf _ _)

theorem orderKey_addFinite (s : Bool) (m : Nat) (t : Bool) (n : Nat) :
    orderKey (addFinite s m t n).bits = roundedKey (signedUnits s m + signedUnits t n) := by
  unfold addFinite
  dsimp only
  split
  · rename_i hz
    rw [hz, roundedKey_zero, orderKey_ofSignMag _ (by decide), signedUnits_zero]
  · exact orderKey_ofSignMag _ (Nat.lt_of_le_of_lt (roundMag_le_inf _ _) infBits_lt)

/-- The place of a sum of finite values is that of the exact sum. -/
theorem sumOr_of_isFinite (nan : F32) {a b : F32} (ha : isFinite a = true) (hb : isFinite b = true) :
    isnan (sumOr nan a b) = false ∧ orderKey (sumOr nan a b).bits = roundedKey (unitsOf a + unitsOf b) := by
  unfold sumOr
  rw [classify_of_isFinite ha, classify_of_isFinite hb, unitsOf_of_isFinite ha, unitsOf_of_isFinite hb]
  exact ⟨isnan_addFinite _ _ _ _, orderKey_addFinite _ _ _ _⟩

theorem fadd_infOf {a : F32} (ha : isFinite a = true) (s : Bool) : fadd a (infOf s) = infOf s := by
  unfold fadd sumOr
  rw [classify_of_isFinite ha, classify_infOf]

theorem infOf_fadd {b : F32} (hb : isFinite b = true) (s : Bool) : fadd (infOf s) b = infOf s := by
  unfold fadd sumOr
  rw [classify_of_isFinite hb, classify_infOf]

/-- A finite sum has finite terms. -/
theorem isFinite_of_sumOr {nan a b : F32} (hn : isnan nan = true) (h : isFinite (sumOr nan a b) = true) :
    isFinite a = true ∧ isFinite b = true := by
  have hnan : isFinite nan = false := Bool.eq_false_iff.mpr fun hf => by rw [isnan_of_isFinite hf] at hn; cases hn
  have hinf : ∀ s, isFinite (infOf s) = false := fun s => by simp [isFinite]
  unfold sumOr at h
  unfold isFinite
  cases ha : classify a with
  | nan => simp [ha, hnan] at h
  | inf s =>
    cases hb : classify b with
    | nan => simp [ha, hb, hnan] at h
    | inf t => by_cases hst : s = t <;> simp [ha, hb, hst, hnan, hinf] at h
    | fin t n => simp [ha, hb, hinf] at h
  | fin s m =>
    cases hb : classify b with
    | nan => simp [ha, hb, hnan] at h
    | inf t => simp [ha, hb, hinf] at h
    | fin t n => exact ⟨rfl, rfl⟩

theorem isFinite_of_fadd {a b : F32} (h : isFinite (fadd a b) = true) : isFinite a = true ∧ isFinite b = true :=
  isFinite_of_sumOr (isnan_nanOf _ _ _) h

theorem isFinite_of_fsub {a b : F32} (h : isFinite (fsub a b) = true) : isFinite a = true ∧ isFinite b = true := by
  obtain ⟨ha, hb⟩ := isFinite_of_sumOr (isnan_nanOf _ _ _) h
  exact ⟨ha, (isFinite_fneg b).symm.trans hb⟩

theorem isnan_fadd_eq_false {a b : F32} (ha : isFinite a = true) (hb : isnan b = false) : isnan (fadd a b) = false := by
  obtain hfin | ⟨s, rfl⟩ := isFinite_or_eq_infOf hb
  · exact (sumOr_of_isFinite _ ha hfin).1
  · rw [fadd_infOf ha]
    exact isnan_infOf s

/-- A sum with a finite value is monotone in the other term. -/
theorem fadd_mono {a b c : F32} (ha : isFinite a = true) (h : fge c b = true) : fge (fadd a c) (fadd a b) = true := by
  obtain ⟨hc, hb, hle⟩ := (fge_iff c b).mp h
  have nb := isnan_fadd_eq_false ha hb
  have nc := isnan_fadd_eq_false ha hc
  refine (fge_iff _ _).mpr ⟨nc, nb, ?_⟩
  obtain hcfin | ⟨s, rfl⟩ := isFinite_or_eq_infOf hc
  · obtain hbfin | ⟨t, rfl⟩ := isFinite_or_eq_infOf hb
    · obtain ⟨-, kb⟩ := sumOr_of_isFinite (nanOf .add a b) ha hbfin
      obtain ⟨-, kc⟩ := sumOr_of_isFinite (nanOf .add a c) ha hcfin
      have hunits : unitsOf b ≤ unitsOf c :=
        Int.not_lt.mp fun hlt => Int.not_lt.mpr hle ((orderKey_lt_iff hcfin hbfin).mpr hlt)
      rw [fadd, fadd, kb, kc]
      exact roundedKey_mono (Int.add_le_add_left hunits _)
    · cases t with
      | false => exact absurd hle (Int.not_le.mpr (orderKey_of_isFinite hcfin).2)
      | true =>
        rw [fadd_infOf ha]
        exact (orderKey_bounds nc).1
  · cases s with
    | false =>
      rw [fadd_infOf ha]
      exact (orderKey_bounds nb).2
    | true =>
      obtain hbfin | ⟨t, rfl⟩ := isFinite_or_eq_infOf hb
      · exact absurd hle (Int.not_le.mpr (orderKey_of_isFinite hbfin).1)
      · rw [fadd_infOf ha, fadd_infOf ha]
        exact hle

/-- A zero term, of either sign, leaves the place of the other. -/
theorem fadd_ofSignMag_zero (s : Bool) {a : F32} (ha : isnan a = false) :
    isnan (fadd a (ofSignMag s 0)) = false ∧ orderKey (fadd a (ofSignMag s 0)).bits = orderKey a.bits := by
  have hzero : isFinite (ofSignMag s 0) = true := (isFinite_ofSignMag_iff s (by decide)).mpr (by decide)
  obtain hfin | ⟨t, rfl⟩ := isFinite_or_eq_infOf ha
  · obtain ⟨hn, hkey⟩ := sumOr_of_isFinite (nanOf .add a (ofSignMag s 0)) hfin hzero
    rw [unitsOf_ofSignMag s (by decide), magUnits_zero, signedUnits_zero, Int.add_zero, roundedKey_unitsOf hfin] at hkey
    exact ⟨hn, hkey⟩
  · rw [infOf_fadd hzero]
    exact ⟨isnan_infOf t, rfl⟩

/-- Adding a value that is not below zero never lowers a finite value. -/
theorem fge_fadd_of_nonneg {a b : F32} (ha : isFinite a = true) (h : fge b .posZero = true) : fge (fadd a b) a = true := by
  obtain ⟨hn, hkey⟩ := fadd_ofSignMag_zero false (isnan_of_isFinite ha)
  exact fge_trans (fadd_mono ha h) ((fge_iff _ _).mpr ⟨hn, isnan_of_isFinite ha, Int.le_of_eq hkey.symm⟩)

/-- Adding a value that is not above zero never raises a finite value. -/
theorem fge_fadd_of_nonpos {a b : F32} (ha : isFinite a = true) (h : fge .posZero b = true) : fge a (fadd a b) = true := by
  obtain ⟨hn, hkey⟩ := fadd_ofSignMag_zero false (isnan_of_isFinite ha)
  exact fge_trans ((fge_iff _ _).mpr ⟨isnan_of_isFinite ha, hn, Int.le_of_eq hkey⟩) (fadd_mono ha h)

/-- Values of the same place, added to a value in [0,1], give the same sum, which is never -0.0. -/
theorem fadd_congr {d b c : F32} (hd : inUnitInterval d = true) (hb : isnan b = false) (hc : isnan c = false)
    (h : orderKey b.bits = orderKey c.bits) : fadd d b = fadd d c := by
  have hfin := isFinite_of_inUnitInterval hd
  exact fge_antisymm (fadd_ne_negZero hd) (fadd_ne_negZero hd)
    (fadd_mono hfin ((fge_iff _ _).mpr ⟨hb, hc, Int.le_of_eq h.symm⟩))
    (fadd_mono hfin ((fge_iff _ _).mpr ⟨hc, hb, Int.le_of_eq h⟩))

/-! ### Differences and products -/

/-- A finite difference has the sign of the comparison of its terms. -/
theorem fsub_sign {a b : F32} (ha : isFinite a = true) (hb : isFinite b = true) :
    (fgt a b = true → fge (fsub a b) .posZero = true) ∧ (flt a b = true → fge .posZero (fsub a b) = true) := by
  obtain ⟨hn, hkey⟩ := sumOr_of_isFinite (nanOf .sub a b) ha ((isFinite_fneg b).trans hb)
  rw [unitsOf_fneg hb] at hkey
  refine ⟨fun h => ?_, fun h => ?_⟩
  · obtain ⟨-, -, hlt⟩ := (fgt_iff a b).mp h
    have hunits := (orderKey_lt_iff hb ha).mp hlt
    rw [fsub, fge_posZero_iff hn, hkey, ← roundedKey_zero]
    exact roundedKey_mono (by omega)
  · obtain ⟨-, -, hlt⟩ := (flt_iff a b).mp h
    have hunits := (orderKey_lt_iff ha hb).mp hlt
    rw [fsub, posZero_fge_iff hn, hkey, ← roundedKey_zero]
    exact roundedKey_mono (by omega)

theorem isnan_fmul_eq_false {a b : F32} (ha : isFinite a = true) (hb : isFinite b = true) : isnan (fmul a b) = false := by
  rw [fmul_of_classify (classify_of_isFinite ha) (classify_of_isFinite hb)]
  exact isnan_ofSignMag _ (roundMag_le_inf _ _)

/-- A product with a positive factor has the other's sign, and is a zero where the other is. -/
theorem orderKey_fmul_of_pos {a b : F32} (ha : isFinite a = true) (hpos : fgt a .posZero = true)
    (hb : isFinite b = true) :
    ∃ r : Nat, orderKey (fmul a b).bits = signedUnits (signBit b.bits) r ∧ (magBits b.bits = 0 → r = 0) := by
  obtain ⟨-, -, hkey⟩ := (fgt_iff a .posZero).mp hpos
  have hsign : signBit a.bits = false := by
    rw [orderKey_posZero, orderKey] at hkey
    cases hs : signBit a.bits with
    | false => rfl
    | true =>
      rw [hs, signedUnits_true] at hkey
      omega
  refine ⟨roundMag (magUnits (magBits a.bits) * magUnits (magBits b.bits)) (2 ^ 149), ?_, fun h0 => ?_⟩
  · rw [fmul_of_classify (classify_of_isFinite ha) (classify_of_isFinite hb), hsign, Bool.false_xor]
    exact orderKey_ofSignMag _ (Nat.lt_of_le_of_lt (roundMag_le_inf _ _) infBits_lt)
  · rw [h0, magUnits_zero, Nat.mul_zero, roundMag_zero]

/-- A positive factor keeps the side of zero of the other. -/
theorem fmul_sign {a b : F32} (ha : isFinite a = true) (hpos : fgt a .posZero = true) (hb : isFinite b = true) :
    (fge b .posZero = true → fge (fmul a b) .posZero = true) ∧
    (fge .posZero b = true → fge .posZero (fmul a b) = true) := by
  obtain ⟨r, hr, hzero⟩ := orderKey_fmul_of_pos ha hpos hb
  have hkey : orderKey b.bits = signedUnits (signBit b.bits) (magBits b.bits) := rfl
  have hn := isnan_fmul_eq_false ha hb
  rw [fge_posZero_iff (isnan_of_isFinite hb), posZero_fge_iff (isnan_of_isFinite hb), fge_posZero_iff hn,
    posZero_fge_iff hn, hr, hkey]
  cases signBit b.bits <;> simp only [signedUnits_false, signedUnits_true] <;> omega

/-- Zero times a finite value is a zero. -/
theorem fmul_posZero {b : F32} (hb : isFinite b = true) : fmul .posZero b = ofSignMag (signBit b.bits) 0 := by
  rw [fmul_of_classify (s := false) (m := 0) (by decide +kernel) (classify_of_isFinite hb), Nat.zero_mul, roundMag_zero,
    Bool.false_xor]

/-- Zero times a value that is not finite is no number. -/
theorem isnan_fmul_posZero {b : F32} (hb : isFinite b = false) : isnan (fmul .posZero b) = true := by
  by_cases hn : isnan b = true
  · exact isnan_fmul (.inr hn)
  · obtain hfin | ⟨s, rfl⟩ := isFinite_or_eq_infOf (Bool.eq_false_iff.mpr hn)
    · rw [hfin] at hb; cases hb
    · exact isnan_fmul_zero_inf (s := false) (by decide +kernel) (classify_infOf s)

/-! ### The clamp and the proportional update -/

/-- The clamp does not take a candidate below a duty that it reaches (42_speed_controller.md R116). -/
theorem clampDuty_keeps_above {d v : F32} (hd : inUnitInterval d = true) (h : fge v d = true) (l : Lead) :
    fge (clampDuty v l (some l)) d = true := by
  obtain ⟨hzero, hone, hn, -⟩ := compare_of_inUnitInterval hd
  rw [clampDuty_eq]
  by_cases hv : fgt v .one = true
  · rw [if_pos hv, if_pos ⟨by decide +kernel, rfl⟩]
    exact fge_of_not_fgt hn (by decide +kernel) hone
  · rw [if_neg hv, if_pos ⟨fge_trans h hzero, rfl⟩]
    exact h

/-- The clamp does not take a candidate above a duty that reaches it (R116). -/
theorem clampDuty_keeps_below {d v : F32} (hd : inUnitInterval d = true) (h : fge d v = true) (l : Lead) :
    fge d (clampDuty v l (some l)) = true := by
  obtain ⟨hzero, hone, hn, -⟩ := compare_of_inUnitInterval hd
  have hv : ¬ fgt v .one = true := not_fgt_of_fge (fge_trans (fge_of_not_fgt hn (by decide +kernel) hone) h)
  rw [clampDuty_eq, if_neg hv]
  split
  · exact h
  · exact hzero

section
variable {c : Config} (hki : c.KI = .posZero) (hkd : c.KD = .posZero)
include hki hkd

/-- With KI = KD = +0.0 and a finite integral and difference the update has the place of KP e (R117). -/
theorem pidUpdate_proportional {e integ diff : F32} (hp : isnan (fmul c.KP e) = false) (hi : isFinite integ = true)
    (hd : isFinite diff = true) :
    isnan (pidUpdate c e integ diff) = false ∧
    orderKey (pidUpdate c e integ diff).bits = orderKey (fmul c.KP e).bits := by
  obtain ⟨hn, hkey⟩ := fadd_ofSignMag_zero (signBit integ.bits) hp
  obtain ⟨hn', hkey'⟩ := fadd_ofSignMag_zero (signBit diff.bits) hn
  rw [pidUpdate, hki, hkd, fmul_posZero hi, fmul_posZero hd]
  exact ⟨hn', hkey'.trans hkey⟩

/-- With KI = KD = +0.0 an integral or a difference that is not finite makes the update a NaN (R117). -/
theorem isnan_pidUpdate (e : F32) {integ diff : F32} (h : isFinite integ = false ∨ isFinite diff = false) :
    isnan (pidUpdate c e integ diff) = true := by
  rw [pidUpdate, hki, hkd]
  obtain hi | hd := h
  · exact isnan_fadd (.inl (isnan_fadd (.inr (isnan_fmul_posZero hi))))
  · exact isnan_fadd (.inr (isnan_fmul_posZero hd))

end

end Sys2Proof.Machine
end

section
/-! SUPPORT. The speed controller (42_speed_controller.md): when CTRL_DONE is enabled, the effect of its two steps, which
steps leave its registers alone, and one window as one term of the accumulator formula. -/

namespace Sys2Proof.Machine

/-! ### The enabling of the two steps -/

/-- `goal_reached()` where the window's direction and goal are written (R113; entry 9). -/
theorem goalReached_iff (s : State) :
    goalReached s = true ↔ ∃ goal, s.WAIT_GOAL = some goal ∧
      (s.WAIT_DIR = some .fwd ∧ goal ≤ s.ENC_ANGLE ∨ s.WAIT_DIR = some .bwd ∧ s.ENC_ANGLE ≤ goal) := by
  unfold goalReached
  cases s.WAIT_DIR with
  | none => simp
  | some d =>
    cases s.WAIT_GOAL with
    | none => cases d <;> simp
    | some goal => cases d <;> simp

theorem ctrlDone_enabled_iff (m : BitVec 32) (s : State) :
    enabled (.ctrlDone m) s = true ↔
      s.MODE = .run ∧ s.CTRL_RUN = .running ∧ s.CTRL_PHASE = .wait ∧ goalReached s = true := by
  simp [enabled, ctrlDoneEnabled, inRun, and_assoc]

theorem ctrlTop_enabled_iff (s : State) :
    enabled .ctrlTop s = true ↔ s.MODE = .run ∧ s.CTRL_RUN = .running ∧ s.CTRL_PHASE = .top := by
  simp [enabled, ctrlTopEnabled, inRun, and_assoc]

/-- The environment, the poll, the host and the start-up steps leave the window and the angle alone (R119;
41_quadrature.md R106). -/
theorem exec_keeps_goalReached {i : Instr} {s t : State} (hq : i.agent ≠ .qdec) (hc : i.agent ≠ .spd) (hr : i ≠ .reset)
    (ht : exec i s = .next t) : goalReached t = goalReached s := by
  have frame : restoreFields i.agent s t = s := exec_restoreFields ht rfl hr
  rw [← frame]
  cases h : i.agent with
  | qdec => exact absurd h hq
  | spd => exact absurd h hc
  | env | poll | host | boot => rfl

/-- In WAIT the one step of the controller that can be enabled is CTRL_DONE, whatever its operand (R112, R114). -/
theorem ctrlDone_enabled_of_wait {i : Instr} {s : State} (hi : i.agent = .spd) (hwait : s.CTRL_PHASE = .wait)
    (he : enabled i s = true) (m : BitVec 32) : enabled (.ctrlDone m) s = true := by
  cases i with
  | ctrlDone _ => exact he
  | ctrlTop =>
    obtain ⟨-, -, htop⟩ := (ctrlTop_enabled_iff s).mp he
    rw [hwait] at htop
    cases htop
  | envSense _ | qaFall | qaRise | qbFall | qbRise | poll | apply | rotorRead | cpWriteTarget _ | cpStop | cpWriteLead _
  | cpZeroDuty | cpStart _ | reset | syncDrive | syncSample | hostRx _ | hostIssue => cases hi

/-! ### The two steps -/

theorem ctrlTopEffect_of_stopped {s : State} (h : s.DIR_FLAG = .stopped) : ctrlTopEffect s = s := by
  rw [ctrlTopEffect, h]

theorem ctrlTopEffect_of_forward {s : State} (h : s.DIR_FLAG = .forward) :
    ctrlTopEffect s = openWindow .fwd (s.ENC_ANGLE + s.cfg.TICKS) s := by
  rw [ctrlTopEffect, h]

theorem ctrlTopEffect_of_backward {s : State} (h : s.DIR_FLAG = .backward) :
    ctrlTopEffect s = openWindow .bwd (s.ENC_ANGLE - s.cfg.TICKS) s := by
  rw [ctrlTopEffect, h]

theorem exec_ctrlTop {s : State} (h : enabled .ctrlTop s = true) :
    exec .ctrlTop s = .next ((ctrlTopEffect s).retire 1) :=
  exec_of_does (i := .ctrlTop) h rfl

/-- An enabled CTRL_DONE closes the window with the reading it leaves in TMR_ELAPSED (R114). -/
theorem exec_ctrlDone_duty {m : BitVec 32} {s t : State} (he : enabled (.ctrlDone m) s = true)
    (ht : exec (.ctrlDone m) s = .next t) : t.DUTY = closedDuty t.TMR_ELAPSED s := by
  cases ht.symm.trans (exec_ctrlDone he)
  rfl

/-! ### The registers over a run -/

/-- `PidKept s u`: the parameters, the start lead and the three registers of the controller are those of `s` (R121). -/
structure PidKept (s u : State) : Prop where
  cfg : u.cfg = s.cfg
  lead : u.START_LEAD = s.START_LEAD
  regs : pidRegs u = pidRegs s

theorem pidKept_ctrlTopEffect (s : State) : PidKept s (ctrlTopEffect s) := by
  unfold ctrlTopEffect
  split <;> exact ⟨rfl, rfl, rfl⟩

theorem pidKept_appendByte_emit (b : Byte) (e : Event) (s : State) : PidKept s (appendByte b (emit e s)) := by
  unfold appendByte
  split <;> exact ⟨rfl, rfl, rfl⟩

/-- Of the operations of the queue only a start and a zeroing of the duty write these registers (43_command_port.md R123
to R127). -/
theorem pidKept_performCp {op : CpOp} {q : List CpOp} {s u : State} (hzero : op ≠ .zeroDuty)
    (hstart : ∀ l, op ≠ .start l) (h : performCp op { s with HOST_PENDING := q } = .ok u) : PidKept s u := by
  cases op with
  | zeroDuty => exact absurd rfl hzero
  | start l => exact absurd rfl (hstart l)
  | writeTarget _ | stop | writeLead _ => cases h; exact ⟨rfl, rfl, rfl⟩

/-- The effects that leave the controller's registers alone: all but that of a window's close, of RESET, of a start and of
a zeroing of the duty. -/
theorem does_pidKept {i : Instr} {s u : State} (hdone : ∀ m, i ≠ .ctrlDone m) (hreset : i ≠ .reset)
    (hzero : performed i s ≠ some .zeroDuty) (hstart : ∀ l, performed i s ≠ some (.start l)) (h : Does i s u) :
    PidKept s u := by
  cases i with
  | ctrlDone m => exact absurd rfl (hdone m)
  | reset => exact absurd rfl hreset
  | cpZeroDuty => exact absurd rfl hzero
  | cpStart L =>
    obtain ⟨l, hl, -⟩ := h
    exact absurd (congrArg (Option.map CpOp.start) hl) (hstart l)
  | hostIssue =>
    obtain ⟨op, rest, hp, hu⟩ := h
    have hhead : performed .hostIssue s = some op := congrArg List.head? hp
    rw [hhead] at hzero hstart
    exact pidKept_performCp (fun e => hzero (congrArg some e)) (fun l e => hstart l (congrArg some e)) hu
  | ctrlTop => cases h; exact pidKept_ctrlTopEffect s
  | poll =>
    obtain ⟨-, rfl⟩ | ⟨-, o, -, rfl⟩ := h
    · exact ⟨rfl, rfl, rfl⟩
    · rw [applyPattern, drivePattern_eq]; exact ⟨rfl, rfl, rfl⟩
  | syncDrive => cases h; rw [syncDriveEffect, drivePattern_eq]; exact ⟨rfl, rfl, rfl⟩
  | qaFall | qaRise | qbFall | qbRise => cases h; exact ⟨rfl, rfl, rfl⟩
  | hostRx b =>
    obtain ⟨-, rfl⟩ | ⟨-, ops, -, rfl⟩ := h
    · exact pidKept_appendByte_emit b _ s
    · exact ⟨rfl, rfl, rfl⟩
  | cpWriteLead L => obtain ⟨l, -, rfl⟩ := h; exact ⟨rfl, rfl, rfl⟩
  | apply | rotorRead => exact h.elim
  | envSense _ | cpWriteTarget _ | cpStop | syncSample => cases h; exact ⟨rfl, rfl, rfl⟩

/-- The steps of a run between two windows leave the controller's registers alone (R121). -/
theorem exec_pidKept {i : Instr} {s t : State} (hdone : ∀ m, i = .ctrlDone m → enabled i s = false)
    (hreset : i ≠ .reset) (hzero : performed i s ≠ some .zeroDuty) (hstart : ∀ l, performed i s ≠ some (.start l))
    (ht : exec i s = .next t) : PidKept s t := by
  by_cases hclose : ∃ m, i = .ctrlDone m
  · obtain ⟨m, hm⟩ := hclose
    cases ht.symm.trans (exec_of_not_enabled (hdone m hm))
    exact ⟨rfl, rfl, rfl⟩
  · refine of_exec_next ht ⟨rfl, rfl, rfl⟩ (fun _ _ => ⟨rfl, rfl, rfl⟩) fun u _ hu => ?_
    obtain ⟨hcfg, hlead, hregs⟩ := does_pidKept (fun m hm => hclose ⟨m, hm⟩) hreset hzero hstart hu
    exact ⟨hcfg, hlead, hregs⟩

/-- A window's close is one term of the accumulator formula, with the reading it leaves in TMR_ELAPSED (R114, R121). -/
theorem exec_ctrlDone_accumulates {m : BitVec 32} {s t : State} (he : enabled (.ctrlDone m) s = true)
    (ht : exec (.ctrlDone m) s = .next t) :
    t.cfg = s.cfg ∧ t.START_LEAD = s.START_LEAD ∧
    pidRegs t = accumulate s.cfg s.START_LEAD (pidRegs s) ⟨t.TMR_ELAPSED, s.CONTROL_TARGET, s.DIR_FLAG⟩ := by
  have hduty := exec_ctrlDone_duty he ht
  cases ht.symm.trans (exec_ctrlDone he)
  refine ⟨rfl, rfl, ?_⟩
  rw [pidRegs, hduty, closedDuty, clampDuty_eq]
  rfl

/-- Over a run the registers are the fold of the accumulator formula over the windows closed (R121). -/
theorem PidRun.accumulates {s t : State} {ws : List Window} (h : PidRun s ws t) :
    t.cfg = s.cfg ∧ t.START_LEAD = s.START_LEAD ∧
    pidRegs t = ws.foldl (accumulate s.cfg s.START_LEAD) (pidRegs s) := by
  induction h with
  | start => exact ⟨rfl, rfl, rfl⟩
  | close m _ taken step ih =>
    obtain ⟨ihcfg, ihlead, ihregs⟩ := ih
    obtain ⟨hcfg, hlead, hregs⟩ := exec_ctrlDone_accumulates taken step
    refine ⟨hcfg.trans ihcfg, hlead.trans ihlead, ?_⟩
    rw [hregs, ihcfg, ihlead, ihregs, List.foldl_concat]
  | other i _ noClose noReset noZero noStart step ih =>
    obtain ⟨ihcfg, ihlead, ihregs⟩ := ih
    obtain ⟨hcfg, hlead, hregs⟩ := exec_pidKept noClose noReset noZero noStart step
    exact ⟨hcfg.trans ihcfg, hlead.trans ihlead, hregs.trans ihregs⟩

/-! ### A start -/

/-- A start that the controller is ready for takes its effect, from the queue or by its own word (43_command_port.md R127,
R129). -/
theorem does_start {i : Instr} {l : Lead} {s : State} (hp : performed i s = some (.start l)) (hl : l ≠ .stopped)
    (hs : s.CTRL_RUN = .stopped) : ∃ q, Does i s (startController l { s with HOST_PENDING := q }) := by
  cases i with
  | cpStart L =>
    obtain ⟨l', hL, he⟩ := Option.map_eq_some_iff.mp hp
    cases he
    exact ⟨s.HOST_PENDING, l, hL, hl, hs, rfl⟩
  | hostIssue =>
    obtain ⟨rest, hq⟩ := List.head?_eq_some_iff.mp hp
    exact ⟨rest, _, _, hq, by simp [performCp, hl, hs]⟩
  | cpWriteLead L =>
    obtain ⟨l', -, he⟩ := Option.map_eq_some_iff.mp hp
    cases he
  | cpWriteTarget _ | cpStop | cpZeroDuty | envSense _ | qaFall | qaRise | qbFall | qbRise | poll | apply | rotorRead
  | ctrlTop | ctrlDone _ | reset | syncDrive | syncSample | hostRx _ => cases hp

end Sys2Proof.Machine
end

section
/-! PROOFS. The statements of 42_speed_controller.md: the sequence of duties, the wait, the frame, the proportional update and
the two steps of the controller. -/

namespace Sys2Proof.Machine

/-- Settles O32: `PidRun.accumulates` for every run; a start leaves the duty and clears the other two registers. -/
theorem dutySequenceIsTheAccumulator : Obligations.DutySequenceIsTheAccumulator := by
  refine ⟨fun s t ws h => ?_, fun i l s t hp he hl hs ht => ?_⟩
  · obtain ⟨-, -, hregs⟩ := h.accumulates
    exact hregs
  · obtain ⟨q, hdoes⟩ := does_start hp hl hs
    cases ht.symm.trans (exec_of_does he hdoes)
    exact ⟨rfl, rfl⟩

/-- Settles O26: a step of the controller holds or leaves WAIT, RESET leaves WAIT, and the steps of the other agents but
QDEC keep the goal as it was. -/
theorem onlyAnEdgeLiftsTheWait : Obligations.OnlyAnEdgeLiftsTheWait := by
  intro i s t m hwait hrunning hrun hne ht het
  by_contra hq
  obtain ⟨-, -, hwait', hgoal'⟩ := (ctrlDone_enabled_iff m t).mp het
  have short : goalReached s ≠ true := fun hgoal =>
    Bool.eq_false_iff.mp hne ((ctrlDone_enabled_iff m s).mpr ⟨hrun, hrunning, hwait, hgoal⟩)
  by_cases hspd : i.agent = .spd
  · have held : enabled i s = false :=
      Bool.eq_false_iff.mpr fun he => Bool.eq_false_iff.mp hne (ctrlDone_enabled_of_wait hspd hwait he m)
    cases ht.symm.trans (exec_of_not_enabled held)
    exact short hgoal'
  · by_cases hreset : i = .reset
    · subst hreset
      cases ht
      cases hwait'
    · exact short ((exec_keeps_goalReached hq hspd hreset ht).symm.trans hgoal')

/-- Settles O28: the frame of the agent SPD. -/
theorem controllerWritesOnlyItsFields : Obligations.ControllerWritesOnlyItsFields :=
  fun _ _ _ ha ht => exec_restoreFields ht ha fun hi => by rw [hi] at ha; cases ha

/-- Settles O30: the update has the place of KP e, or is a NaN, which the clamp zeroes. -/
theorem proportionalOnlyUpdate : Obligations.ProportionalOnlyUpdate := by
  intro m s t hwf hd hki hkd he ht
  obtain ⟨-, hkp, -⟩ := paramsOk_ranges hwf
  dsimp only
  rw [exec_ctrlDone_duty he ht, closedDuty]
  refine ⟨fun hinteg hdiff => ?_, fun hnot => ?_⟩
  · obtain ⟨-, herr⟩ := isFinite_of_fadd hinteg
    have hp := isnan_fmul_eq_false hkp herr
    obtain ⟨hn, hkey⟩ := pidUpdate_proportional hki hkd hp hinteg hdiff
    rw [fadd_congr hd hn hp hkey]
  · exact clampDuty_of_isnan (isnan_fadd (.inr (isnan_pidUpdate hki hkd _ hnot))) _ _

/-- Settles O31: the error, its product with KP, the candidate and its clamp lie on the side of the old duty on which the
reading lies of the target. -/
theorem slowMotorNeverLowersTheDuty : Obligations.SlowMotorNeverLowersTheDuty := by
  intro m s t hwf hd hkp hki hkd hlead he ht hinteg hdiff
  obtain ⟨-, hkpfin, -⟩ := paramsOk_ranges hwf
  obtain ⟨-, herr⟩ := isFinite_of_fadd hinteg
  obtain ⟨hreading, htarget⟩ := isFinite_of_fsub herr
  have hdfin := isFinite_of_inUnitInterval hd
  obtain ⟨above, below⟩ := fsub_sign hreading htarget
  obtain ⟨nonneg, nonpos⟩ := fmul_sign hkpfin hkp herr
  rw [(proportionalOnlyUpdate m s t hwf hd hki hkd he ht).1 hinteg hdiff, hlead]
  exact ⟨fun hslow => clampDuty_keeps_above hd (fge_fadd_of_nonneg hdfin (nonneg (above hslow))) _,
    fun hfast => clampDuty_keeps_below hd (fge_fadd_of_nonpos hdfin (nonpos (below hfast))) _⟩

/-- Settles O23: where it is enabled, `ctrlTopEffect` at each sign of DIR_FLAG. -/
theorem ctrlTopOpensTheWindow : Obligations.CtrlTopOpensTheWindow := by
  refine fun s => ⟨fun hheld => exec_of_not_enabled (Bool.eq_false_iff.mpr fun he => ?_), fun hrun hrunning htop => ?_⟩
  · obtain ⟨hrun, hrunning, htop⟩ := (ctrlTop_enabled_iff s).mp he
    simp [hrun, hrunning, htop] at hheld
  · rw [exec_ctrlTop ((ctrlTop_enabled_iff s).mpr ⟨hrun, hrunning, htop⟩)]
    refine ⟨fun hd => ?_, fun hd => ?_, fun hd => ?_⟩
    · rw [ctrlTopEffect_of_stopped hd]; rfl
    · rw [ctrlTopEffect_of_forward hd]; rfl
    · rw [ctrlTopEffect_of_backward hd]; rfl

/-- Settles O24: the close of the window with the operand as its reading, and the clamp in the words of R116. -/
theorem ctrlDoneUpdatesTheDuty : Obligations.CtrlDoneUpdatesTheDuty := by
  intro s m goal hrun hrunning hwait hgoal hreached hfin hsign
  dsimp only
  have he := (ctrlDone_enabled_iff m s).mpr ⟨hrun, hrunning, hwait, (goalReached_iff s).mpr ⟨goal, hgoal, hreached⟩⟩
  obtain ⟨hreading, hcount⟩ := readingOf_of_isReading ((isReading_iff m).mpr ⟨hfin, hsign⟩) s
  rw [exec_ctrlDone he, closeWindow, hreading, hcount, ← clampDuty_eq]
  rfl

/-- Settles O25: each case denies a part of the enabling. -/
theorem ctrlDoneHoldsBeforeTheGoal : Obligations.CtrlDoneHoldsBeforeTheGoal := by
  intro s m hheld
  refine exec_of_not_enabled (Bool.eq_false_iff.mpr fun he => ?_)
  obtain ⟨hrun, hrunning, hwait, hreached⟩ := (ctrlDone_enabled_iff m s).mp he
  obtain ⟨goal, hgoal, hdir⟩ := (goalReached_iff s).mp hreached
  obtain h | h | h | ⟨goal', hgoal', hshort⟩ | h | h := hheld
  · exact h hrun
  · rw [hrunning] at h; cases h
  · rw [hwait] at h; cases h
  · cases hgoal.symm.trans hgoal'
    obtain ⟨hd, hle⟩ | ⟨hd, hle⟩ := hdir
    · simp [hd] at hshort
      omega
    · simp [hd] at hshort
      omega
  · simp [h] at hdir
  · rw [hgoal] at h; cases h

end Sys2Proof.Machine
end

section
/-! SUPPORT. Quotients and absolute values: the target of a speed (43_command_port.md R130, R131; 00_scope.md R12). -/

namespace Sys2Proof.Machine

@[simp] theorem magBits_fabs (a : F32) : magBits (fabs a).bits = magBits a.bits := by
  simp [magBits, fabs]

@[simp] theorem signBit_fabs (a : F32) : signBit (fabs a).bits = false := by
  simp [signBit, fabs]

theorem fabs_ofSignMag (s : Bool) {m : Nat} (h : m < 2 ^ 31) : fabs (ofSignMag s m) = ofSignMag false m := by
  have hmag : magBits (ofSignMag s m).bits = m := magBits_ofSignMag s h
  rw [eq_ofSignMag (fabs (ofSignMag s m)), signBit_fabs, magBits_fabs, hmag]

/-- A number that is not zero over a zero is an infinity (entry 15). -/
theorem fdiv_zero {a b : F32} {s t : Bool} {m : Nat} (ha : classify a = .fin s m) (hm : m ≠ 0)
    (hb : classify b = .fin t 0) : fdiv a b = infOf (s ^^ t) := by
  unfold fdiv
  rw [ha, hb]
  exact (if_pos rfl).trans (if_neg hm)

/-- A finite value over an infinity is a zero (entry 15). -/
theorem fdiv_inf {a b : F32} {s t : Bool} {m : Nat} (ha : classify a = .fin s m) (hb : classify b = .inf t) :
    fdiv a b = ofSignMag (s ^^ t) 0 := by
  unfold fdiv
  rw [ha, hb]

/-- A number that is not zero has a quotient by every value that is no NaN, and its bits 30:0 are at most those of an
infinity. -/
theorem fdiv_eq_ofSignMag {a b : F32} {s : Bool} {m : Nat} (ha : classify a = .fin s m) (hm : m ≠ 0)
    (hb : isnan b = false) : ∃ t k, k ≤ infBits ∧ fdiv a b = ofSignMag t k := by
  cases hc : classify b with
  | nan => simp [isnan_eq, hc] at hb
  | inf t => exact ⟨_, 0, Nat.zero_le _, fdiv_inf ha hc⟩
  | fin t n =>
    by_cases hn : n = 0
    · subst hn
      exact ⟨_, infBits, Nat.le_refl _, fdiv_zero ha hm hc⟩
    · exact ⟨_, _, roundMag_le_inf _ _, fdiv_of_classify ha hc hn⟩

/-- TAF is finite and above zero (00_scope.md R8). -/
theorem classify_TAF {c : Config} (h : c.wf = true) : ∃ s m, classify c.TAF = .fin s m ∧ m ≠ 0 := by
  obtain ⟨-, -, -, -, hfin, hpos, -⟩ := paramsOk_ranges h
  refine ⟨_, _, classify_of_isFinite hfin, fun hzero => ?_⟩
  obtain ⟨-, -, hkey⟩ := (fgt_iff _ _).mp hpos
  rw [orderKey_posZero, orderKey, magUnits_eq_zero.mp hzero, signedUnits_zero] at hkey
  exact Int.lt_irrefl 0 hkey

theorem targetOf_zero {c : Config} {speed : F32} (h : c.wf = true) (hs : speed = .posZero ∨ speed = .negZero) :
    targetOf c.TAF speed = .posInf := by
  obtain ⟨s, m, hc, hm⟩ := classify_TAF h
  have hzero : ∃ t, classify speed = .fin t 0 := by
    obtain rfl | rfl := hs
    · exact ⟨false, by decide +kernel⟩
    · exact ⟨true, by decide +kernel⟩
  obtain ⟨t, ht⟩ := hzero
  rw [targetOf, fdiv_zero hc hm ht]
  exact fabs_ofSignMag _ infBits_lt

theorem targetOf_inf {c : Config} (h : c.wf = true) (t : Bool) : targetOf c.TAF (infOf t) = .posZero := by
  obtain ⟨s, m, hc, -⟩ := classify_TAF h
  rw [targetOf, fdiv_inf hc (classify_infOf t)]
  exact fabs_ofSignMag _ (Nat.two_pow_pos 31)

/-- The target of a speed is no NaN (43_command_port.md R131). -/
theorem isnan_targetOf {c : Config} {speed : F32} (h : c.wf = true) (hs : isnan speed = false) :
    isnan (targetOf c.TAF speed) = false := by
  obtain ⟨s, m, hc, hm⟩ := classify_TAF h
  obtain ⟨t, k, hk, hdiv⟩ := fdiv_eq_ofSignMag hc hm hs
  rw [targetOf, hdiv, fabs_ofSignMag t (Nat.lt_of_le_of_lt hk infBits_lt)]
  exact isnan_ofSignMag false hk

end Sys2Proof.Machine
end

section
/-! SUPPORT. The command port (43_command_port.md): when its operations are enabled, the lead of an operand byte, an
operation that is refused with its next state, and the SET_SPEED sequence by the sign of the speed. -/

namespace Sys2Proof.Machine

/-! ### The enabling -/

theorem hostIdle_iff (s : State) : hostIdle s = true ↔ s.MODE = .run ∧ s.HOST_PENDING = [] := by
  simp [hostIdle, inRun]

theorem hostIdle_eq_false {s : State} (h : s.MODE ≠ .run ∨ s.HOST_PENDING ≠ []) : hostIdle s = false :=
  Bool.eq_false_iff.mpr fun he => (not_and_or.mpr h) ((hostIdle_iff s).mp he)

theorem hostIssue_enabled_iff (s : State) :
    enabled .hostIssue s = true ↔ s.MODE = .run ∧ s.HOST_PENDING ≠ [] := by
  simp [enabled, hostIssueEnabled, inRun]

/-! ### The refusals -/

theorem setSpeedOps_of_isnan {speed : F32} (h : isnan speed = true) (taf : F32) :
    setSpeedOps taf speed = .error .badSpeed := if_pos h

/-- An enabled operation that is refused sets the mark with its reason and uses up its word: the converse of the second
case of `exec_next_cases`. -/
theorem exec_of_refuses {i : Instr} {s : State} {r : RefuseReason} (he : enabled i s = true) (h : Refuses i s r) :
    exec i s = .next ((refuse r s).retire (wordLength i)) := by
  have taken : ∀ o : StepOutcome, gate (enabled i s) s o = o := fun o => by rw [he]; rfl
  cases i with
  | apply | rotorRead => cases h; rfl
  | cpWriteLead L =>
    obtain ⟨hL, rfl⟩ := h
    refine (taken _).trans ?_
    rw [performWithLead, hL]; rfl
  | cpStart L =>
    refine (taken _).trans ?_
    obtain ⟨hL, rfl⟩ | ⟨hL, rfl⟩ | ⟨l, hL, hl, hrun, rfl⟩ := h
    · rw [performWithLead, hL]; rfl
    · rw [performWithLead, hL]; rfl
    · simp only [performWithLead, hL, performCp, if_neg hl, if_pos hrun]; rfl
  | hostRx b =>
    obtain ⟨hb, hn, rfl⟩ := h
    refine (taken _).trans ?_
    rw [receiveByte, if_pos hb, endLine, cmdAfterLine_emit, setSpeedOps_of_isnan hn]; rfl
  | hostIssue =>
    obtain ⟨op, rest, hp, hr⟩ := h
    refine (taken _).trans ?_
    simp only [issueNext, hp, hr]; rfl
  | envSense _ | qaFall | qaRise | qbFall | qbRise | poll | ctrlTop | ctrlDone _ | cpWriteTarget _ | cpStop
  | cpZeroDuty | reset | syncDrive | syncSample => exact h.elim

/-! ### Leads -/

theorem leadOfCode_eq_some_iff {c : BitVec 3} {l : Lead} : leadOfCode c = some l ↔ c = leadCode l := by
  cases l with
  | forward | stopped | backward => revert c; decide

/-- A byte is split into its operand code L[2:0] and the bits L[7:3] above it (30_encoding.md R74). -/
theorem eq_setWidth_iff {L : Byte} {c : BitVec 3} :
    L = c.setWidth 8 ↔ L.extractLsb' 3 5 = 0#5 ∧ L.extractLsb' 0 3 = c := by
  constructor
  · rintro rfl
    revert c
    decide
  · rintro ⟨hhigh, rfl⟩
    calc L = L.extractLsb' 3 5 ++ L.extractLsb' 0 3 :=
          (BitVec.extractLsb'_append_extractLsb' (w := 5) (len := 3)).symm
      _ = 0#5 ++ L.extractLsb' 0 3 := by rw [hhigh]
      _ = (L.extractLsb' 0 3).setWidth 8 := by simp [BitVec.setWidth_eq_append]

/-- The operand byte of a lead is the only byte that has this lead (R67, R74). -/
theorem leadOfByte_eq_some_iff {L : Byte} {l : Lead} : leadOfByte L = some l ↔ L = leadByte l := by
  rw [leadByte, eq_setWidth_iff, ← leadOfCode_eq_some_iff, leadOfByte]
  split
  · next hhigh => exact (and_iff_right hhigh).symm
  · next hhigh => simp [hhigh]

/-- Every byte but 01, 00 and 06 is no lead. -/
theorem leadOfByte_eq_none {L : Byte} (hforward : L ≠ 0x01#8) (hstopped : L ≠ 0x00#8) (hbackward : L ≠ 0x06#8) :
    leadOfByte L = none := by
  refine Option.eq_none_iff_forall_ne_some.mpr fun l h => ?_
  have hL := leadOfByte_eq_some_iff.mp h
  cases l with
  | forward => exact hforward hL
  | stopped => exact hstopped hL
  | backward => exact hbackward hL

/-- The two bytes that start the controller carry a lead, and it is not 0 (43_command_port.md R127). -/
theorem leadOfByte_of_startByte {L : Byte} {l : Lead} (h : L = 0x01#8 ∧ l = .forward ∨ L = 0x06#8 ∧ l = .backward) :
    leadOfByte L = some l ∧ l ≠ .stopped := by
  obtain ⟨rfl, rfl⟩ | ⟨rfl, rfl⟩ := h <;> exact ⟨leadOfByte_eq_some_iff.mpr rfl, by decide⟩

/-! ### SET_SPEED -/

theorem isnan_of_fgt {a b : F32} (h : fgt a b = true) : isnan a = false := ((fgt_iff a b).mp h).1

theorem isnan_of_flt {a b : F32} (h : flt a b = true) : isnan a = false := ((flt_iff a b).mp h).1

theorem isnan_of_zero {a : F32} (h : a = .posZero ∨ a = .negZero) : isnan a = false := by
  obtain rfl | rfl := h
  · decide +kernel
  · decide +kernel

theorem leadOfSpeed_of_pos {speed : F32} (h : fgt speed .posZero = true) : leadOfSpeed speed = .forward := if_pos h

theorem leadOfSpeed_of_neg {speed : F32} (h : flt speed .posZero = true) : leadOfSpeed speed = .backward := by
  have hpos : ¬ fgt speed .posZero = true := fun hgt => by
    obtain ⟨-, -, hlt⟩ := (flt_iff _ _).mp h
    obtain ⟨-, -, hgt⟩ := (fgt_iff _ _).mp hgt
    omega
  exact (if_neg hpos).trans (if_pos h)

theorem leadOfSpeed_of_zero {speed : F32} (h : speed = .posZero ∨ speed = .negZero) : leadOfSpeed speed = .stopped := by
  obtain rfl | rfl := h
  · decide +kernel
  · decide +kernel

/-- The sequence of a speed with the lead `l` (43_command_port.md R130). -/
def sequenceOf (target : F32) (l : Lead) : List CpOp :=
  [.writeTarget target, .stop, .writeLead l, if l = .stopped then .zeroDuty else .start l]

theorem setSpeedOps_eq {speed : F32} (h : isnan speed = false) (taf : F32) :
    setSpeedOps taf speed = .ok (sequenceOf (targetOf taf speed) (leadOfSpeed speed)) :=
  if_neg (Bool.eq_false_iff.mp h)

theorem setSpeedOps_of_pos {speed : F32} (h : fgt speed .posZero = true) (taf : F32) :
    setSpeedOps taf speed = .ok (sequenceOf (fabs (fdiv taf speed)) .forward) := by
  rw [setSpeedOps_eq (isnan_of_fgt h), leadOfSpeed_of_pos h, targetOf]

theorem setSpeedOps_of_neg {speed : F32} (h : flt speed .posZero = true) (taf : F32) :
    setSpeedOps taf speed = .ok (sequenceOf (fabs (fdiv taf speed)) .backward) := by
  rw [setSpeedOps_eq (isnan_of_flt h), leadOfSpeed_of_neg h, targetOf]

theorem setSpeedOps_of_zero {speed : F32} (h : speed = .posZero ∨ speed = .negZero) (taf : F32) :
    setSpeedOps taf speed = .ok (sequenceOf (fabs (fdiv taf speed)) .stopped) := by
  rw [setSpeedOps_eq (isnan_of_zero h), leadOfSpeed_of_zero h, targetOf]

theorem setSpeedWords_of_ops {taf speed : F32} {ops : List CpOp} (h : setSpeedOps taf speed = .ok ops) :
    setSpeedWords taf speed = .ok (ops.map cpWord) := by
  rw [setSpeedWords, h]

theorem setSpeedWords_of_isnan {speed : F32} (h : isnan speed = true) (taf : F32) :
    setSpeedWords taf speed = .error .badSpeed := by
  rw [setSpeedWords, setSpeedOps_of_isnan h]

/-! ### SET_SPEED in a listing -/

section
variable {s : State} {speed : F32} {rest : List Entry} (hwf : s.cfg.wf = true) (hs : s.sched = .setSpeed speed :: rest)
include hwf hs

theorem step_setSpeed : step s = execSetSpeed speed s := by
  unfold step
  rw [if_pos hwf, hs]
  rfl

theorem step_setSpeed_waits (h : hostIdle s = false) : step s = .next s := by
  rw [step_setSpeed hwf hs, execSetSpeed, h, gate_false]

theorem step_setSpeed_of_isnan (h : hostIdle s = true) (hn : isnan speed = true) :
    step s = .next { s with REFUSED := true, refusedFor := some .badSpeed, sched := rest } := by
  obtain rfl : rest = s.sched.drop 1 := by rw [hs]; rfl
  rw [step_setSpeed hwf hs, execSetSpeed, h, gate_true, setSpeedWords_of_isnan hn]
  rfl

/-- SET_SPEED gives way to the step words of its sequence (30_encoding.md R79). -/
theorem step_setSpeed_of_ops {ops : List CpOp} (h : hostIdle s = true) (hops : setSpeedOps s.cfg.TAF speed = .ok ops) :
    step s = .next { s with sched := wordEntries (ops.map cpWord) ++ rest } := by
  obtain rfl : rest = s.sched.drop 1 := by rw [hs]; rfl
  rw [step_setSpeed hwf hs, execSetSpeed, h, gate_true, setSpeedWords_of_ops hops]

end

/-- The entries of a sequence: the word of the target with its four bytes, then the words of the other operations. -/
theorem wordEntries_writeTarget (b3 b2 b1 b0 : Byte) (ops : List CpOp) :
    wordEntries ((.writeTarget (.word (b3 ++ b2 ++ b1 ++ b0)) :: ops).map cpWord) =
      ([0x40, b3, b2, b1, b0] : List Byte).map .byte ++ wordEntries (ops.map cpWord) := by
  have hword : encode (.cpWriteTarget (b3 ++ b2 ++ b1 ++ b0)) = [0x40, b3, b2, b1, b0] :=
    congrArg (0x40 :: ·) (wordBytes_of_append b3 b2 b1 b0)
  rw [List.map_cons, cpWord, wordEntries, List.flatMap_cons, hword, List.map_append, wordEntries]

end Sys2Proof.Machine
end

section
/-! SUPPORT. The invariant over an operation, the queue of a SET_SPEED sequence performed without interleaving, and the
states after a zero-speed line (43_command_port.md R133; 70_reset_and_hazards.md R198). -/

namespace Sys2Proof.Machine

/-! ### The invariant -/

/-- The effect of an enabled operation keeps the invariant (R198). -/
theorem inv_does {i : Instr} {s u : State} (h : Inv s) (he : enabled i s = true) (hd : Does i s u) : Inv u := by
  cases i with
  | envSense raw => cases hd; exact inv_presentSensors raw h
  | qaFall | qaRise | qbFall | qbRise => cases hd; exact inv_edge _ _ h
  | poll =>
    obtain ⟨-, rfl⟩ | ⟨-, o, -, rfl⟩ := hd
    · exact h
    · exact inv_poll (of_decide_eq_true he) h
  | apply | rotorRead => exact hd.elim
  | ctrlTop =>
    obtain ⟨-, hrunning, -⟩ := (ctrlTop_enabled_iff s).mp he
    cases hd; exact inv_ctrlTop hrunning h
  | ctrlDone m => cases hd; exact inv_ctrlDone m h
  | cpWriteTarget t => cases hd; exact inv_writeTarget _ h
  | cpStop => cases hd; exact inv_stopController h
  | cpWriteLead L => obtain ⟨l, -, rfl⟩ := hd; exact inv_writeLead l h
  | cpZeroDuty => cases hd; exact inv_zeroDuty h
  | cpStart L =>
    obtain ⟨l, -, hl, hstopped, rfl⟩ := hd
    obtain ⟨hrun, hempty⟩ := (hostIdle_iff s).mp he
    exact inv_startController hl hrun hstopped hempty h
  | reset => cases hd; exact inv_reset h
  | syncDrive => cases hd; exact inv_syncDrive (of_decide_eq_true he) h
  | syncSample => cases hd; exact inv_syncSample h
  | hostRx b =>
    obtain ⟨hrun, -⟩ := (hostIdle_iff s).mp he
    obtain ⟨-, rfl⟩ | ⟨-, ops, hops, rfl⟩ := hd
    · exact inv_appendByte b hrun (inv_emit _ h)
    · exact inv_lineEnded b hrun hops h
  | hostIssue =>
    obtain ⟨op, rest, hp, hu⟩ := hd
    obtain ⟨hrun, -⟩ := (hostIssue_enabled_iff s).mp he
    exact inv_issue hrun h hp hu

/-! ### The queue without interleaving -/

theorem performCp_CMD_STATE {op : CpOp} {q : List CpOp} {s u : State}
    (h : performCp op { s with HOST_PENDING := q } = .ok u) : u.CMD_STATE = s.CMD_STATE := by
  cases op with
  | start l => obtain ⟨-, -, rfl⟩ := performCp_start_ok h; rfl
  | writeTarget _ | stop | writeLead _ | zeroDuty => cases h; rfl

theorem exec_hostIssue {op : CpOp} {rest : List CpOp} {s u : State} (hrun : s.MODE = .run)
    (hp : s.HOST_PENDING = op :: rest) (hu : performCp op { s with HOST_PENDING := rest } = .ok u) :
    exec .hostIssue s = .next (u.retire 1) :=
  exec_of_does (i := .hostIssue) ((hostIssue_enabled_iff s).mpr ⟨hrun, by simp [hp]⟩) ⟨op, rest, hp, hu⟩

theorem execAll_cons {i : Instr} {is : List Instr} {s t : State} (h : exec i s = .next t) :
    execAll (i :: is) s = execAll is t := by
  rw [execAll, h]

theorem performCp_start {l : Lead} {s : State} (hl : l ≠ .stopped) (hs : s.CTRL_RUN = .stopped) :
    performCp (.start l) s = .ok (startController l s) := by
  simp [performCp, hl, hs]

section
variable {s : State} {q : List CpOp} (hrun : s.MODE = .run)
include hrun

theorem exec_hostIssue_writeTarget {t : F32} (hq : s.HOST_PENDING = .writeTarget t :: q) :
    exec .hostIssue s = .next { s with CONTROL_TARGET := t, HOST_PENDING := q, sched := s.sched.drop 1 } :=
  exec_hostIssue hrun hq rfl

theorem exec_hostIssue_stop (hq : s.HOST_PENDING = .stop :: q) :
    exec .hostIssue s = .next { s with
      CTRL_RUN := .stopped, CTRL_PHASE := .top, TMR_RUN := false, HOST_PENDING := q, sched := s.sched.drop 1 } :=
  exec_hostIssue hrun hq rfl

theorem exec_hostIssue_writeLead {l : Lead} (hq : s.HOST_PENDING = .writeLead l :: q) :
    exec .hostIssue s = .next { s with PHASE_LEAD := l, HOST_PENDING := q, sched := s.sched.drop 1 } :=
  exec_hostIssue hrun hq rfl

theorem exec_hostIssue_zeroDuty (hq : s.HOST_PENDING = .zeroDuty :: q) :
    exec .hostIssue s = .next { s with DUTY := .posZero, HOST_PENDING := q, sched := s.sched.drop 1 } :=
  exec_hostIssue hrun hq rfl

theorem exec_hostIssue_start {l : Lead} (hl : l ≠ .stopped) (hs : s.CTRL_RUN = .stopped)
    (hq : s.HOST_PENDING = .start l :: q) :
    exec .hostIssue s = .next { s with
      CTRL_RUN := .running, START_LEAD := some l, CTRL_PHASE := .top, INTEG := .posZero, LAST_ERR := .posZero
      HOST_PENDING := q, sched := s.sched.drop 1 } :=
  exec_hostIssue hrun hq (performCp_start hl hs)

/-- The first three operations of a sequence, which leave the controller stopped (43_command_port.md R130, R133). -/
theorem execAll_sequence {target : F32} {l : Lead} {last : CpOp} (is : List Instr)
    (hq : s.HOST_PENDING = [.writeTarget target, .stop, .writeLead l, last]) :
    execAll (.hostIssue :: .hostIssue :: .hostIssue :: is) s = execAll is { s with
      CONTROL_TARGET := target, CTRL_RUN := .stopped, CTRL_PHASE := .top, TMR_RUN := false, PHASE_LEAD := l
      HOST_PENDING := [last], sched := ((s.sched.drop 1).drop 1).drop 1 } := by
  refine (execAll_cons (exec_hostIssue_writeTarget hrun hq)).trans ?_
  refine (execAll_cons (exec_hostIssue_stop ?_ rfl)).trans (execAll_cons (exec_hostIssue_writeLead ?_ rfl))
  · exact hrun
  · exact hrun

/-- The end state of the sequence of a speed that is not zero (R133). -/
theorem execAll_start {target : F32} {l : Lead} (hl : l ≠ .stopped)
    (hq : s.HOST_PENDING = [.writeTarget target, .stop, .writeLead l, .start l]) :
    execAll [.hostIssue, .hostIssue, .hostIssue, .hostIssue] s = .next { s with
      CONTROL_TARGET := target, PHASE_LEAD := l
      CTRL_RUN := .running, START_LEAD := some l, CTRL_PHASE := .top, TMR_RUN := false
      INTEG := .posZero, LAST_ERR := .posZero, HOST_PENDING := [], sched := s.sched.drop 4 } := by
  refine (execAll_sequence hrun _ hq).trans ((execAll_cons (exec_hostIssue_start ?_ hl rfl rfl)).trans ?_)
  · exact hrun
  · simp [execAll]

/-- The end state of the sequence of a zero speed (R133). -/
theorem execAll_zeroDuty {target : F32} {l : Lead}
    (hq : s.HOST_PENDING = [.writeTarget target, .stop, .writeLead l, .zeroDuty]) :
    execAll [.hostIssue, .hostIssue, .hostIssue, .hostIssue] s = .next { s with
      CONTROL_TARGET := target, PHASE_LEAD := l, DUTY := .posZero
      CTRL_RUN := .stopped, CTRL_PHASE := .top, TMR_RUN := false, HOST_PENDING := [], sched := s.sched.drop 4 } := by
  refine (execAll_sequence hrun _ hq).trans ((execAll_cons (exec_hostIssue_zeroDuty ?_ rfl)).trans ?_)
  · exact hrun
  · simp [execAll]

end

end Sys2Proof.Machine
end

section
/-! SUPPORT. After a zero-speed line: while its sequence is in the queue and until another line ends, no step but RESET and a
direct CP_START moves the controller or the duty away from the end state (70_reset_and_hazards.md R198 (6); entry 16). -/

namespace Sys2Proof.Machine

/-- The steps of such a run keep the speed, and only HOST_ISSUE changes the queue. -/
theorem does_keeps_line {i : Instr} {s u : State} (hi : keepsStop i) (h : Does i s u) :
    u.CMD_STATE = s.CMD_STATE ∧ (i ≠ .hostIssue → u.HOST_PENDING = s.HOST_PENDING) := by
  obtain ⟨hreset, hcr, -⟩ := hi
  have frame := does_restoreFields hreset h
  cases i with
  | hostRx b =>
    obtain ⟨-, rfl⟩ | ⟨hb, -⟩ := h
    · simp
    · exact absurd (congrArg Instr.hostRx (beq_iff_eq.mp hb)) hcr
  | hostIssue =>
    obtain ⟨op, rest, hp, hu⟩ := h
    exact ⟨performCp_CMD_STATE hu, fun hne => absurd rfl hne⟩
  | cpWriteLead L => obtain ⟨l, -, rfl⟩ := h; exact ⟨rfl, fun _ => rfl⟩
  | cpStart L => obtain ⟨l, -, -, -, rfl⟩ := h; exact ⟨rfl, fun _ => rfl⟩
  | cpWriteTarget _ | cpStop | cpZeroDuty => cases h; exact ⟨rfl, fun _ => rfl⟩
  | reset => exact absurd rfl hreset
  | envSense _ | qaFall | qaRise | qbFall | qbRise | poll | apply | rotorRead | ctrlTop | ctrlDone _ | syncDrive
  | syncSample => exact ⟨(congrArg State.CMD_STATE frame :), fun _ => (congrArg State.HOST_PENDING frame :)⟩

/-- A stopped controller with the duty +0.0 stays so under every direct step of such a run. -/
theorem does_keeps_stop {i : Instr} {s u : State} (hi : keepsStop i) (hissue : i ≠ .hostIssue)
    (he : enabled i s = true) (hs : s.CTRL_RUN = .stopped ∧ s.DUTY = .posZero) (h : Does i s u) :
    u.CTRL_RUN = .stopped ∧ u.DUTY = .posZero := by
  obtain ⟨hreset, -, hstart⟩ := hi
  obtain ⟨hstopped, hduty⟩ := hs
  have frame := does_restoreFields hreset h
  cases i with
  | ctrlTop =>
    obtain ⟨-, hrunning, -⟩ := (ctrlTop_enabled_iff s).mp he
    cases hstopped.symm.trans hrunning
  | ctrlDone m =>
    obtain ⟨-, hrunning, -⟩ := (ctrlDone_enabled_iff m s).mp he
    cases hstopped.symm.trans hrunning
  | reset => exact absurd rfl hreset
  | hostIssue => exact absurd rfl hissue
  | cpStart L => exact absurd rfl (hstart L)
  | cpStop => cases h; exact ⟨rfl, hduty⟩
  | cpZeroDuty => cases h; exact ⟨hstopped, rfl⟩
  | cpWriteTarget _ => cases h; exact ⟨hstopped, hduty⟩
  | cpWriteLead L => obtain ⟨l, -, rfl⟩ := h; exact ⟨hstopped, hduty⟩
  | hostRx b => obtain ⟨-, rfl⟩ | ⟨-, ops, -, rfl⟩ := h <;> simp [lineEnded, hstopped, hduty]
  | envSense _ | qaFall | qaRise | qbFall | qbRise | poll | apply | rotorRead | syncDrive | syncSample =>
    exact ⟨(congrArg State.CTRL_RUN frame).trans hstopped, (congrArg State.DUTY frame).trans hduty⟩

/-- The last operation of a zero-speed sequence is CP_ZERO_DUTY, and it finds the controller stopped (R130, R198 (6)). -/
theorem last_of_zero_speed {op : CpOp} {s : State} (h : Inv s) (hlead : leadOfSpeed s.CMD_STATE.speedTarget = .stopped)
    (hp : s.HOST_PENDING = [op]) : s.CTRL_RUN = .stopped ∧ op = .zeroDuty := by
  obtain ⟨ops, n, hops, hrest, hn, hcase⟩ := pending_head h hp
  obtain ⟨-, rfl⟩ := setSpeedOps_ok hops
  obtain ⟨rfl, -⟩ | ⟨rfl, -⟩ | ⟨rfl, -⟩ | ⟨-, hstopped, -, ⟨-, hop⟩ | ⟨hne, -⟩⟩ := hcase
  · cases hrest
  · cases hrest
  · cases hrest
  · exact ⟨hstopped, hop⟩
  · exact absurd hlead hne

/-- What holds after a zero-speed line: the invariant, the speed, and once the queue is empty the end state. -/
structure ZeroSpeedLine (s : State) : Prop where
  inv : Inv s
  lead : leadOfSpeed s.CMD_STATE.speedTarget = .stopped
  ended : s.HOST_PENDING = [] → s.CTRL_RUN = .stopped ∧ s.DUTY = .posZero

/-- The effects of such a run keep it: HOST_ISSUE reaches the end state, and the other steps do not leave it. -/
theorem ZeroSpeedLine.of_does {i : Instr} {s u : State} (h : ZeroSpeedLine s) (hi : keepsStop i)
    (he : enabled i s = true) (hd : Does i s u) : ZeroSpeedLine u := by
  obtain ⟨hcmd, hqueue⟩ := does_keeps_line hi hd
  refine ⟨inv_does h.inv he hd, by rw [hcmd]; exact h.lead, fun hempty => ?_⟩
  by_cases hissue : i = .hostIssue
  · subst hissue
    obtain ⟨op, rest, hp, hu⟩ := hd
    obtain ⟨-, hrest, -⟩ := performCp_keeps hu
    obtain rfl : rest = [] := hrest.symm.trans hempty
    obtain ⟨hstopped, rfl⟩ := last_of_zero_speed h.inv h.lead hp
    cases hu
    exact ⟨hstopped, rfl⟩
  · exact does_keeps_stop hi hissue he (h.ended ((hqueue hissue).symm.trans hempty)) hd

theorem ZeroSpeedLine.of_exec {i : Instr} {s t : State} (h : ZeroSpeedLine s) (hi : keepsStop i)
    (ht : exec i s = .next t) : ZeroSpeedLine t := by
  obtain ⟨-, rfl⟩ | ⟨-, r, -, rfl⟩ | ⟨he, u, hu, rfl⟩ := exec_next_cases ht
  · exact h
  · exact ⟨inv_retire _ (inv_refuse r h.inv), h.lead, h.ended⟩
  · obtain ⟨inv, lead, ended⟩ := h.of_does hi he hu
    exact ⟨inv_retire _ inv, lead, ended⟩

theorem ZeroSpeedLine.of_run {s t : State} (h : ZeroSpeedLine s) (hrun : RunOf keepsStop s t) : ZeroSpeedLine t := by
  induction hrun with
  | start => exact h
  | step i _ allowed step ih => exact ih.of_exec allowed step

end Sys2Proof.Machine
end

section
/-! PROOFS. The statements of 43_command_port.md: the operations of the command port, the SET_SPEED sequence, its target and
its end state. -/

namespace Sys2Proof.Machine

/-- Settles O36: the quotient of TAF by the speed is a number, a zero or an infinity, and `fabs` clears its sign. -/
theorem targetIsNeverNaNNorNegative : Obligations.TargetIsNeverNaNNorNegative := by
  refine fun c speed hwf hn => ⟨isnan_targetOf hwf hn, ⟨_, rfl, signBit_fabs _⟩, targetOf_zero hwf, fun hinf => ?_⟩
  obtain hfin | ⟨t, rfl⟩ := isFinite_or_eq_infOf hn
  · rw [hfin] at hinf
    cases hinf
  · exact targetOf_inf hwf t

/-- Settles O37: `ZeroSpeedLine` over every run; and the sequence of each sign of the speed, operation by operation. -/
theorem setSpeedEndState : Obligations.SetSpeedEndState := by
  refine ⟨fun s t hinv hq hzero hrun hempty => ?_, fun s speed ops hrun hops hq => ⟨fun hpos => ?_, fun hneg => ?_,
    fun hzero => ?_⟩⟩
  · have line : ZeroSpeedLine s := ⟨hinv, leadOfSpeed_of_zero hzero, fun hnil => absurd hnil hq⟩
    exact (line.of_run hrun).ended hempty
  · cases hops.symm.trans (setSpeedOps_of_pos hpos _)
    exact execAll_start hrun (by decide) hq
  · cases hops.symm.trans (setSpeedOps_of_neg hneg _)
    exact execAll_start hrun (by decide) hq
  · cases hops.symm.trans (setSpeedOps_of_zero hzero _)
    exact execAll_zeroDuty hrun hq

/-- Settles O33: each of the three is always performed where it is enabled. -/
theorem commandPortOperationsWriteTheirRegisters : Obligations.CommandPortOperationsWriteTheirRegisters := by
  refine fun s x => ⟨fun hrun hempty => ?_, fun hheld => ?_⟩
  · have idle : hostIdle s = true := (hostIdle_iff s).mpr ⟨hrun, hempty⟩
    exact ⟨exec_of_does (i := .cpWriteTarget x) idle rfl, exec_of_does (i := .cpStop) idle rfl,
      exec_of_does (i := .cpZeroDuty) idle rfl⟩
  · have busy := hostIdle_eq_false hheld
    exact ⟨exec_of_not_enabled (i := .cpWriteTarget x) busy, exec_of_not_enabled (i := .cpStop) busy,
      exec_of_not_enabled (i := .cpZeroDuty) busy⟩

/-- Settles O34: the lead of the operand byte decides between the effect and the refusal. -/
theorem leadOperationsWriteOrAreRefused : Obligations.LeadOperationsWriteOrAreRefused := by
  refine fun s L l => ⟨fun hheld => ?_, fun hrun hempty => ?_⟩
  · have busy := hostIdle_eq_false hheld
    exact ⟨exec_of_not_enabled (i := .cpWriteLead L) busy, exec_of_not_enabled (i := .cpStart L) busy⟩
  have idle : hostIdle s = true := (hostIdle_iff s).mpr ⟨hrun, hempty⟩
  refine ⟨fun hL => ?_, fun hforward hstopped hbackward => ?_, fun hL => ⟨fun hs => ?_, fun hs => ?_⟩,
    fun hforward hbackward => ?_⟩
  · have hlead : leadOfByte L = some l := by
      obtain ⟨rfl, rfl⟩ | ⟨rfl, rfl⟩ | ⟨rfl, rfl⟩ := hL <;> exact leadOfByte_eq_some_iff.mpr rfl
    exact exec_of_does (i := .cpWriteLead L) idle ⟨l, hlead, rfl⟩
  · exact exec_of_refuses (i := .cpWriteLead L) idle ⟨leadOfByte_eq_none hforward hstopped hbackward, rfl⟩
  · obtain ⟨hlead, hl⟩ := leadOfByte_of_startByte hL
    exact exec_of_does (i := .cpStart L) idle ⟨l, hlead, hl, hs, rfl⟩
  · obtain ⟨hlead, hl⟩ := leadOfByte_of_startByte hL
    exact exec_of_refuses (i := .cpStart L) idle (.inr (.inr ⟨l, hlead, hl, hs, rfl⟩))
  · by_cases hstopped : L = 0x00#8
    · exact exec_of_refuses (i := .cpStart L) idle (.inr (.inl ⟨leadOfByte_eq_some_iff.mpr hstopped, rfl⟩))
    · exact exec_of_refuses (i := .cpStart L) idle (.inl ⟨leadOfByte_eq_none hforward hstopped hbackward, rfl⟩)

/-- Settles O35: the sequence of each sign of the speed, its words, and their bytes in the place of SET_SPEED. -/
theorem setSpeedIsTheFixedSequence : Obligations.SetSpeedIsTheFixedSequence := by
  refine ⟨fun s speed rest hwf hs => ⟨fun hheld => step_setSpeed_waits hwf hs (hostIdle_eq_false hheld),
    fun hrun hempty => ?_⟩, fun taf speed => ⟨fun hn => setSpeedOps_of_isnan hn taf, fun h => setSpeedOps_of_pos h taf,
      fun h => setSpeedOps_of_neg h taf, fun h => setSpeedOps_of_zero h taf, fun hn => setSpeedWords_of_isnan hn taf,
      fun w hw => ?_⟩⟩
  · have idle : hostIdle s = true := (hostIdle_iff s).mpr ⟨hrun, hempty⟩
    refine ⟨step_setSpeed_of_isnan hwf hs idle, fun b3 b2 b1 b0 hw => ?_⟩
    have listed {l : Lead} (hops : setSpeedOps s.cfg.TAF speed = .ok (sequenceOf (fabs (fdiv s.cfg.TAF speed)) l)) :
        step s = .next { s with sched := wordEntries ((sequenceOf (.word (b3 ++ b2 ++ b1 ++ b0)) l).map cpWord) ++ rest } :=
      step_setSpeed_of_ops hwf hs idle (hw ▸ hops)
    simp only [sequenceOf, wordEntries_writeTarget] at listed
    exact ⟨fun h => listed (setSpeedOps_of_pos h _), fun h => listed (setSpeedOps_of_neg h _),
      fun h => listed (setSpeedOps_of_zero h _)⟩
  · have words {l : Lead} (hops : setSpeedOps taf speed = .ok (sequenceOf (fabs (fdiv taf speed)) l)) :
        setSpeedWords taf speed = .ok ((sequenceOf (.word w) l).map cpWord) := setSpeedWords_of_ops (hw ▸ hops)
    exact ⟨fun h => words (setSpeedOps_of_pos h taf), fun h => words (setSpeedOps_of_neg h taf),
      fun h => words (setSpeedOps_of_zero h taf)⟩

end Sys2Proof.Machine
end

section
/-! SUPPORT. The lines of the host (44_host_front_end.md R138 to R143): the number at the head of a field, its conversion
with one rounding, and the parse of a line. -/

namespace Sys2Proof.Machine

/-! ### Spans -/

/-- A span ends before the first element that does not belong to it. -/
theorem span_append {α : Type} {p : α → Bool} {l r : List α} (hl : ∀ a ∈ l, p a = true)
    (hr : ∀ a, r.head? = some a → p a = false) : (l ++ r).takeWhile p = l ∧ (l ++ r).dropWhile p = r := by
  rw [List.takeWhile_append_of_pos hl, List.dropWhile_append_of_pos hl]
  cases r with
  | nil => exact ⟨List.append_nil l, rfl⟩
  | cons a r => simp [hr a rfl]

/-! ### The number of a field -/

theorem isWs_iff (b : Byte) : isWs b = true ↔ b ∈ ([0x20, 0x09, 0x0A, 0x0B, 0x0C, 0x0D] : List Byte) := by
  simp [isWs, or_assoc]

/-- A sign that is there is taken; where there is none, the next byte must not be one. -/
theorem takeSign_append {sign f : List Byte} (hsign : sign ∈ ([[], [0x2B], [0x2D]] : List (List Byte)))
    (hf : sign = [] → ∀ b, f.head? = some b → b ∉ ([0x2B, 0x2D] : List Byte)) :
    takeSign (sign ++ f) = (decide (sign = [0x2D]), f) := by
  simp only [List.mem_cons, List.not_mem_nil, or_false] at hsign
  obtain rfl | rfl | rfl := hsign
  · cases f with
    | nil => rfl
    | cons b f =>
      have hb := hf rfl b rfl
      simp only [List.mem_cons, List.not_mem_nil, or_false, not_or] at hb
      obtain ⟨hplus, hminus⟩ := hb
      exact (if_neg (mt beq_iff_eq.mp hminus)).trans (if_neg (mt beq_iff_eq.mp hplus))
  · rfl
  · rfl

/-- Without a point there is no fraction. -/
theorem takeFraction_of_head {f : List Byte} (h : ∀ b, f.head? = some b → b ≠ 0x2E) : takeFraction f = ([], f) := by
  cases f with
  | nil => rfl
  | cons b f => exact if_neg fun hb => h b rfl (beq_iff_eq.mp hb)

section
variable {whole frac rest : List Byte} (hwhole : ∀ b ∈ whole, isDigit b = true)
  (hrest : ∀ b, rest.head? = some b → isDigit b = false)

include hrest in
theorem takeFraction_point (hfrac : ∀ b ∈ frac, isDigit b = true) :
    takeFraction ((0x2E :: frac) ++ rest) = (frac, rest) := by
  obtain ⟨htake, hdrop⟩ := span_append hfrac hrest
  exact Prod.ext htake hdrop

include hwhole hrest in
/-- A mantissa with a point is its digits before and after it, of which there is at least one (R138). -/
theorem takeMantissa_point (hfrac : ∀ b ∈ frac, isDigit b = true) (hne : whole ++ frac ≠ []) :
    takeMantissa (whole ++ ((0x2E :: frac) ++ rest)) = some (whole, frac, rest) := by
  have hpoint : ∀ b, ((0x2E :: frac) ++ rest).head? = some b → isDigit b = false := by
    rintro b ⟨⟩
    decide
  obtain ⟨htake, hdrop⟩ := span_append hwhole hpoint
  rw [takeMantissa, htake, hdrop, takeFraction_point hrest hfrac]
  exact if_neg (by simpa [List.isEmpty_iff] using hne)

include hwhole hrest in
/-- A mantissa without a point is its digits (R138). -/
theorem takeMantissa_whole (hpoint : ∀ b, rest.head? = some b → b ≠ 0x2E) (hne : whole ≠ []) :
    takeMantissa (whole ++ rest) = some (whole, [], rest) := by
  obtain ⟨htake, hdrop⟩ := span_append hwhole hrest
  rw [takeMantissa, htake, hdrop, takeFraction_of_head hpoint]
  exact if_neg (by simpa using hne)

include hrest in
/-- Without a digit, or a point and a digit, there is no mantissa (R138). -/
theorem takeMantissa_none (hpoint : ∀ tail, rest = 0x2E :: tail → ∀ b, tail.head? = some b → isDigit b = false) :
    takeMantissa rest = none := by
  have hnil : ∀ b ∈ ([] : List Byte), isDigit b = true := fun b hb => absurd hb List.not_mem_nil
  obtain ⟨htake, hdrop⟩ := span_append hnil hrest
  rw [List.nil_append] at htake hdrop
  have hfrac : (takeFraction rest).1 = [] := by
    by_cases hdot : ∃ tail, rest = 0x2E :: tail
    · obtain ⟨tail, rfl⟩ := hdot
      exact (span_append hnil (hpoint tail rfl)).1
    · refine congrArg Prod.fst (takeFraction_of_head fun b hb hdotb => hdot ?_)
      obtain ⟨tail, rfl⟩ := List.head?_eq_some_iff.mp hb
      exact ⟨tail, congrArg (· :: tail) hdotb⟩
  rw [takeMantissa, htake, hdrop, hfrac]
  rfl

end

theorem not_digit_or_point {b : Byte} (hb : b ∈ ([0x20, 0x09, 0x0A, 0x0B, 0x0C, 0x0D, 0x2B, 0x2D] : List Byte)) :
    isDigit b = false ∧ b ≠ 0x2E := by
  revert b
  decide

/-- A mantissa begins with neither white space nor a sign. -/
theorem head_of_takeMantissa {f : List Byte} {parts : List Byte × List Byte × List Byte}
    (h : takeMantissa f = some parts) :
    ∀ b, f.head? = some b → b ∉ ([0x20, 0x09, 0x0A, 0x0B, 0x0C, 0x0D, 0x2B, 0x2D] : List Byte) := by
  intro b hb hmem
  obtain ⟨tail, rfl⟩ := List.head?_eq_some_iff.mp hb
  obtain ⟨hdigit, hpoint⟩ := not_digit_or_point hmem
  have hnone : takeMantissa (b :: tail) = none :=
    takeMantissa_none (by rintro c ⟨⟩; exact hdigit) (by rintro t ⟨⟩; exact absurd rfl hpoint)
  cases hnone.symm.trans h

theorem takeExponent_of_head {rest : List Byte} (h : ∀ b, rest.head? = some b → b ∉ ([0x65, 0x45] : List Byte)) :
    takeExponent rest = 0 := by
  cases rest with
  | nil => rfl
  | cons b rest => exact if_neg (by simpa using h b rfl)

section
variable {e : Byte} {esign rest : List Byte} (he : e ∈ ([0x65, 0x45] : List Byte))
  (hesign : esign ∈ ([[], [0x2B], [0x2D]] : List (List Byte))) (hrest : ∀ b, rest.head? = some b → isDigit b = false)
include he

/-- A letter of the exponent ends the mantissa: it is neither a digit nor a point. -/
theorem exponentLetter_ends_mantissa (tail : List Byte) :
    (∀ b, ((e :: esign) ++ tail).head? = some b → isDigit b = false) ∧
    ∀ b, ((e :: esign) ++ tail).head? = some b → b ≠ 0x2E := by
  simp only [List.mem_cons, List.not_mem_nil, or_false] at he
  obtain rfl | rfl := he <;> exact ⟨by rintro b ⟨⟩; decide, by rintro b ⟨⟩; decide⟩

include hesign hrest

/-- After the letter and the sign the exponent is the number its digits write, and 0 if there are none. -/
theorem takeExponent_cons {expo : List Byte} (hexpo : ∀ b ∈ expo, isDigit b = true)
    (hnosign : esign = [] → ∀ b, (expo ++ rest).head? = some b → b ∉ ([0x2B, 0x2D] : List Byte)) :
    takeExponent ((e :: esign) ++ (expo ++ rest)) =
      if esign = [0x2D] then -(digitsValue expo : Int) else digitsValue expo := by
  have hletter : (e == 0x65 || e == 0x45) = true := by simpa using he
  obtain ⟨htake, -⟩ := span_append hexpo hrest
  simp only [List.cons_append, takeExponent, if_pos hletter, takeSign_append hesign hnosign, htake, decide_eq_true_eq]

/-- The exponent of a letter, a sign and at least one digit (R138). -/
theorem takeExponent_of_digits {expo : List Byte} (hexpo : ∀ b ∈ expo, isDigit b = true) (hne : expo ≠ []) :
    takeExponent ((e :: esign) ++ (expo ++ rest)) =
      if esign = [0x2D] then -(digitsValue expo : Int) else digitsValue expo := by
  refine takeExponent_cons he hesign hrest hexpo fun _ b hb hmem => ?_
  obtain ⟨d, ds, rfl⟩ := List.exists_cons_of_ne_nil hne
  cases hb
  have hdigit := hexpo b List.mem_cons_self
  simp only [List.mem_cons, List.not_mem_nil, or_false] at hmem
  obtain rfl | rfl := hmem <;> exact absurd hdigit (by decide)

/-- An exponent without digits counts as 0 (R138, R142). -/
theorem takeExponent_of_no_digits (hnosign : esign = [] → ∀ b, rest.head? = some b → b ∉ ([0x2B, 0x2D] : List Byte)) :
    takeExponent ((e :: esign) ++ rest) = 0 := by
  have hnil := takeExponent_cons he hesign hrest (expo := []) (fun b hb => absurd hb List.not_mem_nil) hnosign
  exact hnil.trans (ite_self 0)

end

section
variable {ws sign f : List Byte} (hws : ∀ b ∈ ws, b ∈ ([0x20, 0x09, 0x0A, 0x0B, 0x0C, 0x0D] : List Byte))
  (hsign : sign ∈ ([[], [0x2B], [0x2D]] : List (List Byte)))
include hws hsign

/-- White space and a sign are taken off before the mantissa (R142). -/
theorem takeSign_dropWhile_isWs (hf : sign = [] → ∀ b, f.head? = some b →
      b ∉ ([0x20, 0x09, 0x0A, 0x0B, 0x0C, 0x0D, 0x2B, 0x2D] : List Byte)) :
    takeSign ((ws ++ (sign ++ f)).dropWhile isWs) = (decide (sign = [0x2D]), f) := by
  have hhead : ∀ b, (sign ++ f).head? = some b → isWs b = false := by
    intro b hb
    refine Bool.eq_false_iff.mpr (mt (isWs_iff b).mp fun hmem => ?_)
    simp only [List.mem_cons, List.not_mem_nil, or_false] at hsign
    obtain rfl | rfl | rfl := hsign
    · exact hf rfl b hb (List.mem_append_left [0x2B, 0x2D] hmem)
    · cases hb; exact absurd hmem (by decide)
    · cases hb; exact absurd hmem (by decide)
  rw [(span_append (fun b hb => (isWs_iff b).mpr (hws b hb)) hhead).2]
  exact takeSign_append hsign fun hnil b hb hmem =>
    hf hnil b hb (List.mem_append_right [0x20, 0x09, 0x0A, 0x0B, 0x0C, 0x0D] hmem)

/-- A field with a mantissa is its rounded value with its sign (R142). -/
theorem atof32_of_mantissa {whole frac rest : List Byte} (hf : takeMantissa f = some (whole, frac, rest)) :
    atof32 (ws ++ (sign ++ f)) = ofSignMag (decide (sign = [0x2D]))
      (decimalMag (digitsValue (whole ++ frac)) (takeExponent rest - frac.length)) := by
  rw [atof32, takeSign_dropWhile_isWs hws hsign fun _ => head_of_takeMantissa hf, hf]

/-- A number without a point. -/
theorem atof32_of_whole {whole rest : List Byte} (hf : takeMantissa f = some (whole, [], rest)) :
    atof32 (ws ++ (sign ++ f)) =
      ofSignMag (decide (sign = [0x2D])) (decimalMag (digitsValue whole) (takeExponent rest)) := by
  simpa using atof32_of_mantissa hws hsign hf

/-- A field without a mantissa is +0.0 (R143). -/
theorem atof32_of_no_mantissa (hhead : sign = [] → ∀ b, f.head? = some b →
      b ∉ ([0x20, 0x09, 0x0A, 0x0B, 0x0C, 0x0D, 0x2B, 0x2D] : List Byte)) (hf : takeMantissa f = none) :
    atof32 (ws ++ (sign ++ f)) = .posZero := by
  rw [atof32, takeSign_dropWhile_isWs hws hsign hhead, hf]

end

/-! ### The rounding -/

/-- The conversion is one rounding of the exact value as a fraction: ten to the exponent stands above or below. -/
theorem decimalMag_eq_roundMag (m : Nat) (x : Int) :
    decimalMag m x = roundMag (m * 10 ^ x.toNat * 2 ^ 149) (10 ^ (-x).toNat) := by
  rw [decimalMag_eq, exactDecimalMag]
  split
  · next hx => rw [show (-x).toNat = 0 by omega, Nat.pow_zero]
  · next hx => rw [show x.toNat = 0 by omega, Nat.pow_zero, Nat.mul_one]

/-! ### The parse of a line -/

theorem isV_iff (b : Byte) : isV b = true ↔ b ∈ ([0x56, 0x76] : List Byte) := by simp [isV]

theorem not_isV_iff (b : Byte) : (!isV b) = true ↔ b ∉ ([0x56, 0x76] : List Byte) := by
  rw [Bool.not_eq_true', ← Bool.not_eq_true, isV_iff]

theorem isR_iff (b : Byte) : isR b = true ↔ b ∈ ([0x52, 0x72] : List Byte) := by simp [isR]

theorem parseLine_of_V {c : Byte} (hc : c ∈ ([0x56, 0x76] : List Byte)) (rest : List Byte) :
    parseLine (c :: rest) = some (parseV rest) := if_pos ((isV_iff c).mpr hc)

theorem parseLine_of_R {c : Byte} (hc : c ∈ ([0x52, 0x72] : List Byte)) (rest : List Byte) :
    parseLine (c :: rest) = some (parseR rest) := by
  have hV : ¬ isV c = true := by
    simp only [List.mem_cons, List.not_mem_nil, or_false] at hc
    obtain rfl | rfl := hc <;> decide
  exact (if_neg hV).trans (if_pos ((isR_iff c).mpr hc))

theorem parseLine_of_other {c : Byte} (hc : c ∉ ([0x56, 0x76, 0x52, 0x72] : List Byte)) (rest : List Byte) :
    parseLine (c :: rest) = none := by
  have hV : ¬ isV c = true := fun h => hc (List.mem_append_left [0x52, 0x72] ((isV_iff c).mp h))
  have hR : ¬ isR c = true := fun h => hc (List.mem_append_right [0x56, 0x76] ((isR_iff c).mp h))
  exact (if_neg hV).trans (if_neg hR)

section
variable {before : List Byte} (hbefore : ∀ b ∈ before, b ∉ ([0x56, 0x76] : List Byte))
include hbefore

/-- What stands before the first V are the rotations, what follows it is the speed (R139, R141). -/
theorem parseR_of_V {v : Byte} (hv : v ∈ ([0x56, 0x76] : List Byte)) (after : List Byte) :
    parseR (before ++ v :: after) = ⟨atof32 after, atof32 before, false, false⟩ := by
  obtain ⟨htake, hdrop⟩ : (before ++ v :: after).takeWhile (fun b => !isV b) = before ∧
      (before ++ v :: after).dropWhile (fun b => !isV b) = v :: after :=
    span_append (fun b hb => (not_isV_iff b).mpr (hbefore b hb))
      (by rintro b ⟨⟩; exact congrArg not ((isV_iff v).mpr hv))
  rw [parseR, htake, hdrop]

/-- Without a V all bytes are the rotations (R139). -/
theorem parseR_of_no_V : parseR before = ⟨.posZero, atof32 before, false, true⟩ := by
  have hdrop : before.dropWhile (fun b => !isV b) = [] :=
    List.dropWhile_eq_nil_iff.mpr fun b hb => (not_isV_iff b).mpr (hbefore b hb)
  rw [parseR, hdrop]

end

end Sys2Proof.Machine
end

section
/-! SUPPORT. The steps of the host (44_host_front_end.md R134 to R136): HOST_ISSUE of a head that is refused, HOST_RX of one
byte, and the bytes of a whole line (R144). -/

namespace Sys2Proof.Machine

/-! ### HOST_ISSUE -/

theorem performCp_start_running {l : Lead} {s : State} (hl : l ≠ .stopped) (hs : s.CTRL_RUN = .running) :
    performCp (.start l) s = .error .running :=
  (if_neg hl).trans (if_pos hs)

theorem exec_hostIssue_refused {op : CpOp} {rest : List CpOp} {s : State} {reason : RefuseReason} (hrun : s.MODE = .run)
    (hp : s.HOST_PENDING = op :: rest) (hr : performCp op { s with HOST_PENDING := rest } = .error reason) :
    exec .hostIssue s = .next ((refuse reason s).retire 1) :=
  exec_of_refuses (i := .hostIssue) ((hostIssue_enabled_iff s).mpr ⟨hrun, by simp [hp]⟩) ⟨op, rest, hp, hr⟩

/-! ### HOST_RX -/

theorem appendByte_eq (b : Byte) (s : State) : appendByte b s =
    { s with LINE_BUF := if s.LINE_BUF.length < s.cfg.BUF_CAP then s.LINE_BUF ++ [b] else s.LINE_BUF } := by
  unfold appendByte
  split <;> rfl

/-- A byte other than CR is echoed and goes to the buffer (R134). -/
theorem exec_hostRx_byte {b : Byte} {s : State} (hidle : hostIdle s = true) (hb : b ≠ 0x0D#8) :
    exec (.hostRx b) s = .next ((appendByte b (emit (.echo b) s)).retire 2) :=
  exec_of_does (i := .hostRx b) hidle (.inl ⟨beq_eq_false_iff_ne.mpr hb, rfl⟩)

/-- CR is echoed and ends the line: a speed that is no NaN stays one, so its sequence is queued (R134, R140). -/
theorem exec_hostRx_cr {s : State} (hidle : hostIdle s = true) (hspeed : isnan s.CMD_STATE.speedTarget = false) :
    ∃ ops, setSpeedOps s.cfg.TAF (cmdAfterLine s).speedTarget = .ok ops ∧
      exec (.hostRx 0x0D) s = .next ((lineEnded 0x0D ops s).retire 2) := by
  obtain ⟨ops, hops⟩ := setSpeedOps_of_not_nan (taf := s.cfg.TAF) (isnan_cmdAfterLine hspeed)
  exact ⟨ops, hops, exec_of_does (i := .hostRx 0x0D) hidle (.inr ⟨rfl, ops, hops, rfl⟩)⟩

/-! ### The bytes of a line -/

/-- The buffer keeps the first BUF_CAP bytes of what it is given (R144). -/
theorem appendByte_eq_take (b : Byte) {s : State} (h : s.LINE_BUF.length ≤ s.cfg.BUF_CAP) :
    appendByte b s = { s with LINE_BUF := (s.LINE_BUF ++ [b]).take s.cfg.BUF_CAP } := by
  have hbuf : (if s.LINE_BUF.length < s.cfg.BUF_CAP then s.LINE_BUF ++ [b] else s.LINE_BUF) =
      (s.LINE_BUF ++ [b]).take s.cfg.BUF_CAP := by
    split
    · next hroom => rw [List.take_of_length_le (by simpa using hroom)]
    · next hfull => rw [List.take_append_of_le_length (by omega), List.take_of_length_le h]
  rw [appendByte_eq, hbuf]

theorem take_append_take {α : Type} (n : Nat) (l r : List α) : (l.take n ++ r).take n = (l ++ r).take n := by
  rw [List.take_append, List.take_append, List.take_take, Nat.min_self, List.length_take, tsub_min]

/-- The state after a text without CR: every byte echoed, and the buffer filled up to its capacity (R134, R144). -/
def textReceived (text : List Byte) (s : State) : State :=
  { s with
    LINE_BUF := (s.LINE_BUF ++ text).take s.cfg.BUF_CAP
    TRACE := s.TRACE ++ text.map Event.echo
    sched := s.sched.drop (2 * text.length) }

theorem textReceived_cons (b : Byte) (text : List Byte) (s : State) :
    textReceived text (textReceived [b] s) = textReceived (b :: text) s := by
  have hsched : 2 + 2 * text.length = 2 * (b :: text).length := by rw [List.length_cons]; omega
  simp only [textReceived, take_append_take, List.append_assoc, List.singleton_append, List.map_cons, List.map_nil,
    List.length_singleton, List.drop_drop, Nat.mul_one, hsched]

/-- The bytes of a text without CR, one HOST_RX each (R134, R144). -/
theorem execAll_lineWords {text : List Byte} (hcr : 0x0D ∉ text) {s : State} (hidle : hostIdle s = true)
    (hbuf : s.LINE_BUF.length ≤ s.cfg.BUF_CAP) : execAll (lineWords text) s = .next (textReceived text s) := by
  induction text generalizing s with
  | nil => simp [lineWords, execAll, textReceived, List.take_of_length_le hbuf]
  | cons b text ih =>
    obtain ⟨hb, htext⟩ := not_or.mp (mt List.mem_cons.mpr hcr)
    have hhead : exec (.hostRx b) s = .next (textReceived [b] s) := by
      rw [exec_hostRx_byte hidle (Ne.symm hb), appendByte_eq_take (s := emit (.echo b) s) b hbuf]
      rfl
    have hroom : (textReceived [b] s).LINE_BUF.length ≤ s.cfg.BUF_CAP := List.length_take_le _ _
    rw [lineWords, List.map_cons, execAll_cons hhead, ← textReceived_cons b text s]
    exact ih (s := textReceived [b] s) htext hidle hroom

/-- A line is its text and CR (30_encoding.md R79). -/
theorem execAll_line {text : List Byte} (hcr : 0x0D ∉ text) {s : State} (hidle : hostIdle s = true)
    (hbuf : s.LINE_BUF.length ≤ s.cfg.BUF_CAP) (hspeed : isnan s.CMD_STATE.speedTarget = false) :
    ∃ ops, setSpeedOps s.cfg.TAF (cmdAfterLine (textReceived text s)).speedTarget = .ok ops ∧
      execAll (lineWords (text ++ [0x0D])) s = .next ((lineEnded 0x0D ops (textReceived text s)).retire 2) := by
  obtain ⟨ops, hops, hline⟩ := exec_hostRx_cr (s := textReceived text s) hidle hspeed
  refine ⟨ops, hops, ?_⟩
  rw [lineWords, List.map_append]
  exact (execAll_append (execAll_lineWords hcr hidle hbuf)).trans (execAll_cons hline)

end Sys2Proof.Machine
end

section
/-! SUPPORT. The fields that no step reads (44_host_front_end.md R148): an operation has the same effect on the other fields,
and is refused for the same reason, whatever they hold. -/

namespace Sys2Proof.Machine

/-- The state `s` with the fields that no step reads taken from `r` (44_host_front_end.md R148; 10_state.md R39, R46;
00_scope.md R7). -/
def State.withUnread (s r : State) : State :=
  { s with
    CMD_STATE := { r.CMD_STATE with speedTarget := s.CMD_STATE.speedTarget }
    TMR_RUN := r.TMR_RUN
    TMR_ELAPSED := r.TMR_ELAPSED
    REFUSED := r.REFUSED
    refusedFor := r.refusedFor
    cfg := { s.cfg with
      SETTLE_TIME := r.cfg.SETTLE_TIME, PWM_PERIOD := r.cfg.PWM_PERIOD, TIMER_RES := r.cfg.TIMER_RES } }

/-- States that agree on what is read differ in the unread fields only. -/
theorem withUnread_of_readPart_eq {s s' : State} (h : readPart s = readPart s') : s.withUnread s' = s' := by
  have hs : (readPart s).withUnread s' = (readPart s').withUnread s' := congrArg (State.withUnread · s') h
  exact hs

theorem enabled_withUnread (i : Instr) (s r : State) : enabled i (s.withUnread r) = enabled i s := by
  cases i <;> rfl

/-- Of the command state only the speed is read, and a line leaves the same speed (R148). -/
theorem speed_cmdAfterLine_withUnread (s r : State) :
    (cmdAfterLine (s.withUnread r)).speedTarget = (cmdAfterLine s).speedTarget := by
  have hbuf : (s.withUnread r).LINE_BUF = s.LINE_BUF := rfl
  rw [cmdAfterLine, cmdAfterLine, hbuf]
  cases parseLine s.LINE_BUF with
  | none => rfl
  | some cmd => rfl

theorem performCp_withUnread {op : CpOp} {s u : State} (r : State) (h : performCp op s = .ok u) :
    ∃ u', performCp op (s.withUnread r) = .ok u' ∧ readPart u' = readPart u := by
  cases op with
  | start l =>
    obtain ⟨hl, hstopped, rfl⟩ := performCp_start_ok h
    exact ⟨_, performCp_start hl hstopped, rfl⟩
  | writeTarget _ | stop | writeLead _ | zeroDuty => cases h; exact ⟨_, rfl, rfl⟩

theorem performCp_error_withUnread {op : CpOp} {s : State} {reason : RefuseReason} (r : State)
    (h : performCp op s = .error reason) : performCp op (s.withUnread r) = .error reason := by
  cases op with
  | start l =>
    obtain ⟨rfl, rfl⟩ | ⟨hl, hrunning, rfl⟩ := performCp_start_error h
    · rfl
    · exact performCp_start_running hl hrunning
  | writeTarget _ | stop | writeLead _ | zeroDuty => cases h

/-- An effect neither reads the unread fields nor writes from them what is read (R148; 10_state.md R39, R46). -/
theorem does_withUnread {i : Instr} {s u : State} (r : State) (h : Does i s u) :
    ∃ u', Does i (s.withUnread r) u' ∧ readPart u' = readPart u := by
  cases i with
  | envSense _ | qaFall | qaRise | qbFall | qbRise | ctrlDone _ | cpWriteTarget _ | cpStop | cpZeroDuty | reset
  | syncSample => cases h; exact ⟨_, rfl, rfl⟩
  | poll =>
    obtain ⟨hprev, rfl⟩ | ⟨hprev, o, ho, rfl⟩ := h
    · exact ⟨_, .inl ⟨hprev, rfl⟩, rfl⟩
    · refine ⟨_, .inr ⟨hprev, o, ho, rfl⟩, ?_⟩
      rw [applyPattern, applyPattern, drivePattern_eq, drivePattern_eq]
      rfl
  | apply | rotorRead => exact h.elim
  | ctrlTop =>
    cases h
    refine ⟨_, rfl, ?_⟩
    have hdir : (s.withUnread r).DIR_FLAG = s.DIR_FLAG := rfl
    rw [ctrlTopEffect, ctrlTopEffect, hdir]
    cases s.DIR_FLAG <;> rfl
  | cpWriteLead L => obtain ⟨l, hL, rfl⟩ := h; exact ⟨_, ⟨l, hL, rfl⟩, rfl⟩
  | cpStart L => obtain ⟨l, hL, hl, hstopped, rfl⟩ := h; exact ⟨_, ⟨l, hL, hl, hstopped, rfl⟩, rfl⟩
  | syncDrive =>
    cases h
    refine ⟨_, rfl, ?_⟩
    rw [syncDriveEffect, syncDriveEffect, drivePattern_eq, drivePattern_eq]
    rfl
  | hostRx b =>
    obtain ⟨hb, rfl⟩ | ⟨hb, ops, hops, rfl⟩ := h
    · refine ⟨_, .inl ⟨hb, rfl⟩, ?_⟩
      rw [appendByte_eq, appendByte_eq]
      rfl
    · have hspeed := speed_cmdAfterLine_withUnread s r
      refine ⟨_, .inr ⟨hb, ops, (congrArg (setSpeedOps s.cfg.TAF) hspeed).trans hops, rfl⟩, ?_⟩
      simp only [readPart, lineEnded, hspeed]
      rfl
  | hostIssue =>
    obtain ⟨op, rest, hq, hu⟩ := h
    obtain ⟨u', hu', hread⟩ := performCp_withUnread r hu
    exact ⟨u', ⟨op, rest, hq, hu'⟩, hread⟩

/-- The reasons of a refusal are read from the other fields. -/
theorem refuses_withUnread {i : Instr} {s : State} {reason : RefuseReason} (r : State) (h : Refuses i s reason) :
    Refuses i (s.withUnread r) reason := by
  cases i with
  | hostRx b =>
    obtain ⟨hb, hn, rfl⟩ := h
    exact ⟨hb, (congrArg isnan (speed_cmdAfterLine_withUnread s r)).trans hn, rfl⟩
  | hostIssue =>
    obtain ⟨op, rest, hq, hr⟩ := h
    exact ⟨op, rest, hq, performCp_error_withUnread r hr⟩
  | _ => exact h

theorem exec_withUnread {i : Instr} {s t : State} (r : State) (h : exec i s = .next t) :
    ∃ t', exec i (s.withUnread r) = .next t' ∧ readPart t' = readPart t := by
  have henabled := enabled_withUnread i s r
  obtain ⟨he, rfl⟩ | ⟨he, reason, href, rfl⟩ | ⟨he, u, hu, rfl⟩ := exec_next_cases h
  · exact ⟨_, exec_of_not_enabled (henabled.trans he), rfl⟩
  · exact ⟨_, exec_of_refuses (henabled.trans he) (refuses_withUnread r href), rfl⟩
  · obtain ⟨u', hu', hread⟩ := does_withUnread r hu
    exact ⟨_, exec_of_does (henabled.trans he) hu', congrArg (State.retire (wordLength i)) hread⟩

/-- A step of the machine takes the same word with other unread fields, and ends in the same way. -/
theorem step_withUnread {s t : State} (r : State) (h : step s = .next t) :
    ∃ t', step (s.withUnread r) = .next t' ∧ readPart t' = readPart t := by
  obtain ⟨hwf, ⟨i, rest, hi, hexec⟩ | ⟨he, rfl⟩ | ⟨v, hv, hset⟩⟩ := step_next_cases h
  · obtain ⟨t', ht', hread⟩ := exec_withUnread r hexec
    exact ⟨t', (step_of_decode (s := s.withUnread r) hwf hi).trans ht', hread⟩
  · have hne : stepBytes s.sched ≠ [] := fun hnil => by rw [hnil] at he; cases he
    exact ⟨_, step_of_decode_error (s := s.withUnread r) hwf (nextSpeed_of_stepBytes hne) he, rfl⟩
  · obtain ⟨-, hsched⟩ := stepBytes_of_nextSpeed hv
    obtain ⟨hidle, e⟩ | ⟨hidle, hn, e⟩ | ⟨hidle, -, ops, hops, e⟩ := execSetSpeed_cases v s <;> cases hset.symm.trans e
    · exact ⟨_, step_setSpeed_waits (s := s.withUnread r) hwf hsched hidle, rfl⟩
    · exact ⟨_, step_setSpeed_of_isnan (s := s.withUnread r) hwf hsched hidle hn, rfl⟩
    · exact ⟨_, step_setSpeed_of_ops (s := s.withUnread r) hwf hsched hidle hops, rfl⟩

end Sys2Proof.Machine
end

section
/-! PROOFS. The statements of 44_host_front_end.md: the fields that no step reads, HOST_RX and its lines, the parse, the
numbers, and HOST_ISSUE. -/

namespace Sys2Proof.Machine

/-- Settles O51: the other state is the first with other unread fields, so `step_withUnread` gives its step. -/
theorem unreadFieldsDoNotMatter : Obligations.UnreadFieldsDoNotMatter := fun s s' t hread hstep => by
  obtain ⟨t', ht', hread'⟩ := step_withUnread s' hstep
  rw [withUnread_of_readPart_eq hread] at ht'
  exact ⟨t', ht', hread'⟩

/-- Settles O39: a byte is appended or dropped, and CR ends the line, whose speed is no NaN. -/
theorem hostRxTakesOneByte : Obligations.HostRxTakesOneByte := by
  refine fun s b => ⟨fun hheld => exec_of_not_enabled (i := .hostRx b) (hostIdle_eq_false hheld), fun hrun hempty => ?_⟩
  have idle : hostIdle s = true := (hostIdle_iff s).mpr ⟨hrun, hempty⟩
  refine ⟨fun hb hroom => ?_, fun hb hfull => ?_, ?_⟩
  · rw [exec_hostRx_byte idle hb, appendByte_eq, emit_LINE_BUF, emit_cfg, if_pos hroom]
    rfl
  · rw [exec_hostRx_byte idle hb, appendByte_eq, emit_LINE_BUF, emit_cfg, if_neg (Nat.not_lt.mpr hfull)]
    rfl
  · rintro rfl hspeed
    exact exec_hostRx_cr idle hspeed

/-- Settles O40: the parse by the first letter, with the span before the first V. -/
theorem parseRecognisesTheCommands : Obligations.ParseRecognisesTheCommands :=
  ⟨rfl, fun _ _ _ after hbefore => ⟨fun hc rest => parseLine_of_V hc rest,
    fun hc hv => (parseLine_of_R hc _).trans (congrArg some (parseR_of_V hbefore hv after)),
    fun hc => (parseLine_of_R hc _).trans (congrArg some (parseR_of_no_V hbefore)),
    fun hc rest => parseLine_of_other hc rest⟩⟩

/-- Settles O41: `execAll_line`, from an empty buffer. -/
theorem lineIsTruncatedAndParsed : Obligations.LineIsTruncatedAndParsed := by
  intro s text hrun hempty hbuf hspeed hcr cmd
  have idle : hostIdle s = true := (hostIdle_iff s).mpr ⟨hrun, hempty⟩
  obtain ⟨ops, hops, hline⟩ := execAll_line hcr idle (by rw [hbuf]; exact Nat.zero_le _) hspeed
  have hcmd : cmdAfterLine (textReceived text s) = cmd := by
    rw [cmdAfterLine, textReceived, hbuf]
    rfl
  have htrace : s.TRACE ++ text.map Event.echo ++ [.echo 0x0D] = s.TRACE ++ (text ++ [0x0D]).map Event.echo := by
    rw [List.map_append, List.append_assoc]
    rfl
  have hsched : (s.sched.drop (2 * text.length)).drop 2 = s.sched.drop (2 * (text.length + 1)) := by
    rw [List.drop_drop, Nat.mul_succ]
  refine ⟨ops, hcmd ▸ hops, hline.trans ?_⟩
  rw [← htrace, ← hsched, ← hcmd, hbuf]
  rfl

/-- Settles O43: the clauses with a mantissa by what follows it, and the one without. -/
theorem numberFieldsReadTheirLongestNumber : Obligations.NumberFieldsReadTheirLongestNumber := by
  intro ws sign whole frac expo rest esign e hws hsign hwhole hfrac he hesign hexpo hne hrest
  have point {tail : List Byte} := takeMantissa_point (frac := frac) (rest := tail) hwhole
  have noPoint {tail : List Byte} := takeMantissa_whole (rest := tail) hwhole
  have letter (tail : List Byte) := exponentLetter_ends_mantissa (esign := esign) he tail
  have exponent := takeExponent_of_digits he hesign hrest hexpo hne
  simp only [List.append_assoc]
  refine ⟨fun hdigits => ?_, fun hdigits hend => ?_, fun hdigits hend => ?_, fun hdigits => ?_, fun hdigits hend => ?_,
    fun hdigits hend => ?_, fun hpoint hhead => ?_⟩
  · rw [atof32_of_mantissa hws hsign (point (letter _).1 hfrac hdigits), exponent]
  · rw [atof32_of_mantissa hws hsign (point hrest hfrac hdigits), takeExponent_of_head hend, Int.zero_sub]
  · rw [atof32_of_mantissa hws hsign (point (letter _).1 hfrac hdigits), takeExponent_of_no_digits he hesign hrest hend,
      Int.zero_sub]
  · rw [atof32_of_whole hws hsign (noPoint (letter _).1 (letter _).2 hdigits), exponent]
  · have hdot : ∀ b, rest.head? = some b → b ≠ 0x2E := fun b hb hpoint => hend b hb (by simp [hpoint])
    have hletter : ∀ b, rest.head? = some b → b ∉ ([0x65, 0x45] : List Byte) :=
      fun b hb hmem => hend b hb (List.mem_append_left [0x2E] hmem)
    rw [atof32_of_whole hws hsign (noPoint hrest hdot hdigits), takeExponent_of_head hletter]
  · rw [atof32_of_whole hws hsign (noPoint (letter _).1 (letter _).2 hdigits),
      takeExponent_of_no_digits he hesign hrest hend]
  · exact atof32_of_no_mantissa hws hsign hhead (takeMantissa_none hrest hpoint)

/-- Settles O44: the conversion is one `roundMag`, which rounds to nearest, ties to even. -/
theorem decimalConversionRoundsOnce : Obligations.DecimalConversionRoundsOnce := by
  refine ⟨fun m x => ?_, isnan_atof32⟩
  have hden : 0 < 10 ^ (-x).toNat := Nat.pow_pos (by decide)
  rw [decimalMag_eq_roundMag]
  exact ⟨roundMag_overflow _ _ hden, roundMag_le_inf _ _, fun hfin w _ => roundMag_nearest _ _ w hden hfin⟩

/-- Settles O38: the effect of each head, and its refusal. -/
theorem hostIssuePerformsTheHead : Obligations.HostIssuePerformsTheHead := by
  refine fun s op rest => ⟨fun hheld => exec_of_not_enabled (Bool.eq_false_iff.mpr fun he => ?_),
    fun hrun hq => ⟨?_, ?_, ?_, ?_, ?_, ?_, ?_⟩⟩
  · obtain ⟨hrun, hne⟩ := (hostIssue_enabled_iff s).mp he
    exact hheld.elim (absurd hrun) fun hempty => hne hempty
  · rintro x rfl; exact exec_hostIssue_writeTarget hrun hq
  · rintro rfl; exact exec_hostIssue_stop hrun hq
  · rintro l rfl; exact exec_hostIssue_writeLead hrun hq
  · rintro rfl; exact exec_hostIssue_zeroDuty hrun hq
  · rintro l rfl hl hstopped; exact exec_hostIssue_start hrun hl hstopped hq
  · rintro l rfl hl hrunning; exact exec_hostIssue_refused hrun hq (performCp_start_running hl hrunning)
  · rintro rfl; exact exec_hostIssue_refused hrun hq rfl

/-- Settles O42: the five lines are parsed by evaluation. -/
theorem literalCommandLines : Obligations.LiteralCommandLines := by
  unfold Obligations.LiteralCommandLines
  decide +kernel

end Sys2Proof.Machine
end

section
/-! SUPPORT. What changes the outputs and the phases of the agents (45_main_loop.md R150 to R154): the few effects that write
each of these registers, and the values they give it. -/

namespace Sys2Proof.Machine

/-! ### The outputs -/

/-- After the two passes every output is +0.0 or at the driving duty (40_rotor_commutator.md R88). -/
theorem drivenOut_source (p : Dpat) (duty : F32) (out : Vector F32 6) (k : Fin 6) :
    (drivenOut p duty out)[k] = .posZero ∨ (drivenOut p duty out)[k] = duty := by
  rw [drivenOut_getElem]
  exact (ite_eq_or_eq _ _ _).symm

/-- Only a POLL that sees another reading, SYNC_DRIVE and RESET write the outputs (45_main_loop.md R152). -/
theorem does_OUT {i : Instr} {s u : State} (he : enabled i s = true) (h : Does i s u) :
    u.OUT = s.OUT ∨
    (i = .poll ∧ s.PREV_STATE ≠ some (rotorRead s) ∧ ∃ p, u.OUT = drivenOut p s.DUTY s.OUT) ∨
    (i = .syncDrive ∧ s.MODE = .syncDrive ∧ ∃ p, u.OUT = drivenOut p s.cfg.SYNC_DUTY s.OUT) ∨
    (i = .reset ∧ u.OUT = Vector.replicate 6 .posZero) := by
  cases i with
  | poll =>
    obtain ⟨-, rfl⟩ | ⟨hprev, o, -, rfl⟩ := h
    · exact .inl rfl
    · exact .inr (.inl ⟨rfl, hprev, _, drivePattern_OUT _ _ _⟩)
  | syncDrive => cases h; exact .inr (.inr (.inl ⟨rfl, of_decide_eq_true he, _, syncDriveEffect_OUT s⟩))
  | reset => cases h; exact .inr (.inr (.inr ⟨rfl, rfl⟩))
  | syncSample => cases h; exact .inl rfl
  | apply | rotorRead => exact h.elim
  | _ => exact .inl (congrArg State.OUT (does_restoreFields (by nofun) h) :)

/-! ### The mode and the offset -/

/-- The start-up steps and RESET are what changes MODE (45_main_loop.md R154). -/
theorem does_MODE {i : Instr} {s u : State} (he : enabled i s = true) (h : Does i s u) :
    u.MODE = s.MODE ∨ (i = .reset ∧ u.MODE = .syncDrive) ∨
    (i = .syncDrive ∧ s.MODE = .syncDrive ∧ u.MODE = .syncSettle) ∨
    (i = .syncSample ∧ s.MODE = .syncSettle ∧ u.MODE = .run) := by
  cases i with
  | reset => cases h; exact .inr (.inl ⟨rfl, rfl⟩)
  | syncDrive => cases h; exact .inr (.inr (.inl ⟨rfl, of_decide_eq_true he, rfl⟩))
  | syncSample => cases h; exact .inr (.inr (.inr ⟨rfl, of_decide_eq_true he, rfl⟩))
  | _ => exact .inl (congrArg State.MODE (does_restoreFields (by nofun) h) :)

/-- SYNC_SAMPLE and RESET are what changes ROTOR_OFFSET (40_rotor_commutator.md R94). -/
theorem does_ROTOR_OFFSET {i : Instr} {s u : State} (he : enabled i s = true) (h : Does i s u) :
    u.ROTOR_OFFSET = s.ROTOR_OFFSET ∨ (i = .reset ∧ u.ROTOR_OFFSET = none) ∨
    (i = .syncSample ∧ s.MODE = .syncSettle ∧ u.ROTOR_OFFSET = some (rotorRead s)) := by
  cases i with
  | reset => cases h; exact .inr (.inl ⟨rfl, rfl⟩)
  | syncSample => cases h; exact .inr (.inr ⟨rfl, of_decide_eq_true he, rfl⟩)
  | syncDrive => cases h; exact .inl (syncDriveEffect_ROTOR_OFFSET s)
  | _ => exact .inl (congrArg State.ROTOR_OFFSET (does_restoreFields (by nofun) h) :)

/-! ### The controller -/

/-- From `s` to `u` the controller stays in the state and the phase it was in. -/
def ControllerKept (s u : State) : Prop := u.CTRL_RUN = s.CTRL_RUN ∧ u.CTRL_PHASE = s.CTRL_PHASE

/-- The operation performs CP_STOP, and `u` is stopped at TOP (43_command_port.md R124). -/
def Stops (i : Instr) (s u : State) : Prop := performed i s = some .stop ∧ u.CTRL_RUN = .stopped ∧ u.CTRL_PHASE = .top

/-- The operation performs CP_START with a lead that is not zero, and a stopped controller runs from TOP
(43_command_port.md R127). -/
def Starts (i : Instr) (s u : State) : Prop :=
  (∃ l, l ≠ .stopped ∧ performed i s = some (.start l) ∧ u.START_LEAD = some l) ∧
  s.CTRL_RUN = .stopped ∧ u.CTRL_RUN = .running ∧ u.CTRL_PHASE = .top

/-- An operation of the host receives a byte or performs a command-port operation, its own or the head of the queue
(43_command_port.md R129). -/
theorem does_host_performs {i : Instr} {s u : State} (ha : i.agent = .host) (h : Does i s u) :
    (∃ b, i = .hostRx b) ∨
    ∃ op q, performed i s = some op ∧ performCp op { s with HOST_PENDING := q } = .ok u := by
  cases i with
  | hostRx b => exact .inl ⟨b, rfl⟩
  | cpWriteTarget _ | cpStop | cpZeroDuty => cases h; exact .inr ⟨_, s.HOST_PENDING, rfl, rfl⟩
  | cpWriteLead L =>
    obtain ⟨l, hL, rfl⟩ := h
    exact .inr ⟨_, s.HOST_PENDING, congrArg (Option.map CpOp.writeLead) hL, rfl⟩
  | cpStart L =>
    obtain ⟨l, hL, hl, hstopped, rfl⟩ := h
    exact .inr ⟨_, s.HOST_PENDING, congrArg (Option.map CpOp.start) hL, performCp_start hl hstopped⟩
  | hostIssue =>
    obtain ⟨op, rest, hp, hu⟩ := h
    exact .inr ⟨op, rest, congrArg List.head? hp, hu⟩
  | _ => cases ha

/-- The host moves the controller by CP_STOP and CP_START alone (45_main_loop.md R154). -/
theorem does_host_controller {i : Instr} {s u : State} (ha : i.agent = .host) (h : Does i s u) :
    ControllerKept s u ∨ Stops i s u ∨ Starts i s u := by
  obtain ⟨b, rfl⟩ | ⟨op, q, hop, hu⟩ := does_host_performs ha h
  · obtain ⟨-, rfl⟩ | ⟨-, ops, -, rfl⟩ := h
    · exact .inl ⟨appendByte_CTRL_RUN _ _, appendByte_CTRL_PHASE _ _⟩
    · exact .inl ⟨rfl, rfl⟩
  · cases op with
    | stop => cases hu; exact .inr (.inl ⟨hop, rfl, rfl⟩)
    | start l =>
      obtain ⟨hl, hstopped, rfl⟩ := performCp_start_ok hu
      exact .inr (.inr ⟨⟨l, hl, hop, rfl⟩, hstopped, rfl, rfl⟩)
    | writeTarget _ | writeLead _ | zeroDuty => cases hu; exact .inl ⟨rfl, rfl⟩

/-- The steps that move the controller (45_main_loop.md R154). -/
theorem does_controller {i : Instr} {s u : State} (he : enabled i s = true) (h : Does i s u) :
    ControllerKept s u ∨
    (i = .reset ∧ u.CTRL_RUN = .stopped ∧ u.CTRL_PHASE = .top) ∨
    (s.MODE = .run ∧ (Stops i s u ∨ Starts i s u)) ∨
    (s.CTRL_RUN = .running ∧ u.CTRL_RUN = .running ∧
      ((i = .ctrlTop ∧ s.CTRL_PHASE = .top ∧ s.DIR_FLAG ≠ .stopped ∧ u.CTRL_PHASE = .wait) ∨
        ((∃ m, i = .ctrlDone m) ∧ s.CTRL_PHASE = .wait ∧ u.CTRL_PHASE = .top))) := by
  by_cases hhost : i.agent = .host
  · have hrun : s.MODE = .run := by
      by_contra hm
      rw [enabled_of_not_run hm (.inr (.inr hhost))] at he
      cases he
    exact (does_host_controller hhost h).imp id fun hmoved => .inr (.inl ⟨hrun, hmoved⟩)
  cases i with
  | reset => cases h; exact .inr (.inl ⟨rfl, rfl, rfl⟩)
  | ctrlTop =>
    obtain ⟨-, hrunning, htop⟩ := (ctrlTop_enabled_iff s).mp he
    cases h
    cases hd : s.DIR_FLAG with
    | stopped => rw [ctrlTopEffect_of_stopped hd]; exact .inl ⟨rfl, rfl⟩
    | forward =>
      rw [ctrlTopEffect_of_forward hd]
      exact .inr (.inr (.inr ⟨hrunning, hrunning, .inl ⟨rfl, htop, nofun, rfl⟩⟩))
    | backward =>
      rw [ctrlTopEffect_of_backward hd]
      exact .inr (.inr (.inr ⟨hrunning, hrunning, .inl ⟨rfl, htop, nofun, rfl⟩⟩))
  | ctrlDone m =>
    obtain ⟨-, hrunning, hwait, -⟩ := (ctrlDone_enabled_iff m s).mp he
    cases h
    exact .inr (.inr (.inr ⟨hrunning, hrunning, .inr ⟨⟨m, rfl⟩, hwait, rfl⟩⟩))
  | cpWriteTarget _ | cpStop | cpWriteLead _ | cpZeroDuty | cpStart _ | hostRx _ | hostIssue => exact absurd rfl hhost
  | _ =>
    have frame := does_restoreFields (by nofun) h
    exact .inl ⟨(congrArg State.CTRL_RUN frame :), (congrArg State.CTRL_PHASE frame :)⟩

/-! ### The queue -/

/-- RESET empties the queue, CR fills it with the sequence of the speed, and HOST_ISSUE removes its head
(44_host_front_end.md R134, R136). -/
theorem does_HOST_PENDING {i : Instr} {s u : State} (he : enabled i s = true) (h : Does i s u) :
    u.HOST_PENDING = s.HOST_PENDING ∨ (i = .reset ∧ u.HOST_PENDING = []) ∨
    (i = .hostRx 0x0D ∧ s.HOST_PENDING = [] ∧
      setSpeedOps s.cfg.TAF u.CMD_STATE.speedTarget = .ok u.HOST_PENDING ∧ u.HOST_PENDING.length = 4) ∨
    (i = .hostIssue ∧ s.HOST_PENDING ≠ [] ∧ u.HOST_PENDING = s.HOST_PENDING.tail) := by
  cases i with
  | reset => cases h; exact .inr (.inl ⟨rfl, rfl⟩)
  | hostRx b =>
    obtain ⟨-, rfl⟩ | ⟨hb, ops, hops, rfl⟩ := h
    · exact .inl (appendByte_HOST_PENDING _ _)
    · obtain ⟨-, hempty⟩ := (hostIdle_iff s).mp he
      obtain ⟨-, hlist⟩ := setSpeedOps_ok hops
      have hlength : ops.length = 4 := by rw [hlist]; rfl
      exact .inr (.inr (.inl ⟨congrArg Instr.hostRx (beq_iff_eq.mp hb), hempty, hops, hlength⟩))
  | hostIssue =>
    obtain ⟨op, rest, hp, hu⟩ := h
    obtain ⟨-, hrest, -⟩ := performCp_keeps hu
    exact .inr (.inr (.inr ⟨rfl, by simp [hp], by rw [hp]; exact hrest⟩))
  | cpStart L => obtain ⟨l, -, -, -, rfl⟩ := h; exact .inl rfl
  | _ =>
    obtain ⟨-, hkept⟩ := does_keeps_line ⟨by nofun, by nofun, by nofun⟩ h
    exact .inl (hkept nofun)

end Sys2Proof.Machine
end

section
/-! PROOFS. The statements of 45_main_loop.md: POLL, the source of every output value, and the phases of the agents. -/

namespace Sys2Proof.Machine

/-- Settles O16: the effect of an enabled POLL by its reading, with the two passes of APPLY as one write of every output. -/
theorem pollIsOneLoopIteration : Obligations.PollIsOneLoopIteration := by
  refine fun s => ⟨fun hm => exec_of_not_enabled (decide_eq_false hm),
    fun hm hprev => exec_of_does (i := .poll) (decide_eq_true hm) (.inl ⟨hprev, rfl⟩), fun offset hm hprev hoff => ?_⟩
  dsimp only
  rw [exec_of_does (i := .poll) (decide_eq_true hm) (.inr ⟨hprev, offset, hoff, rfl⟩), applyPattern, drivePattern_eq,
    drivenOut_eq_ofFn]
  rfl

/-- Settles O22: `does_OUT` for the effects; a step that holds or is refused writes no output. -/
theorem everyOutputValueHasASource : Obligations.EveryOutputValueHasASource := by
  intro i s t ht
  obtain ⟨-, rfl⟩ | ⟨-, r, -, rfl⟩ | ⟨he, u, hu, rfl⟩ := exec_next_cases ht
  · exact ⟨absurd rfl, fun _ => .inl rfl⟩
  · exact ⟨absurd rfl, fun _ => .inl rfl⟩
  · rw [retire_OUT]
    obtain hkept | ⟨hi, hprev, p, hout⟩ | ⟨hi, hmode, p, hout⟩ | ⟨hi, hout⟩ := does_OUT he hu
    · exact ⟨absurd hkept, fun k => .inl (by rw [hkept])⟩
    · refine ⟨fun _ => .inl ⟨hi, hprev⟩, fun k => .inr ?_⟩
      rw [hout]
      exact (drivenOut_source p s.DUTY s.OUT k).imp id fun hduty => .inl ⟨hi, hduty⟩
    · refine ⟨fun _ => .inr (.inl ⟨hi, hmode⟩), fun k => .inr ?_⟩
      rw [hout]
      exact (drivenOut_source p s.cfg.SYNC_DUTY s.OUT k).imp id fun hduty => .inr ⟨hi, hduty⟩
    · refine ⟨fun _ => .inr (.inr hi), fun k => .inr (.inl ?_)⟩
      rw [hout]
      exact Vector.getElem_replicate _

/-- Settles O48: the effects that write each register; a step that holds or is refused writes none of them. -/
theorem phasesChangeOnlyAsListed : Obligations.PhasesChangeOnlyAsListed := by
  intro i s t ht
  obtain ⟨-, rfl⟩ | ⟨-, r, -, rfl⟩ | ⟨he, u, hu, rfl⟩ := exec_next_cases ht
  · exact ⟨absurd rfl, absurd rfl, absurd rfl, absurd rfl, absurd rfl⟩
  · exact ⟨absurd rfl, absurd rfl, absurd rfl, absurd rfl, absurd rfl⟩
  · refine ⟨(does_MODE he hu).resolve_left, (does_ROTOR_OFFSET he hu).resolve_left, fun hne => ?_, fun hne => ?_,
      (does_HOST_PENDING he hu).resolve_left⟩
    · obtain ⟨hkept, -⟩ | hreset | ⟨hrun, hstop | hstart⟩ | ⟨hbefore, hafter, -⟩ := does_controller he hu
      · exact absurd hkept hne
      · exact .inl hreset
      · exact .inr (.inl ⟨hrun, hstop⟩)
      · exact .inr (.inr ⟨hrun, hstart⟩)
      · exact absurd (hafter.trans hbefore.symm) hne
    · obtain ⟨-, hkept⟩ | ⟨hi, -, htop⟩ | ⟨-, hstop | ⟨⟨l, -, hop, -⟩, hmoved⟩⟩ |
        ⟨hrunning, -, ⟨hi, hopen⟩ | ⟨hi, hclose⟩⟩ := does_controller he hu
      · exact absurd hkept hne
      · exact .inl ⟨hi, htop⟩
      · exact .inr (.inr (.inr (.inl hstop)))
      · exact .inr (.inr (.inr (.inr ⟨⟨l, hop⟩, hmoved⟩)))
      · exact .inr (.inl ⟨hi, hrunning, hopen⟩)
      · exact .inr (.inr (.inl ⟨hi, hrunning, hclose⟩))

end Sys2Proof.Machine
end

section
/-! SUPPORT. RESET and the runs of the whole machine (70_reset_and_hazards.md): the invariant over every step, the queue
between two HOST_ISSUE steps, and the steps that are stutters (R198, R197, R199). -/

namespace Sys2Proof.Machine

/-! ### The invariant -/

/-- An empty queue is what is left of any sequence (44_host_front_end.md R136). -/
theorem pendingOk_of_empty {s : State} (hspeed : isnan s.CMD_STATE.speedTarget = false) (hempty : s.HOST_PENDING = []) :
    PendingOk s :=
  ⟨_, 4, setSpeedOps_eq hspeed _, hempty, Nat.le_refl 4, by omega⟩

/-- Every operation keeps the invariant: it holds, is refused, or has its effect (R198). -/
theorem inv_exec {i : Instr} {s t : State} (h : Inv s) (ht : exec i s = .next t) : Inv t := by
  obtain ⟨-, rfl⟩ | ⟨-, r, -, rfl⟩ | ⟨he, u, hu, rfl⟩ := exec_next_cases ht
  · exact h
  · exact inv_retire _ (inv_refuse r h)
  · exact inv_retire _ (inv_does h he hu)

/-! ### The queue of a run without RESET -/

/-- RUN ends by RESET alone (45_main_loop.md R154). -/
theorem exec_keeps_run {i : Instr} {s t : State} (hi : i ≠ .reset) (hrun : s.MODE = .run) (ht : exec i s = .next t) :
    t.MODE = .run := by
  by_contra hmode
  obtain ⟨hchange, -⟩ := phasesChangeOnlyAsListed i s t ht
  obtain ⟨hreset, -⟩ | ⟨-, hbefore, -⟩ | ⟨-, hbefore, -⟩ := hchange fun e => hmode (e.trans hrun)
  · exact hi hreset
  · cases hrun.symm.trans hbefore
  · cases hrun.symm.trans hbefore

/-- A queue that is not empty does not grow: the host takes no line until it is (44_host_front_end.md R134, R136). -/
theorem exec_queue_length_le {i : Instr} {s t : State} (hq : s.HOST_PENDING ≠ []) (ht : exec i s = .next t) :
    t.HOST_PENDING.length ≤ s.HOST_PENDING.length := by
  by_cases hkept : t.HOST_PENDING = s.HOST_PENDING
  · rw [hkept]
  obtain ⟨-, -, -, -, hchange⟩ := phasesChangeOnlyAsListed i s t ht
  obtain ⟨-, hempty⟩ | ⟨-, hempty, -⟩ | ⟨-, -, htail⟩ := hchange hkept
  · simp [hempty]
  · exact absurd hempty hq
  · simp [htail]

/-- Under the invariant HOST_ISSUE makes a queue that is not empty shorter (44_host_front_end.md R136). -/
theorem exec_hostIssue_queue_length_lt {s t : State} (h : Inv s) (hq : s.HOST_PENDING ≠ [])
    (ht : exec .hostIssue s = .next t) : t.HOST_PENDING.length < s.HOST_PENDING.length := by
  obtain ⟨op, rest, hp⟩ := List.exists_cons_of_ne_nil hq
  obtain ⟨hrest, -⟩ := exec_hostIssue_of_inv h hp ht
  simp [hrest, hp]

section
variable {r : Run}

theorem Run.inv (h : Inv (r.state 0)) (n : Nat) : Inv (r.state n) := by
  induction n with
  | zero => exact h
  | succ n ih => exact inv_exec ih (r.step n)

theorem Run.mode_run (hreset : ∀ n, r.word n ≠ .reset) (h : (r.state 0).MODE = .run) (n : Nat) :
    (r.state n).MODE = .run := by
  induction n with
  | zero => exact h
  | succ n ih => exact exec_keeps_run (hreset n) ih (r.step n)

/-- While the queue is never empty it only gets shorter. -/
theorem Run.queue_length_le {n m : Nat} (hq : ∀ k, n ≤ k → (r.state k).HOST_PENDING ≠ []) (hnm : n ≤ m) :
    (r.state m).HOST_PENDING.length ≤ (r.state n).HOST_PENDING.length := by
  induction m, hnm using Nat.le_induction with
  | base => exact Nat.le_refl _
  | succ m hnm ih => exact (exec_queue_length_le (hq m hnm) (r.step m)).trans ih

/-- From a point on the queue cannot stay non-empty: HOST_ISSUE would stay enabled, and each one that fairness gives would
shorten the queue (R197). The induction is on the length of the queue. -/
theorem Run.queue_drains (hinv : ∀ n, Inv (r.state n)) (hrun : ∀ n, (r.state n).MODE = .run)
    (fair : r.weaklyFair .hostIssue) (n : Nat) (hq : ∀ k, n ≤ k → (r.state k).HOST_PENDING ≠ []) : False := by
  obtain ⟨m, hnm, hword⟩ := fair n fun k hk => (hostIssue_enabled_iff _).mpr ⟨hrun k, hq k hk⟩
  have hle := Run.queue_length_le hq hnm
  have hlt := exec_hostIssue_queue_length_lt (hinv m) (hq m hnm) (hword ▸ r.step m)
  exact Run.queue_drains hinv hrun fair (m + 1) fun k hk => hq k (by omega)
termination_by (r.state n).HOST_PENDING.length
decreasing_by omega

end

/-! ### Stutters -/

section
variable {s : State}

/-- A POLL in RUN is a stutter exactly if it sees the cached reading (45_main_loop.md R151). -/
theorem exec_poll_stutters_iff (h : Inv s) (hrun : s.MODE = .run) :
    exec .poll s = .next (s.retire 1) ↔ s.PREV_STATE = some (rotorRead s) := by
  refine ⟨fun ht => ?_, fun hprev => exec_of_does (i := .poll) (decide_eq_true hrun) (.inl ⟨hprev, rfl⟩)⟩
  by_contra hprev
  obtain ⟨offset, hoff⟩ := Option.isSome_iff_exists.mp (h.offset.mpr hrun)
  have changed := exec_of_does (i := .poll) (decide_eq_true hrun) (.inr ⟨hprev, offset, hoff, rfl⟩)
  have hcached := congrArg State.PREV_STATE (Host.Outcome.next.inj (ht.symm.trans changed))
  exact hprev (by simpa [applyPattern] using hcached)

/-- A DIR_FLAG other than 0 opens a window (42_speed_controller.md R112). -/
theorem ctrlTopEffect_CTRL_PHASE (h : s.DIR_FLAG ≠ .stopped) : (ctrlTopEffect s).CTRL_PHASE = .wait := by
  cases hd : s.DIR_FLAG with
  | stopped => exact absurd hd h
  | forward => rw [ctrlTopEffect_of_forward hd]; rfl
  | backward => rw [ctrlTopEffect_of_backward hd]; rfl

/-- An enabled CTRL_TOP is a stutter exactly if DIR_FLAG is 0 (42_speed_controller.md R112, R120). -/
theorem exec_ctrlTop_stutters_iff (he : enabled .ctrlTop s = true) :
    exec .ctrlTop s = .next (s.retire 1) ↔ s.DIR_FLAG = .stopped := by
  rw [exec_ctrlTop he]
  refine ⟨fun ht => ?_, fun hd => by rw [ctrlTopEffect_of_stopped hd]⟩
  by_contra hd
  obtain ⟨-, -, htop⟩ := (ctrlTop_enabled_iff s).mp he
  have hphase : (ctrlTopEffect s).CTRL_PHASE = s.CTRL_PHASE := (congrArg State.CTRL_PHASE (Host.Outcome.next.inj ht) :)
  cases (ctrlTopEffect_CTRL_PHASE hd).symm.trans (hphase.trans htop)

/-- An enabled CTRL_DONE is no stutter: it closes the window (R114). -/
theorem exec_ctrlDone_ne_stutter {m : BitVec 32} (he : enabled (.ctrlDone m) s = true) (n : Nat) :
    exec (.ctrlDone m) s ≠ .next (s.retire n) := by
  intro ht
  obtain ⟨-, -, hwait, -⟩ := (ctrlDone_enabled_iff m s).mp he
  rw [exec_ctrlDone he] at ht
  cases hwait.symm.trans (congrArg State.CTRL_PHASE (Host.Outcome.next.inj ht)).symm

/-- An enabled HOST_ISSUE is no stutter under the invariant: it removes the head of the queue (R136). -/
theorem exec_hostIssue_ne_stutter (h : Inv s) (hq : s.HOST_PENDING ≠ []) (n : Nat) :
    exec .hostIssue s ≠ .next (s.retire n) :=
  fun ht => Nat.lt_irrefl _ (exec_hostIssue_queue_length_lt (s := s) (t := s.retire n) h hq ht)

end

end Sys2Proof.Machine
end

section
/-! PROOFS. The statements of 70_reset_and_hazards.md: RESET and the boot sequence, the invariant, the fair runs of the
host and the quiescent states. -/

namespace Sys2Proof.Machine

/-- Settles O52: the decoded operation, the refusal of a reserved OPID and SET_SPEED each keep the invariant. -/
theorem everyStepKeepsTheInvariant : Obligations.EveryStepKeepsTheInvariant := by
  intro s t h ht
  obtain ⟨-, ⟨i, -, -, hexec⟩ | ⟨-, rfl⟩ | ⟨v, -, hset⟩⟩ := step_next_cases ht
  · exact inv_exec h hexec
  · exact inv_retire 1 (inv_refuse _ h)
  · exact inv_execSetSpeed h hset

/-- Settles O45: RESET is always enabled, and its effect is the value of every element. -/
theorem resetRestoresEveryElement : Obligations.ResetRestoresEveryElement :=
  fun _ => exec_of_does (i := .reset) rfl rfl

/-- Settles O46: the elements of the initial state have the values RESET gives them. -/
theorem initialStateIsWhatResetLeaves : Obligations.InitialStateIsWhatResetLeaves :=
  ⟨resetRestoresEveryElement State.reset, rfl, rfl⟩

/-- Settles O53: field by field at the values of R177; the queue is empty. -/
theorem resetMeetsTheInvariant : Obligations.ResetMeetsTheInvariant where
  params := by decide +kernel
  duty := by decide +kernel
  outputs := by decide +kernel
  phases := by decide
  offset := by decide
  boot := fun _ => ⟨rfl, rfl, rfl, rfl⟩
  started := nofun
  startLead := nofun
  window := nofun
  timer := by decide
  reading := isReading_zero
  buffer := Nat.zero_le _
  speed := by decide +kernel
  pending := pendingOk_of_empty (by decide +kernel) rfl

/-- Settles O47: RESET by O45, then SYNC_DRIVE by O20 and SYNC_SAMPLE by O21, each in the mode the one before leaves. -/
theorem bootSequenceReachesRun : Obligations.BootSequenceReachesRun := by
  intro s
  obtain ⟨-, drive⟩ := syncDriveHoldsCommutationStateZero ((resetEffect s).retire 1)
  refine ⟨_, (execAll_cons (resetRestoresEveryElement s)).trans ((execAll_cons (drive rfl)).trans
    (execAll_cons ((syncSampleCapturesTheOffset _).2 rfl))), rfl, rfl, rfl, rfl, rfl, rfl, rfl, rfl, rfl, rfl, rfl, rfl, ?_⟩
  simp

/-- Settles O59: the queue cannot stay non-empty from a point on, by `Run.queue_drains`. -/
theorem queueDrainsUnderWeakFairness : Obligations.QueueDrainsUnderWeakFairness := by
  intro r hinv hmode hreset fair n
  by_contra hnever
  push Not at hnever
  exact Run.queue_drains (Run.inv hinv) (Run.mode_run hreset hmode) fair n hnever

/-- Settles O60: each of the fair steps, if it is enabled, is a stutter exactly under one of the four conditions; the boot
steps are not enabled in RUN. -/
theorem quiescenceIsCharacterised : Obligations.QuiescenceIsCharacterised := by
  intro s h hrun
  constructor
  · intro quiet
    refine ⟨(exec_poll_stutters_iff h hrun).mp (quiet .poll rfl rfl (decide_eq_true hrun)), ?_, fun hrunning htop => ?_,
      fun hrunning hwait => ?_⟩
    · by_contra hq
      exact exec_hostIssue_ne_stutter h hq 1 (quiet .hostIssue rfl rfl ((hostIssue_enabled_iff s).mpr ⟨hrun, hq⟩))
    · have he := (ctrlTop_enabled_iff s).mpr ⟨hrun, hrunning, htop⟩
      exact (exec_ctrlTop_stutters_iff he).mp (quiet .ctrlTop rfl rfl he)
    · refine Bool.eq_false_iff.mpr fun hgoal => ?_
      obtain ⟨m, -, hm⟩ := isReading_zero
      have he := (ctrlDone_enabled_iff m s).mpr ⟨hrun, hrunning, hwait, hgoal⟩
      exact exec_ctrlDone_ne_stutter he 5 (quiet (.ctrlDone m) rfl hm he)
  · rintro ⟨hprev, hempty, hidle, hshort⟩ i hfair - he
    cases i with
    | poll => exact (exec_poll_stutters_iff h hrun).mpr hprev
    | ctrlTop =>
      obtain ⟨-, hrunning, htop⟩ := (ctrlTop_enabled_iff s).mp he
      exact (exec_ctrlTop_stutters_iff he).mpr (hidle hrunning htop)
    | ctrlDone m =>
      obtain ⟨-, hrunning, hwait, hgoal⟩ := (ctrlDone_enabled_iff m s).mp he
      cases (hshort hrunning hwait).symm.trans hgoal
    | hostIssue =>
      obtain ⟨-, hq⟩ := (hostIssue_enabled_iff s).mp he
      exact absurd hempty hq
    | syncDrive => cases hrun.symm.trans (of_decide_eq_true he)
    | syncSample => cases hrun.symm.trans (of_decide_eq_true he)
    | _ => cases hfair

end Sys2Proof.Machine
end
